-- ==== Sys2Proof/Word.lean ====
section
/-! DEFINITION. The word and byte types of the block. -/

namespace Sys2Proof

/-- One 32-bit word: a register, a command word, a pixel word, a bus datum (10_state.md R36, 20_memory.md R60). -/
abbrev Word := BitVec 32

/-- One byte of the image stream, and one byte of a stored pixel word (20_memory.md R66). -/
abbrev Byte := BitVec 8

end Sys2Proof
end

