-- ==== Sys2Proof/Syntax.lean ====
section
/-! DEFINITION. The twelve commands of spec/opcode_table.json, one constructor a row. -/

namespace Sys2Proof

/-- A command. Every operand is an unsigned integer (30_encoding.md R82), written in the order of the assembler (R89);
`Instr.wellFormed` holds the ranges of R89 (log 9). -/
inductive Instr where
  /-- NOP (43_control.md R190). -/
  | nop
  /-- SET_DIMS w, h (40_load.md R100). -/
  | setDims (w h : Nat)
  /-- SET_DIAMETER d (41_threshold.md R120). -/
  | setDiameter (d : Nat)
  /-- LOAD_RESET (40_load.md R101). -/
  | loadReset
  /-- LOAD_BYTE b (40_load.md R102). -/
  | loadByte (b : Nat)
  /-- LOAD_PIXEL r, g, b (40_load.md R103). -/
  | loadPixel (r g b : Nat)
  /-- START (41_threshold.md R121). -/
  | start
  /-- ABORT (43_control.md R191). -/
  | abort
  /-- DEC_OK c (42_detect.md R171). -/
  | decOk (c : Nat)
  /-- DEC_FAIL (42_detect.md R172). -/
  | decFail
  /-- CLR_ERR (43_control.md R192). -/
  | clrErr
  /-- SOFT_RESET (43_control.md R193). -/
  | softReset
  deriving DecidableEq, Repr

end Sys2Proof
end

