-- ==== Sys2Proof/WellFormed.lean ====
section
/-! DEFINITION. Which commands the assembler accepts: the operand ranges of 30_encoding.md R89. -/

namespace Sys2Proof

/-- The operand ranges of 30_encoding.md R89: "An operand outside its range is an assembly error (the assembler refuses the line);
it never wraps into a neighbouring field." -/
def Instr.wellFormed : Instr → Bool
  | .nop             => true
  | .setDims w h     => decide (w ≤ 16383) && decide (h ≤ 16383)
  | .setDiameter d   => decide (d ≤ 65535)
  | .loadReset       => true
  | .loadByte b      => decide (b ≤ 255)
  | .loadPixel r g b => decide (r ≤ 255) && decide (g ≤ 255) && decide (b ≤ 255)
  | .start           => true
  | .abort           => true
  | .decOk c         => decide (c ≤ 8191)
  | .decFail         => true
  | .clrErr          => true
  | .softReset       => true

end Sys2Proof
end

