-- ==== Sys2Proof/Decode.lean ====
section
/-! DEFINITION. The decoder and the encoder of command words (30_encoding.md R80 to R88, opcode_table.json). -/

namespace Sys2Proof

/-- The twelve opcodes of 30_encoding.md R83. -/
inductive Op where
  | nop | setDims | setDiameter | loadReset | loadByte | loadPixel
  | start | abort | decOk | decFail | clrErr | softReset
  deriving DecidableEq, Repr

/-- The twelve opcodes in the table's order. -/
def Op.all : List Op :=
  [.nop, .setDims, .setDiameter, .loadReset, .loadByte, .loadPixel,
   .start, .abort, .decOk, .decFail, .clrErr, .softReset]

/-- The `match` column of opcode_table.json. -/
def Op.pattern : Op → Word
  | .nop         => 0x00000000#32
  | .setDims     => 0x10000000#32
  | .setDiameter => 0x20000000#32
  | .loadReset   => 0x30000000#32
  | .loadByte    => 0x40000000#32
  | .loadPixel   => 0x50000000#32
  | .start       => 0x60000000#32
  | .abort       => 0x70000000#32
  | .decOk       => 0x80000000#32
  | .decFail     => 0x90000000#32
  | .clrErr      => 0xA0000000#32
  | .softReset   => 0xB0000000#32

/-- The `mask` column of opcode_table.json: a 1 for every bit the format fixes (30_encoding.md R81). -/
def Op.mask : Op → Word
  | .nop         => 0xFFFFFFFF#32
  | .setDims     => 0xF0000000#32
  | .setDiameter => 0xFFFF0000#32
  | .loadReset   => 0xFFFFFFFF#32
  | .loadByte    => 0xFFFFFF00#32
  | .loadPixel   => 0xFF000000#32
  | .start       => 0xFFFFFFFF#32
  | .abort       => 0xFFFFFFFF#32
  | .decOk       => 0xFFFFE000#32
  | .decFail     => 0xFFFFFFFF#32
  | .clrErr      => 0xFFFFFFFF#32
  | .softReset   => 0xFFFFFFFF#32

/-- `c[hi:lo]` as an unsigned number, the field given by its lowest bit and its width (00_scope.md R8). -/
def bits (c : Word) (lo width : Nat) : Nat := (c.extractLsb' lo width).toNat

/-- The opcode map of 30_encoding.md R83; 0xC to 0xF are reserved (R84). -/
def Op.ofCode : Nat → Option Op
  | 0x0 => some .nop
  | 0x1 => some .setDims
  | 0x2 => some .setDiameter
  | 0x3 => some .loadReset
  | 0x4 => some .loadByte
  | 0x5 => some .loadPixel
  | 0x6 => some .start
  | 0x7 => some .abort
  | 0x8 => some .decOk
  | 0x9 => some .decFail
  | 0xA => some .clrErr
  | 0xB => some .softReset
  | _   => none

/-- Operand assembly, 30_encoding.md R82: `W = c[13:0]`, `H = c[27:14]`, `D = c[15:0]`, `B = c[7:0]`, `R = c[23:16]`,
`G = c[15:8]`, `C = c[12:0]`. -/
def Op.instr (c : Word) : Op → Instr
  | .nop         => .nop
  | .setDims     => .setDims (bits c 0 14) (bits c 14 14)
  | .setDiameter => .setDiameter (bits c 0 16)
  | .loadReset   => .loadReset
  | .loadByte    => .loadByte (bits c 0 8)
  | .loadPixel   => .loadPixel (bits c 16 8) (bits c 8 8) (bits c 0 8)
  | .start       => .start
  | .abort       => .abort
  | .decOk       => .decOk (bits c 0 13)
  | .decFail     => .decFail
  | .clrErr      => .clrErr
  | .softReset   => .softReset

/-- Why a word is ILLEGAL (30_encoding.md R87). -/
inductive Reject where
  /-- An opcode of 0xC to 0xF (30_encoding.md R84). -/
  | reservedOpcode
  /-- A 1 in a reserved payload bit of the opcode's format (30_encoding.md R85). -/
  | reservedPayload (op : Op)
  deriving DecidableEq, Repr

/-- The decoder: total, "by `OP = c[31:28]` and the reserved-bit test of rule R85" (30_encoding.md R87). -/
def decode (c : Word) : Except Reject Instr :=
  match Op.ofCode (bits c 28 4) with
  | none    => .error .reservedOpcode
  | some op => if c &&& op.mask = op.pattern then .ok (op.instr c) else .error (.reservedPayload op)

/-- The opcode of a command. -/
def Instr.op : Instr → Op
  | .nop            => .nop
  | .setDims _ _    => .setDims
  | .setDiameter _  => .setDiameter
  | .loadReset      => .loadReset
  | .loadByte _     => .loadByte
  | .loadPixel _ _ _ => .loadPixel
  | .start          => .start
  | .abort          => .abort
  | .decOk _        => .decOk
  | .decFail        => .decFail
  | .clrErr         => .clrErr
  | .softReset      => .softReset

/-- The payload of a command, the sums of 30_encoding.md R89. -/
def Instr.payload : Instr → Nat
  | .setDims w h     => h * 2 ^ 14 + w
  | .setDiameter d   => d
  | .loadByte b      => b
  | .loadPixel r g b => r * 2 ^ 16 + g * 2 ^ 8 + b
  | .decOk c         => c
  | .nop | .loadReset | .start | .abort | .decFail | .clrErr | .softReset => 0

/-- The encoder: the word the assembler writes to CMD (30_encoding.md R89). -/
def encode (i : Instr) : Word := BitVec.ofNat 32 (i.op.pattern.toNat + i.payload)

/-- The instruction of a row of spec/opcode_table.json: its bits are `w`, the first `nbits` of them given. A command is one 32-bit
word and no transaction sees an order of bytes in it (30_encoding.md R80, 20_memory.md R67). -/
def decodeTableWord (nbits w : Nat) : Option Instr :=
  match decode (BitVec.ofNat 32 (w % 2 ^ nbits)) with
  | .ok i    => some i
  | .error _ => none

end Sys2Proof
end

