-- ==== Sys2Proof/Config.lean ====
section
/-! DEFINITION. The parameters of one block and the free values of the spec. -/

namespace Sys2Proof

/-- The parameters of one block: "Each is a named argument of the model" (00_scope.md R7, 92_eei_decisions.md D47). They are
constants of the block, not state (10_state.md R20); State carries them and no step writes them (log 4). -/
structure Params where
  /-- `MAX_PIXELS`: pixel memory capacity in 32-bit words. -/
  maxPixels  : Nat
  /-- `N_SYM`: symbol table capacity in entries. -/
  nSym       : Nat
  /-- `AVG_INIT`: the accumulator's value at scan start. -/
  avgInit    : Nat
  /-- `OPAQUE_MARK`: the constant ORed into every packed raw pixel word. -/
  opaqueMark : Word
  deriving DecidableEq, Repr

/-- The defaults of 00_scope.md R7: 2^20 words, 64 entries, 128, `0xFF00_0000`. -/
def Params.default : Params where
  maxPixels  := 1048576
  nSym       := 64
  avgInit    := 128
  opaqueMark := 0xFF000000#32

/-- The legal ranges of 00_scope.md R7. -/
abbrev Params.Legal (p : Params) : Prop :=
  1 ≤ p.maxPixels ∧ p.maxPixels ≤ 2 ^ 24 ∧ 1 ≤ p.nSym ∧ p.nSym ≤ 128 ∧ p.avgInit ≤ 7650 ∧
    p.opaqueMark.toNat % 2 ^ 24 = 0

/-- FREE VALUE. The byte a pixel-memory byte holds that nothing has written since hardware reset number `epoch`: 20_memory.md R77,
"a model gives it a free value (a draw), and no claim may depend on it" (log 5). -/
opaque Config.unwrittenByte : (epoch : Nat) → (address : Nat) → Byte

end Sys2Proof
end

