-- ==== Sys2Proof/Machine/State.lean ====
section
/-! DEFINITION. The block's architectural state (10_state.md), its reset value (70_reset_and_hazards.md R240), and the reasons a
step can stop. -/

namespace Sys2Proof.Machine

/-- PHASE, the sequencer state (10_state.md R26); "Values 5 to 7 are never held". -/
inductive Phase where
  | idle | thresh | detect | waitDec | done
  deriving DecidableEq, Repr

/-- FIELD, the state of the pixel memory's contents (10_state.md R25). -/
inductive Field where
  | none | raw | inThreshold | thresholded
  deriving DecidableEq, Repr

/-- FSM, the ring automaton's state, "an explicit tagged state (sum type)" (10_state.md R28, 41_threshold.md R140). -/
inductive Fsm where
  | seek | first | white | second
  deriving DecidableEq, Repr

/-- The sticky error bits (10_state.md R34, 60_exceptions.md R211). -/
inductive Err where
  | input | busy | illegal | proto | resp | symOvf | bus | aborted
  deriving DecidableEq, Repr

/-- One accepted symbol (10_state.md R33). -/
structure Sym where
  code   : BitVec 13
  /-- signed Q16.16 (10_state.md R32) -/
  x      : Word
  /-- signed Q16.16 -/
  y      : Word
  /-- unsigned Q16.16 -/
  unit   : Word
  /-- carried unchanged (10_state.md R50) -/
  orient : Word
  deriving DecidableEq, Repr

/-- One move of an agent, in the one total order of 00_scope.md R5 (log 1). -/
inductive Input where
  /-- The core is given the next step (R5, "any enabled agent may take the next step"). -/
  | core
  /-- `MemWrite(off, 4, v)` by any bus master (20_memory.md R65). -/
  | write (off : BitVec 32) (v : Word)
  /-- `MemRead(off, 4)` by any bus master (20_memory.md R64). -/
  | read (off : BitVec 32)
  /-- Hardware reset (70_reset_and_hazards.md R240). -/
  | reset
  deriving DecidableEq, Repr

/-- Pixel memory: the bytes written since hardware reset, addresses strictly rising; byte `b` of word `k` has address `4*k + b`
(20_memory.md R60, R61; log 5, log 6). -/
abbrev Memory := List Host.Cell

/-- The state of the block: everything 10_state.md R20 lists, and four fields of the model's own at the end. -/
structure State where
  /-- W, image width (10_state.md R22) -/
  w          : BitVec 14
  /-- H, image height (R22) -/
  h          : BitVec 14
  /-- MAXUNIT (R23) -/
  maxUnit    : BitVec 16
  /-- BC, bytes accepted since LOAD_RESET (R24) -/
  bc         : BitVec 26
  /-- STG_R (R24) -/
  stgR       : Byte
  /-- STG_G (R24) -/
  stgG       : Byte
  /-- LOAD_OVF (R24) -/
  loadOvf    : Bool
  /-- FIELD (R25) -/
  field      : Field
  /-- the pixel memory (20_memory.md R61) -/
  mem        : Memory
  /-- PHASE (R26) -/
  phase      : Phase
  /-- AVG, the running accumulator (R27) -/
  avg        : BitVec 24
  /-- FSM (R28) -/
  fsm        : Fsm
  /-- B1 (R28) -/
  b1         : BitVec 16
  /-- W1 (R28) -/
  w1         : BitVec 16
  /-- B2 (R28) -/
  b2         : BitVec 16
  /-- CCOUNT (R29) -/
  ccount     : BitVec 32
  /-- ROW, scan position (R30) -/
  row        : BitVec 14
  /-- IDX, scan position (R30) -/
  idx        : BitVec 14
  /-- REQ_X (R31) -/
  reqX       : BitVec 14
  /-- REQ_Y (R31) -/
  reqY       : BitVec 14
  /-- RESP_X (R32) -/
  respX      : Word
  /-- RESP_Y (R32) -/
  respY      : Word
  /-- RESP_UNIT (R32) -/
  respUnit   : Word
  /-- RESP_ORIENT (R32) -/
  respOrient : Word
  /-- SYM[0 .. SYMCOUNT-1] in discovery order (R33); SYMCOUNT is its length (log 7) -/
  syms       : List Sym
  /-- the sticky error bits, bit `i` here being STATUS[8+i] (R34, R40) -/
  errs       : BitVec 8
  /-- IRQ_EN (R35) -/
  irqEn      : BitVec 3
  /-- MODEL: the parameters of the block, never written (00_scope.md R7; log 4) -/
  params     : Params
  /-- MODEL: the moves still to come, oldest first (log 1) -/
  inputs     : List Input
  /-- MODEL: what the last bus read returned (log 3) -/
  rdata      : Option Word
  /-- MODEL: the count of hardware resets, the argument of the free bytes of unwritten memory (log 5) -/
  epoch      : Nat
  deriving DecidableEq, Repr

/-- Why the model stops with a fault. The block itself has none (60_exceptions.md R220). -/
inductive Fault where
  /-- Raised by a core step (R130, R161) or by LOAD_BYTE or LOAD_PIXEL (R102, R103) that would address a pixel word outside
  `0 .. MAX_PIXELS-1`, which does not exist (20_memory.md R60). SAFE: the model stops; 60_exceptions.md R213 says it cannot happen,
  and `Safety.lean`'s invariant rules it out (log 8). -/
  | pixelRange
  deriving DecidableEq, Repr

/-- Why the model gives an instruction no meaning. -/
inductive Refusal where
  /-- Raised by `exec`'s arm of an instruction that has no meaning yet (none has been left so). SAFE: the model stops. -/
  | notModelled (mnemonic : String)
  deriving DecidableEq, Repr

/-- The state after reset of a block with parameters `p`: the table of 70_reset_and_hazards.md R240. -/
def State.resetOf (p : Params) : State where
  w          := 0#14
  h          := 0#14
  maxUnit    := 80#16
  bc         := 0#26
  stgR       := 0#8
  stgG       := 0#8
  loadOvf    := false
  field      := .none
  mem        := []
  phase      := .idle
  avg        := 0#24
  fsm        := .seek
  b1         := 0#16
  w1         := 0#16
  b2         := 0#16
  ccount     := 0#32
  row        := 0#14
  idx        := 0#14
  reqX       := 0#14
  reqY       := 0#14
  respX      := 0#32
  respY      := 0#32
  respUnit   := 0#32
  respOrient := 0#32
  syms       := []
  errs       := 0#8
  irqEn      := 0#3
  params     := p
  inputs     := []
  rdata      := none
  epoch      := 0

/-- The state right after reset, of the block with the default parameters (00_scope.md R7, 70_reset_and_hazards.md R240). -/
def State.reset : State := State.resetOf Params.default

end Sys2Proof.Machine
end

