-- ==== Sys2Proof/Machine/Ops.lean ====
section
/-! DEFINITION. The shared operations: pixel memory, raising an error, the two resets, and how a partial result becomes an outcome. -/

namespace Sys2Proof.Machine

/-! ### Bytes and words of pixel memory (20_memory.md R60 to R63, R67, R77) -/

/-- The byte written at `a` since hardware reset, if any. -/
def Memory.lookup : Memory → Nat → Option Byte
  | [], _ => none
  | (k, v) :: m, a => if a = k then some v else Memory.lookup m a

/-- Store one byte, keeping the addresses strictly rising. -/
def Memory.write : Memory → Nat → Byte → Memory
  | [], a, v => [(a, v)]
  | (k, x) :: m, a, v =>
    if a < k then (a, v) :: (k, x) :: m
    else if a = k then (a, v) :: m
    else (k, x) :: Memory.write m a v

/-- The canonical form: addresses strictly rising. An unlisted address holds no written byte, so no listed one can equal it (log 5). -/
def Memory.wf (m : Memory) : Bool := decide (m.Pairwise fun c d => c.1 < d.1)

/-- One byte of pixel memory: the written byte, or the free byte of an address not written since reset (20_memory.md R77). -/
def State.readByte (s : State) (a : Nat) : Byte :=
  (s.mem.lookup a).getD (Config.unwrittenByte s.epoch a)

/-- `mem[k]` (00_scope.md R10): the four bytes of word `k`, the byte at `4*k` in bits 7:0 (log 6). -/
def State.pixel (s : State) (k : Nat) : Word :=
  s.readByte (4 * k + 3) ++ s.readByte (4 * k + 2) ++ s.readByte (4 * k + 1) ++ s.readByte (4 * k)

/-- `mem[k] <- v` (00_scope.md R10). -/
def State.setPixel (s : State) (k : Nat) (v : Word) : State :=
  { s with mem := (((s.mem.write (4 * k) (v.extractLsb' 0 8)).write (4 * k + 1) (v.extractLsb' 8 8)).write
      (4 * k + 2) (v.extractLsb' 16 8)).write (4 * k + 3) (v.extractLsb' 24 8) }

/-- All four bytes of word `k` have been written since hardware reset. -/
def State.written (s : State) (k : Nat) : Bool :=
  (s.mem.lookup (4 * k)).isSome && (s.mem.lookup (4 * k + 1)).isSome &&
    (s.mem.lookup (4 * k + 2)).isSome && (s.mem.lookup (4 * k + 3)).isSome

/-- The word index `k` as an index of pixel memory, if that word exists: `0 <= k < MAX_PIXELS` (20_memory.md R60). -/
def State.pixelIndex (s : State) (k : Int) : Option Nat :=
  if 0 ≤ k ∧ k < s.params.maxPixels then some k.toNat else none

/-- Read `mem[k]` for an integer index; `none` where the word does not exist. -/
def State.loadPixel? (s : State) (k : Int) : Option Word := (s.pixelIndex k).map s.pixel

/-- Write `mem[k]` for an integer index; `none` where the word does not exist. -/
def State.storePixel? (s : State) (k : Int) (v : Word) : Option State := (s.pixelIndex k).map fun n => s.setPixel n v

/-! ### Outcomes -/

/-- A partial result as an outcome: a word that does not exist stops the model (log 8). -/
def outcomeOf : Option State → Host.Outcome State Fault Refusal
  | some t => .next t
  | none   => .fault .pixelRange

/-- Run `f` on the next state of `o`, if there is one. -/
def andThen (o : Host.Outcome State Fault Refusal) (f : State → Host.Outcome State Fault Refusal) :
    Host.Outcome State Fault Refusal :=
  match o with
  | .next t    => f t
  | .fault r   => .fault r
  | .refused r => .refused r

/-! ### Errors: the block's only exceptions (60_exceptions.md R210, R215) -/

/-- The bit of an error in STATUS[15:8], its code less 8 (60_exceptions.md R211). -/
def Err.bit : Err → Nat
  | .input   => 0
  | .busy    => 1
  | .illegal => 2
  | .proto   => 3
  | .resp    => 4
  | .symOvf  => 5
  | .bus     => 6
  | .aborted => 7

/-- `raise Err(NAME)`: set the sticky bit (00_scope.md R10, 60_exceptions.md R210). There is no vector, no saved context and nothing
to return from (R215). -/
def State.raise (s : State) (e : Err) : State := { s with errs := s.errs ||| 1#8 <<< e.bit }

/-- One sticky error bit. -/
def State.err (s : State) (e : Err) : Bool := s.errs.getLsbD e.bit

/-- Clear every sticky error bit (43_control.md R192): all there is of a return from an error. -/
def State.clearErrors (s : State) : State := { s with errs := 0#8 }

/-! ### Resets -/

/-- Hardware reset (70_reset_and_hazards.md R240, R242): every row of the table, pixel memory unspecified again, parameters kept; the
pending moves and the last read datum are outside the block (log 11). -/
def State.hardwareReset (s : State) : State :=
  { State.resetOf s.params with inputs := s.inputs, rdata := s.rdata, epoch := s.epoch + 1 }

/-- SOFT_RESET's effect (70_reset_and_hazards.md R241): as hardware reset, but the pixel memory keeps its contents. -/
def State.softReset (s : State) : State :=
  { State.resetOf s.params with mem := s.mem, inputs := s.inputs, rdata := s.rdata, epoch := s.epoch }

end Sys2Proof.Machine
end

