-- ==== Sys2Proof/Machine/Operands.lean ====
section
/-! DEFINITION. The derived operands and the arithmetic primitives of 00_scope.md R9, and the pixel-word layouts of 20_memory.md R62. -/

namespace Sys2Proof.Machine

/-- `ceil8(d) = (d + 7) div 8` (00_scope.md R9). -/
def ceil8 (d : Nat) : Nat := (d + 7) / 8

/-- `popcount13(c)`: the number of 1 bits in `c[12:0]` (00_scope.md R9). -/
def popcount13 (c : Nat) : Nat := ((List.range 13).filter fun i => c.testBit i).length

/-- The checksum: popcount 5 of 13 (42_detect.md R173). -/
def checksum (c : Nat) : Bool := popcount13 c == 5

/-- `sext_32(v)`: the word as two's complement (00_scope.md R9). -/
def sext32 (v : Word) : Int := v.toInt

/-- `zext_32(v)`: the word as unsigned (00_scope.md R9). -/
def zext32 (v : Word) : Int := v.toNat

/-- A raw pixel word: `OPAQUE_MARK | (R << 16) | (G << 8) | B` (20_memory.md R62, 40_load.md R102). -/
def rawWord (mark : Word) (r g b : Byte) : Word :=
  mark ||| r.setWidth 32 <<< 16 ||| g.setWidth 32 <<< 8 ||| b.setWidth 32

/-- A thresholded pixel word: `(cls << 24) | AVG` (20_memory.md R62, 41_threshold.md R135). -/
def thresholdedWord (white : Bool) (avg : BitVec 24) : Word :=
  (BitVec.ofBool white).setWidth 32 <<< 24 ||| avg.setWidth 32

/-- The intensity of a raw word: `(w[23:16] + w[15:8] + w[7:0]) div 3` (41_threshold.md R132). -/
def intensity (v : Word) : Nat :=
  ((v.extractLsb' 16 8).toNat + (v.extractLsb' 8 8).toNat + (v.extractLsb' 0 8).toNat) / 3

/-- The stored accumulator of a thresholded word: bits 23:0 (20_memory.md R62). -/
def storedAvg (v : Word) : Nat := (v.extractLsb' 0 24).toNat

/-- The class bit of a thresholded word: bit 24, 1 white (20_memory.md R62). -/
def classBit (v : Word) : Bool := v.getLsbD 24

/-- The candidate flag of a thresholded word: bit 25 (20_memory.md R62). -/
def flagBit (v : Word) : Bool := v.getLsbD 25

/-- The word with its candidate flag set: `w | (1 << 25)` (41_threshold.md R148). -/
def setFlag (v : Word) : Word := v ||| 1#32 <<< 25

end Sys2Proof.Machine
end

