-- ==== Sys2Proof/Machine/Flags.lean ====
section
/-! DEFINITION. BUSY, the interrupt output and the STATUS word (10_state.md R26, R40; 60_exceptions.md R218). -/

namespace Sys2Proof.Machine

/-- The code of PHASE (10_state.md R26). -/
def Phase.code : Phase → BitVec 3
  | .idle    => 0#3
  | .thresh  => 1#3
  | .detect  => 2#3
  | .waitDec => 3#3
  | .done    => 4#3

/-- The code of FIELD (10_state.md R25). -/
def Field.code : Field → BitVec 2
  | .none        => 0#2
  | .raw         => 1#2
  | .inThreshold => 2#2
  | .thresholded => 3#2

/-- The code of FSM (10_state.md R53). -/
def Fsm.code : Fsm → BitVec 2
  | .seek   => 0#2
  | .first  => 1#2
  | .white  => 2#2
  | .second => 3#2

/-- `BUSY = (PHASE in {THRESH, DETECT, WAIT_DEC})` (10_state.md R26). -/
def Phase.busy : Phase → Bool
  | .idle    => false
  | .thresh  => true
  | .detect  => true
  | .waitDec => true
  | .done    => false

/-- BUSY of a state. -/
def State.busy (s : State) : Bool := s.phase.busy

/-- `EN_DONE = IRQ_EN[0]` (60_exceptions.md R218). -/
def State.enDone (s : State) : Bool := s.irqEn.getLsbD 0

/-- `EN_REQ = IRQ_EN[1]` (60_exceptions.md R218). -/
def State.enReq (s : State) : Bool := s.irqEn.getLsbD 1

/-- `EN_ERR = IRQ_EN[2]` (60_exceptions.md R218). -/
def State.enErr (s : State) : Bool := s.irqEn.getLsbD 2

/-- The interrupt output, a function of the state (60_exceptions.md R218). -/
def State.irq (s : State) : Bool :=
  (s.enDone && decide (s.phase = .done)) || (s.enReq && decide (s.phase = .waitDec)) || (s.enErr && decide (s.errs ≠ 0#8))

/-- STATUS, from bit 31 down: 31:17 zero, 16 IRQ, 15:8 errors, 7 zero, 6 LOAD_OVF, 5:4 FIELD, 3 BUSY, 2:0 PHASE (10_state.md R40). -/
def State.status (s : State) : Word :=
  0#15 ++ BitVec.ofBool s.irq ++ s.errs ++ 0#1 ++ BitVec.ofBool s.loadOvf ++ s.field.code ++ BitVec.ofBool s.busy ++ s.phase.code

end Sys2Proof.Machine
end

