-- ==== Sys2Proof/Machine/Control.lean ====
section
/-! DEFINITION. The control commands: NOP, ABORT, CLR_ERR, SOFT_RESET (43_control.md). -/

namespace Sys2Proof.Machine

/-- NOP (43_control.md R190). -/
def execNop (s : State) : Host.Outcome State Fault Refusal := .next s

/-- FIELD after an ABORT: "a partly thresholded field is unusable" (43_control.md R191). -/
def fieldAfterAbort (s : State) : Field := if s.phase = .thresh then .none else s.field

/-- ABORT (43_control.md R191). -/
def execAbort (s : State) : Host.Outcome State Fault Refusal :=
  if s.busy then .next (State.raise { s with field := fieldAfterAbort s, phase := .idle, syms := [] } .aborted)
  else .next s

/-- CLR_ERR (43_control.md R192). -/
def execClrErr (s : State) : Host.Outcome State Fault Refusal := .next s.clearErrors

/-- SOFT_RESET (43_control.md R193, 70_reset_and_hazards.md R241). -/
def execSoftReset (s : State) : Host.Outcome State Fault Refusal := .next s.softReset

end Sys2Proof.Machine
end

