-- ==== Sys2Proof/Machine/Detect.lean ====
section
/-! DEFINITION. The core's detect step, and DEC_OK and DEC_FAIL (42_detect.md). -/

namespace Sys2Proof.Machine

/-! ### The detect step -/

/-- `Flag(x, y)`: bit 25 of the pixel, not flagged outside the row (42_detect.md R162). -/
def State.flag? (s : State) (x y : Int) : Option Bool :=
  if 0 ≤ x ∧ x ≤ (s.w.toNat : Int) - 1 then (s.loadPixel? (y * s.w.toNat + x)).map flagBit else some false

/-- `Qualifies(x, y)`: the pixel and its four direct neighbours are flagged (42_detect.md R163). -/
def State.qualifies? (s : State) (x y : Int) : Option Bool :=
  (s.flag? x y).bind fun own =>
    (s.flag? (x - 1) y).bind fun left =>
      (s.flag? (x + 1) y).bind fun right =>
        (s.flag? x (y - 1)).bind fun up =>
          (s.flag? x (y + 1)).map fun down => own && left && right && up && down

/-- `InBullseye(s, x, y)`, exact on the Q16.16 values (42_detect.md R164). -/
def Sym.inBullseye (e : Sym) (x y : Int) : Bool :=
  decide ((x * 2 ^ 16 - sext32 e.x) ^ 2 + (y * 2 ^ 16 - sext32 e.y) ^ 2 ≤ zext32 e.unit ^ 2)

/-- `Contained(x, y)`: inside the bullseye of some accepted symbol (42_detect.md R164). -/
def State.contained (s : State) (x y : Int) : Bool := s.syms.any fun e => e.inBullseye x y

/-- `AdvanceDetect()` (42_detect.md R165). -/
def advanceDetect (s : State) : State :=
  let row := if s.idx + 1 = s.w then s.row + 1 else s.row
  let idx := if s.idx + 1 = s.w then 0#14 else s.idx + 1
  { s with row := row, idx := idx, phase := if (row.toNat : Int) > (s.h.toNat : Int) - 3 then .done else .detect }

/-- Issue the decode request of the pixel at the scan position (42_detect.md R161). -/
def State.issueRequest (s : State) : State := { s with reqX := s.idx, reqY := s.row, phase := .waitDec }

/-- The detect step (42_detect.md R161); `none` only where a word it names does not exist (log 8). -/
def detectStep (s : State) : Option State :=
  (s.qualifies? s.idx.toNat s.row.toNat).map fun q =>
    if q && !s.contained s.idx.toNat s.row.toNat then s.issueRequest else advanceDetect s

/-! ### Decode responses -/

/-- The symbol a success response makes: the code and the response registers as they stand (42_detect.md R171,
70_reset_and_hazards.md R252). -/
def State.responseSym (s : State) (c : Nat) : Sym where
  code   := BitVec.ofNat 13 c
  x      := s.respX
  y      := s.respY
  unit   := s.respUnit
  orient := s.respOrient

/-- DEC_OK c (42_detect.md R171). -/
def execDecOk (c : Nat) (s : State) : Host.Outcome State Fault Refusal :=
  if s.phase ≠ .waitDec then .next (s.raise .proto)
  else if popcount13 c ≠ 5 ∨ s.respUnit = 0#32 then .next (advanceDetect (s.raise .resp))
  else if s.syms.length = s.params.nSym then .next { s.raise .symOvf with phase := .done }
  else .next (advanceDetect { s with syms := s.syms ++ [s.responseSym c] })

/-- DEC_FAIL (42_detect.md R172). -/
def execDecFail (s : State) : Host.Outcome State Fault Refusal :=
  if s.phase ≠ .waitDec then .next (s.raise .proto) else .next (advanceDetect s)

end Sys2Proof.Machine
end

