-- ==== Sys2Proof/Machine/Load.lean ====
section
/-! DEFINITION. The image load commands: SET_DIMS, LOAD_RESET, LOAD_BYTE, LOAD_PIXEL (40_load.md). -/

namespace Sys2Proof.Machine

/-- `AcceptByte(b)` (40_load.md R102); `none` only where `BC div 3` is no pixel word (log 8). -/
def acceptByte (b : Byte) (s : State) : Option State :=
  if s.bc.toNat = 3 * s.params.maxPixels then some { s with loadOvf := true }
  else
    match s.bc.toNat % 3 with
    | 0 => some { s with stgR := b, bc := s.bc + 1 }
    | 1 => some { s with stgG := b, bc := s.bc + 1 }
    | _ =>
      (s.storePixel? ((s.bc.toNat / 3 : Nat) : Int) (rawWord s.params.opaqueMark s.stgR s.stgG b)).map fun t =>
        { t with bc := s.bc + 1 }

/-- SET_DIMS w, h (40_load.md R100). -/
def execSetDims (w h : Nat) (s : State) : Host.Outcome State Fault Refusal :=
  if s.busy then .next (s.raise .busy)
  else .next { s with w := BitVec.ofNat 14 w, h := BitVec.ofNat 14 h }

/-- LOAD_RESET (40_load.md R101). -/
def execLoadReset (s : State) : Host.Outcome State Fault Refusal :=
  if s.busy then .next (s.raise .busy)
  else .next { s with bc := 0#26, stgR := 0#8, stgG := 0#8, loadOvf := false, field := .raw }

/-- LOAD_BYTE b (40_load.md R102). -/
def execLoadByte (b : Nat) (s : State) : Host.Outcome State Fault Refusal :=
  if s.busy then .next (s.raise .busy)
  else if s.field ≠ .raw then .next (s.raise .proto)
  else outcomeOf (acceptByte (BitVec.ofNat 8 b) s)

/-- LOAD_PIXEL r, g, b: three bytes in the order R, G, B within one command (40_load.md R103). -/
def execLoadPixel (r g b : Nat) (s : State) : Host.Outcome State Fault Refusal :=
  if s.busy then .next (s.raise .busy)
  else if s.field ≠ .raw then .next (s.raise .proto)
  else outcomeOf (((acceptByte (BitVec.ofNat 8 r) s).bind (acceptByte (BitVec.ofNat 8 g))).bind (acceptByte (BitVec.ofNat 8 b)))

end Sys2Proof.Machine
end

