-- ==== Sys2Proof/Machine/Automaton.lean ====
section
/-! DEFINITION. The ring automaton: its transitions, the acceptance test and the flag window (41_threshold.md R140 to R148). -/

namespace Sys2Proof.Machine

/-- The acceptance test, on exact integers (41_threshold.md R146). -/
def accept (b1 w1 b2 maxUnit : Nat) : Bool :=
  decide (2 ≤ b1 ∧ 2 ≤ b2 ∧ b1 ≤ maxUnit ∧ b2 ≤ maxUnit ∧ w1 ≤ 2 * maxUnit ∧
    ((b1 + b2 : Int) - w1).natAbs ≤ min (b1 + b2) w1 ∧ ((b1 : Int) - b2).natAbs ≤ min b1 b2)

/-- The distance back to the window's centre, `d = 1 + B2 + (W1 div 2)` (41_threshold.md R147). -/
def windowOffset (b2 w1 : Nat) : Nat := 1 + b2 + w1 / 2

/-- The word of the window's centre: `k - d` on an even row, `k + d` on an odd one (41_threshold.md R147). -/
def windowCentre (j : Nat) (k : Int) (b2 w1 : Nat) : Int :=
  if j % 2 = 0 then k - windowOffset b2 w1 else k + windowOffset b2 w1

/-- `mem[k] <- mem[k] | (1 << 25)` (41_threshold.md R148). -/
def State.flagWord? (s : State) (k : Int) : Option State :=
  (s.loadPixel? k).bind fun v => s.storePixel? k (setFlag v)

/-- The flag window: words `c-1`, `c`, `c+1`, in that order (41_threshold.md R148). -/
def State.flagWindow? (s : State) (c : Int) : Option State :=
  ((s.flagWord? (c - 1)).bind fun t => t.flagWord? c).bind fun t => t.flagWord? (c + 1)

/-- Re-entry into WHITE after SECOND, accepted or not: `B1 <- B2; W1 <- 1; B2 <- 0` (41_threshold.md R145). -/
def State.reenterWhite (s : State) : State := { s with fsm := .white, b1 := s.b2, w1 := 1#16, b2 := 0#16 }

/-- SECOND, white input: test, flag and count on acceptance, then re-enter (41_threshold.md R145). -/
def endOfSecondBlack (j : Nat) (k : Int) (s : State) : Option State :=
  if accept s.b1.toNat s.w1.toNat s.b2.toNat s.maxUnit.toNat then
    (s.flagWindow? (windowCentre j k s.b2.toNat s.w1.toNat)).map fun t =>
      State.reenterWhite { t with ccount := t.ccount + 3 }
  else some s.reenterWhite

/-- One automaton step on the class of the current pixel, word `k` of row `j`: the table of 41_threshold.md R140. -/
def automatonStep (white : Bool) (j : Nat) (k : Int) (s : State) : Option State :=
  match s.fsm, white with
  | .seek,   false => some { s with fsm := .first, b1 := 1#16, w1 := 0#16, b2 := 0#16 }
  | .seek,   true  => some s
  | .first,  false => some { s with b1 := s.b1 + 1 }
  | .first,  true  => some { s with fsm := .white, w1 := 1#16 }
  | .white,  true  => some { s with w1 := s.w1 + 1 }
  | .white,  false => some { s with fsm := .second, b2 := 1#16 }
  | .second, false => some { s with b2 := s.b2 + 1 }
  | .second, true  => endOfSecondBlack j k s

end Sys2Proof.Machine
end

