-- ==== Sys2Proof/Machine/Threshold.lean ====
section
/-! DEFINITION. SET_DIAMETER, START, and the core's threshold step (41_threshold.md). -/

namespace Sys2Proof.Machine

/-! ### Commands -/

/-- SET_DIAMETER d (41_threshold.md R120). -/
def execSetDiameter (d : Nat) (s : State) : Host.Outcome State Fault Refusal :=
  if s.busy then .next (s.raise .busy)
  else .next { s with maxUnit := BitVec.ofNat 16 (ceil8 d) }

/-- `StartOK` (41_threshold.md R122); the product is exact. -/
def State.startOK (s : State) : Bool :=
  decide (s.field = .raw ∧ s.loadOvf = false ∧ 1 ≤ s.w.toNat ∧ 1 ≤ s.h.toNat ∧ s.w.toNat * s.h.toNat ≤ s.params.maxPixels ∧
    s.bc.toNat = 3 * (s.w.toNat * s.h.toNat))

/-- START (41_threshold.md R121): a refused one clears the table and returns to IDLE. -/
def execStart (s : State) : Host.Outcome State Fault Refusal :=
  if s.busy then .next (s.raise .busy)
  else if s.startOK then
    .next { s with
      syms := [], ccount := 0#32, avg := BitVec.ofNat 24 s.params.avgInit, row := 0#14, idx := 0#14,
      fsm := .seek, b1 := 0#16, w1 := 0#16, b2 := 0#16, field := .inThreshold, phase := .thresh }
  else .next (State.raise { s with syms := [], phase := .idle } .input)

/-! ### The threshold step -/

/-- The accumulator update `AVG + I - (AVG div 30)` (41_threshold.md R133). -/
def accumulate (avg i : Nat) : Nat := avg + i - avg / 30

/-- The class: white iff `40*I >= 39*T` (41_threshold.md R134). -/
def isWhite (i t : Nat) : Bool := decide (39 * t ≤ 40 * i)

/-- The column processed at position `i` of row `j`: serpentine order (41_threshold.md R131). -/
def serpentineColumn (w j i : Nat) : Int := if j % 2 = 0 then (i : Int) else (w : Int) - 1 - i

/-- The word of the pixel at the scan position of the threshold pass, `k = j*W + x` (41_threshold.md R130). -/
def State.scanWord (s : State) : Int :=
  (s.row.toNat : Int) * s.w.toNat + serpentineColumn s.w.toNat s.row.toNat s.idx.toNat

/-- The effective threshold `T` of the pixel of row `j` at word `k`, from the updated accumulator (41_threshold.md R134). -/
def effectiveThreshold? (s : State) (avg j : Nat) (k : Int) : Option Nat :=
  if 1 ≤ j then (s.loadPixel? (k - s.w.toNat)).map fun above => (avg + storedAvg above) / 60
  else some (avg / 30)

/-- `AdvanceThreshold` (41_threshold.md R137). -/
def advanceThreshold (s : State) : State :=
  if s.idx + 1 = s.w then
    if s.row + 1 = s.h then
      if 5 ≤ s.h.toNat then
        { s with fsm := .seek, b1 := 0#16, w1 := 0#16, b2 := 0#16, field := .thresholded, phase := .detect,
                 row := 2#14, idx := 0#14 }
      else
        { s with fsm := .seek, b1 := 0#16, w1 := 0#16, b2 := 0#16, field := .thresholded, phase := .done,
                 row := s.row + 1, idx := 0#14 }
    else { s with fsm := .seek, b1 := 0#16, w1 := 0#16, b2 := 0#16, row := s.row + 1, idx := 0#14 }
  else { s with idx := s.idx + 1 }

/-- The step up to the word write: the new accumulator, the class and the state after `mem[k] <- (cls << 24) | AVG`
(41_threshold.md R130 to R135). -/
def classifyPixel (s : State) : Option (Bool × State) :=
  (s.loadPixel? s.scanWord).bind fun v =>
    (effectiveThreshold? s (BitVec.ofNat 24 (accumulate s.avg.toNat (intensity v))).toNat s.row.toNat s.scanWord).bind fun t =>
      (State.storePixel? { s with avg := BitVec.ofNat 24 (accumulate s.avg.toNat (intensity v)) } s.scanWord
        (thresholdedWord (isWhite (intensity v) t) (BitVec.ofNat 24 (accumulate s.avg.toNat (intensity v))))).map fun u =>
          (isWhite (intensity v) t, u)

/-- The threshold step (41_threshold.md R130); `none` only where a word it names does not exist (log 8). -/
def thresholdStep (s : State) : Option State :=
  (classifyPixel s).bind fun c => (automatonStep c.1 s.row.toNat s.scanWord c.2).map advanceThreshold

end Sys2Proof.Machine
end

