-- ==== Sys2Proof/Machine/Dispatch.lean ====
section
/-! DEFINITION. One arm per command (43_control.md R195: "run the rule of 30_encoding.md rule R83 for op"). -/

namespace Sys2Proof.Machine

def exec (i : Instr) (s : State) : Host.Outcome State Fault Refusal :=
  match i with
  | .nop => Sys2Proof.Machine.execNop s
  | .setDims w h => Sys2Proof.Machine.execSetDims w h s
  | .setDiameter d => Sys2Proof.Machine.execSetDiameter d s
  | .loadReset => Sys2Proof.Machine.execLoadReset s
  | .loadByte b => Sys2Proof.Machine.execLoadByte b s
  | .loadPixel r g b => Sys2Proof.Machine.execLoadPixel r g b s
  | .start => Sys2Proof.Machine.execStart s
  | .abort => Sys2Proof.Machine.execAbort s
  | .decOk c => Sys2Proof.Machine.execDecOk c s
  | .decFail => Sys2Proof.Machine.execDecFail s
  | .clrErr => Sys2Proof.Machine.execClrErr s
  | .softReset => Sys2Proof.Machine.execSoftReset s

end Sys2Proof.Machine
end

