-- ==== Sys2Proof/Machine/Registers.lean ====
section
/-! DEFINITION. The register map, the symbol window and the pixel window as the bus sees them (10_state.md R36 to R58, 20_memory.md
R63, R71). -/

namespace Sys2Proof.Machine

/-- The registers of 10_state.md R37. -/
inductive Reg where
  | id | cmd | status | config | maxunit | loadcnt | ccount | symcount | req
  | respX | respY | respUnit | respOrient | irqEn | pos | dbgFsm | dbgRun | dbgB2 | dbgAvg
  | paramMaxpix | paramNsym | paramAvginit
  deriving DecidableEq, Repr

/-- The access column of 10_state.md R37 (R36). -/
inductive Access where
  | ro | wo | rw
  deriving DecidableEq, Repr

/-- The offset column of 10_state.md R37. -/
def regMap : List (Nat × Reg) :=
  [(0x000, .id), (0x004, .cmd), (0x008, .status), (0x00C, .config), (0x010, .maxunit), (0x014, .loadcnt), (0x018, .ccount),
   (0x01C, .symcount), (0x020, .req), (0x024, .respX), (0x028, .respY), (0x02C, .respUnit), (0x030, .respOrient),
   (0x034, .irqEn), (0x038, .pos), (0x03C, .dbgFsm), (0x040, .dbgRun), (0x044, .dbgB2), (0x048, .dbgAvg),
   (0x04C, .paramMaxpix), (0x050, .paramNsym), (0x054, .paramAvginit)]

/-- The access column of 10_state.md R37. -/
def Reg.access : Reg → Access
  | .cmd => .wo
  | .respX | .respY | .respUnit | .respOrient | .irqEn => .rw
  | .id | .status | .config | .maxunit | .loadcnt | .ccount | .symcount | .req | .pos | .dbgFsm | .dbgRun | .dbgB2 | .dbgAvg
  | .paramMaxpix | .paramNsym | .paramAvginit => .ro

/-- What a bus offset names (20_memory.md R71). -/
inductive Target where
  | reg (r : Reg)
  /-- word `j` of symbol slot `i` (10_state.md R58) -/
  | symtab (i j : Nat)
  /-- pixel word `k` (20_memory.md R63) -/
  | pixel (k : Nat)
  deriving DecidableEq, Repr

/-- The address map, 20_memory.md R71; `none` for a misaligned (R68) or unmapped offset. -/
def target (p : Params) (off : BitVec 32) : Option Target :=
  let a := off.toNat
  if a % 4 ≠ 0 then none
  else if 0x1000 ≤ a ∧ a ≤ 0x1FFF then some (.symtab ((a - 0x1000) / 0x20) ((a - 0x1000) % 0x20 / 4))
  else if 0x04000000 ≤ a ∧ a < 0x04000000 + 4 * p.maxPixels then some (.pixel ((a - 0x04000000) / 4))
  else (regMap.lookup a).map .reg

/-- SYMCOUNT (10_state.md R33): the number of accepted symbols (log 7). -/
def State.symcount (s : State) : BitVec 8 := BitVec.ofNat 8 s.syms.length

/-- Two 14-bit coordinates in bits 13:0 and 27:14, bits 31:28 zero (10_state.md R41, R46, R52). -/
def pair14 (low high : BitVec 14) : Word := 0#4 ++ high ++ low

/-- The word a register reads as (10_state.md R38 to R57). -/
def State.readReg (s : State) : Reg → Word
  | .id           => 0x54435331#32
  | .cmd          => 0#32
  | .status       => s.status
  | .config       => pair14 s.w s.h
  | .maxunit      => s.maxUnit.setWidth 32
  | .loadcnt      => s.bc.setWidth 32
  | .ccount       => s.ccount
  | .symcount     => s.symcount.setWidth 32
  | .req          => pair14 s.reqX s.reqY
  | .respX        => s.respX
  | .respY        => s.respY
  | .respUnit     => s.respUnit
  | .respOrient   => s.respOrient
  | .irqEn        => s.irqEn.setWidth 32
  | .pos          => pair14 s.idx s.row
  | .dbgFsm       => s.fsm.code.setWidth 32
  | .dbgRun       => s.w1 ++ s.b1
  | .dbgB2        => s.b2.setWidth 32
  | .dbgAvg       => s.avg.setWidth 32
  | .paramMaxpix  => BitVec.ofNat 32 s.params.maxPixels
  | .paramNsym    => BitVec.ofNat 32 s.params.nSym
  | .paramAvginit => BitVec.ofNat 32 s.params.avgInit

/-- Word `j` of an accepted symbol (10_state.md R58): VALID in bit 31 and CODE in bits 12:0, then X, Y, UNIT, ORIENT, zeros. -/
def Sym.word (e : Sym) : Nat → Word
  | 0 => 1#1 ++ 0#18 ++ e.code
  | 1 => e.x
  | 2 => e.y
  | 3 => e.unit
  | 4 => e.orient
  | _ => 0#32

/-- The symbol window (10_state.md R58): a slot at or past SYMCOUNT reads 0. -/
def State.symWord (s : State) (i j : Nat) : Word :=
  match s.syms[i]? with
  | some e => e.word j
  | none   => 0#32

/-- The word defined for a bus target (20_memory.md R64). -/
def State.readTarget (s : State) : Target → Word
  | .reg r      => s.readReg r
  | .symtab i j => s.symWord i j
  | .pixel k    => s.pixel k

end Sys2Proof.Machine
end

