-- ==== Sys2Proof/Machine/Bus.lean ====
section
/-! DEFINITION. The bus transactions and the execution of a command word (20_memory.md R64, R65; 43_control.md R195 to R197). -/

namespace Sys2Proof.Machine

/-- `Execute(c)` (43_control.md R195): an ILLEGAL word sets ERR_ILLEGAL and nothing else (R194, 30_encoding.md R84, R85); the BUSY
test of the six gated commands stands first in each one's own rule. -/
def execWord (c : Word) (s : State) : Host.Outcome State Fault Refusal :=
  match decode c with
  | .ok i    => exec i s
  | .error _ => .next (s.raise .illegal)

/-- A bus write at a register (43_control.md R195 to R197). -/
def writeReg (r : Reg) (v : Word) (s : State) : Host.Outcome State Fault Refusal :=
  match r with
  | .cmd        => execWord v s
  | .respX      => .next { s with respX := v }
  | .respY      => .next { s with respY := v }
  | .respUnit   => .next { s with respUnit := v }
  | .respOrient => .next { s with respOrient := v }
  | .irqEn      => .next { s with irqEn := v.extractLsb' 0 3 }
  | .id | .status | .config | .maxunit | .loadcnt | .ccount | .symcount | .req | .pos | .dbgFsm | .dbgRun | .dbgB2 | .dbgAvg
  | .paramMaxpix | .paramNsym | .paramAvginit => .next (s.raise .bus)

/-- `MemWrite(off, 4, v)` (20_memory.md R65). -/
def busWrite (off : BitVec 32) (v : Word) (s : State) : Host.Outcome State Fault Refusal :=
  match target s.params off with
  | some (.reg r)      => writeReg r v s
  | some (.symtab _ _) => .next (s.raise .bus)
  | some (.pixel _)    => .next (s.raise .bus)
  | none               => .next (s.raise .bus)

/-- The word `MemRead(off, 4)` returns (20_memory.md R64). -/
def State.busData (s : State) (off : BitVec 32) : Word :=
  match target s.params off with
  | some t => s.readTarget t
  | none   => 0#32

/-- `MemRead(off, 4)` (20_memory.md R64): the word goes to the model's `rdata`; a refused read also sets ERR_BUS. -/
def busRead (off : BitVec 32) (s : State) : State :=
  match target s.params off with
  | some _ => { s with rdata := some (s.busData off) }
  | none   => { s.raise .bus with rdata := some (s.busData off) }

end Sys2Proof.Machine
end

