-- ==== Sys2Proof/Machine/Agents.lean ====
section
/-! DEFINITION. The moves of the agents: the core's own step, and what each input does (00_scope.md R5). -/

namespace Sys2Proof.Machine

/-- The core's step: a threshold step in THRESH, a detect step in DETECT, none otherwise (10_state.md R26). -/
def coreStep (s : State) : Host.Outcome State Fault Refusal :=
  match s.phase with
  | .thresh  => outcomeOf (thresholdStep s)
  | .detect  => outcomeOf (detectStep s)
  | .idle    => .next s
  | .waitDec => .next s
  | .done    => .next s

/-- One move (log 1). -/
def runInput (e : Input) (s : State) : Host.Outcome State Fault Refusal :=
  match e with
  | .core        => coreStep s
  | .write off v => busWrite off v s
  | .read off    => .next (busRead off s)
  | .reset       => .next s.hardwareReset

/-- The bus write that delivers the command word `c` (10_state.md R39). -/
def cmdWrite (c : Word) : Input := .write 0x004#32 c

end Sys2Proof.Machine
end

