-- ==== Sys2Proof/Machine/Step.lean ====
section
/-! DEFINITION. One step of the model: the oldest pending move, or the core's own when none is pending (00_scope.md R5; log 1). -/

namespace Sys2Proof.Machine

/-- One atomic step of one agent. With no move pending the core steps if it has a step; an idle block takes none (60_exceptions.md
R230; log 2). -/
def step (s : State) : Host.Outcome State Fault Refusal :=
  match s.inputs with
  | []        => coreStep s
  | e :: rest => runInput e { s with inputs := rest }

/-- `s` with a bus write of the command word to CMD as the very next move (log 10). -/
def State.withFetchWord (s : State) (nbits w : Nat) : State :=
  { s with inputs := cmdWrite (BitVec.ofNat 32 (w % 2 ^ nbits)) :: s.inputs }

end Sys2Proof.Machine
end

