-- ==== Sys2Proof/Machine/Pseudo.lean ====
section
/-! DEFINITION. The pseudo-commands of 30_encoding.md R89 and R90 as moves of a bus master, and the conditions its polling loops wait
for. -/

namespace Sys2Proof.Machine

/-- A command as the bus write that delivers it (30_encoding.md R89). -/
def command (i : Instr) : Input := cmdWrite (encode i)

/-- `SET_MAXUNIT u` (0 <= u <= 8192): `SET_DIAMETER 8*u`, or `SET_DIAMETER 65535` for `u = 8192` (30_encoding.md R90). -/
def setMaxUnit (u : Nat) : Instr := if u ≤ 8191 then .setDiameter (8 * u) else .setDiameter 65535

/-- `LOAD_IMAGE w, h, p0 ..` (30_encoding.md R90). -/
def loadImage (w h : Nat) (pixels : List (Nat × Nat × Nat)) : List Input :=
  command .loadReset :: command (.setDims w h) :: pixels.map fun p => command (.loadPixel p.1 p.2.1 p.2.2)

/-- `ANSWER_OK c, x, y, u, o` (30_encoding.md R90). -/
def answerOk (c : Nat) (x y u o : Word) : List Input :=
  [.write 0x024#32 x, .write 0x028#32 y, .write 0x02C#32 u, .write 0x030#32 o, command (.decOk c)]

/-- `ANSWER_FAIL` (30_encoding.md R90). -/
def answerFail : List Input := [command .decFail]

/-- `POLL off, mask, v` ends on a read word with `(value AND mask) = v` (30_encoding.md R89). -/
def pollEnds (mask v value : Word) : Bool := value &&& mask == v

/-- `SCAN` is START and then `POLL 0x008, 0x8, 0` (30_encoding.md R90). -/
def scanEnds (status : Word) : Bool := pollEnds 0x8#32 0#32 status

/-- `WAIT_EVENT` ends when PHASE is IDLE, WAIT_DEC or DONE (30_encoding.md R90). -/
def waitEventEnds (status : Word) : Bool :=
  bits status 0 3 == 0 || bits status 0 3 == 3 || bits status 0 3 == 4

/-- A byte stream delivered by LOAD_BYTE, one command a byte (20_memory.md R66, 40_load.md R102). -/
def loadBytes : List Nat → State → Host.Outcome State Fault Refusal
  | [], s => .next s
  | b :: bytes, s => andThen (exec (.loadByte b) s) (loadBytes bytes)

end Sys2Proof.Machine
end

