-- ==== Sys2Proof/Safety.lean ====
section
/-! DEFINITION. What counts as a safe run: the invariants of the block, in the terms its claims use. -/

namespace Sys2Proof.Machine

/-- The next move is the core's: none is pending, or the schedule names the core while others are (00_scope.md R5; log 1). -/
abbrev State.coreMoves (s : State) : Prop := s.inputs = [] ∨ s.inputs.head? = some .core

/-- `n` steps in a row, ending at the first that stops. -/
def steps : Nat → State → Host.Outcome State Fault Refusal
  | 0, s => .next s
  | n + 1, s => andThen (step s) (steps n)

/-- The registers hold the values of the table of 70_reset_and_hazards.md R240, and read as it says. -/
structure ResetTable (t : State) : Prop where
  dims    : t.w = 0#14 ∧ t.h = 0#14 ∧ t.readReg .config = 0#32
  maxUnit : t.maxUnit = 80#16 ∧ t.readReg .maxunit = 0x50#32
  load    : t.bc = 0#26 ∧ t.stgR = 0#8 ∧ t.stgG = 0#8 ∧ t.loadOvf = false
  field   : t.field = .none
  phase   : t.phase = .idle ∧ t.busy = false
  avg     : t.avg = 0#24
  fsm     : t.fsm = .seek ∧ t.b1 = 0#16 ∧ t.w1 = 0#16 ∧ t.b2 = 0#16
  ccount  : t.ccount = 0#32
  pos     : t.row = 0#14 ∧ t.idx = 0#14 ∧ t.readReg .pos = 0#32
  req     : t.reqX = 0#14 ∧ t.reqY = 0#14 ∧ t.readReg .req = 0#32
  resp    : t.respX = 0#32 ∧ t.respY = 0#32 ∧ t.respUnit = 0#32 ∧ t.respOrient = 0#32
  syms    : t.symcount = 0#8 ∧ ∀ i j, t.symWord i j = 0#32
  errs    : ∀ e, t.err e = false
  irq     : t.irqEn = 0#3 ∧ t.irq = false
  status  : t.status = 0#32

/-- A symbol the block may hold: a code of 5 set bits and a positive unit (42_detect.md R171, R173). -/
def Sym.valid (e : Sym) : Bool := checksum e.code.toNat && decide (e.unit ≠ 0#32)

/-- The word of the pixel the threshold pass processes next: serpentine order (41_threshold.md R130, R131). -/
def State.passWord (s : State) : Nat :=
  s.row.toNat * s.w.toNat + if s.row.toNat % 2 = 0 then s.idx.toNat else s.w.toNat - 1 - s.idx.toNat

/-- Pixel `(x, y)` has been thresholded in the current scan: always after the pass, and in the pass when the serpentine order
(41_threshold.md R131) has passed it. -/
def State.processed (s : State) (x y : Nat) : Prop :=
  s.phase = .thresh → y < s.row.toNat ∨ (y = s.row.toNat ∧ (if y % 2 = 0 then x else s.w.toNat - 1 - x) < s.idx.toNat)

/-- The automaton's runs fit in the pixels of the row already processed, and the acceptances so far leave room for the open runs
(41_threshold.md R149, R150). -/
def State.automatonFits (s : State) : Prop :=
  (match s.fsm with
    | .seek   => s.b1.toNat = 0 ∧ s.w1.toNat = 0 ∧ s.b2.toNat = 0
    | .first  => 1 ≤ s.b1.toNat ∧ s.w1.toNat = 0 ∧ s.b2.toNat = 0
    | .white  => 1 ≤ s.b1.toNat ∧ 1 ≤ s.w1.toNat ∧ s.b2.toNat = 0
    | .second => 1 ≤ s.b1.toNat ∧ 1 ≤ s.w1.toNat ∧ 1 ≤ s.b2.toNat) ∧
  s.b1.toNat + s.w1.toNat + s.b2.toNat ≤ s.idx.toNat ∧
  s.ccount.toNat + s.w1.toNat + s.b2.toNat ≤ s.row.toNat * s.w.toNat + s.idx.toNat

/-- The invariant of the block. -/
structure Inv (s : State) : Prop where
  /-- the parameters are legal (00_scope.md R7) -/
  legal       : s.params.Legal
  /-- "values above 8192 are never held" (10_state.md R23) -/
  maxUnit     : s.maxUnit.toNat ≤ 8192
  /-- "`BC` never exceeds `3*MAX_PIXELS`" (10_state.md R24) -/
  bc          : s.bc.toNat ≤ 3 * s.params.maxPixels
  /-- pixel memory keeps its canonical form -/
  memWf       : s.mem.wf = true
  /-- no byte is stored outside pixel memory (20_memory.md R60) -/
  memBound    : ∀ c ∈ s.mem, c.1 < 4 * s.params.maxPixels
  /-- "Its value always lies in `0 .. 7650`" (10_state.md R27) -/
  avg         : s.avg.toNat ≤ 7650
  /-- SYMCOUNT is at most N_SYM (10_state.md R33) -/
  symsBound   : s.syms.length ≤ s.params.nSym
  /-- "every code in the symbol table has exactly 5 bits set" (42_detect.md R173), every unit is positive (R171) -/
  symsValid   : ∀ e ∈ s.syms, e.valid = true
  /-- the candidate counter never wraps (10_state.md R29) -/
  ccount      : s.ccount.toNat ≤ s.params.maxPixels
  /-- every completely received pixel of an open stream is in memory (40_load.md R105) -/
  loaded      : s.field = .raw → ∀ k, k < s.bc.toNat / 3 → s.written k = true
  /-- IN_THRESHOLD exactly while the threshold pass runs (10_state.md R25) -/
  threshField : s.phase = .thresh ↔ s.field = .inThreshold
  /-- the detect pass sees a thresholded field (42_detect.md R176) -/
  scanField   : s.phase = .detect ∨ s.phase = .waitDec → s.field = .thresholded
  /-- a running scan has a valid image (41_threshold.md R122) -/
  image       : s.busy = true → 1 ≤ s.w.toNat ∧ 1 ≤ s.h.toNat ∧ s.w.toNat * s.h.toNat ≤ s.params.maxPixels
  /-- and every one of its words has been written (40_load.md R105, 20_memory.md R77) -/
  imageRead   : s.busy = true → ∀ k, k < s.w.toNat * s.h.toNat → s.written k = true
  /-- the scan position stays in the image (10_state.md R30) -/
  threshPos   : s.phase = .thresh → s.row.toNat < s.h.toNat ∧ s.idx.toNat < s.w.toNat
  /-- the automaton's counters fit (41_threshold.md R150) -/
  automaton   : s.phase = .thresh → s.automatonFits
  /-- the detect position stays in rows 2 .. H-3 (42_detect.md R160) -/
  detectPos   : s.phase = .detect ∨ s.phase = .waitDec →
    2 ≤ s.row.toNat ∧ s.row.toNat + 3 ≤ s.h.toNat ∧ s.idx.toNat < s.w.toNat
  /-- the outstanding request is the scan position (42_detect.md R170) -/
  request     : s.phase = .waitDec → s.reqX = s.idx ∧ s.reqY = s.row

/-- What a thresholded word of column `x` of an image of width `w` looks like: bits 31:26 zero, a stored accumulator of at most 7650,
and a flag only in columns `1 .. W-2` (20_memory.md R62, 41_threshold.md R149, R151). -/
def wordThresholded (w x : Nat) (v : Word) : Prop :=
  v.toNat < 2 ^ 26 ∧ bits v 0 24 ≤ 7650 ∧ (v.getLsbD 25 = true → 1 ≤ x ∧ x + 2 ≤ w)

/-- Every processed pixel of a running scan holds a thresholded word. -/
def FieldInv (s : State) : Prop :=
  s.busy = true → ∀ x y, x < s.w.toNat → y < s.h.toNat → s.processed x y →
    wordThresholded s.w.toNat x (s.pixel (y * s.w.toNat + x))

/-- What the threshold pass depends on and produces (41_threshold.md R139): the image, its dimensions, maxUnit, the working registers and
the position. -/
structure PassData where
  w       : BitVec 14
  h       : BitVec 14
  maxUnit : BitVec 16
  mem     : Memory
  field   : Field
  phase   : Phase
  avg     : BitVec 24
  fsm     : Fsm
  b1      : BitVec 16
  w1      : BitVec 16
  b2      : BitVec 16
  ccount  : BitVec 32
  row     : BitVec 14
  idx     : BitVec 14
  params  : Params
  deriving DecidableEq, Repr

/-- The pass data of a state. -/
def State.passData (s : State) : PassData where
  w := s.w
  h := s.h
  maxUnit := s.maxUnit
  mem := s.mem
  field := s.field
  phase := s.phase
  avg := s.avg
  fsm := s.fsm
  b1 := s.b1
  w1 := s.w1
  b2 := s.b2
  ccount := s.ccount
  row := s.row
  idx := s.idx
  params := s.params

end Sys2Proof.Machine
end

