-- ==== Sys2Proof/Certificates/Slice0/Obligations.lean ====
section
/-! DEFINITION. The statements about the block, for the provers. -/

open Sys2Proof Sys2Proof.Machine

/-! ### Encoding -/

/-- A legal assembler line comes back from its word, with every operand: 30_encoding.md R81 to R83, R89. -/
def Obligations.EncodeThenDecodeGivesTheCommand : Prop :=
  ∀ i : Instr, i.wellFormed = true → decode (encode i) = .ok i

/-- A word that decodes is the word of its command, whose operands are in range: 30_encoding.md R81 to R83, R89. -/
def Obligations.DecodedWordReencodes : Prop :=
  ∀ (c : Word) (i : Instr), decode c = .ok i → i.wellFormed = true ∧ encode i = c

/-- 30_encoding.md R87: decoding is total, by the opcode and the reserved-bit test; the rows' (match, mask) pairs are disjoint, and a
word matching no row is ILLEGAL. The spec marks this sentence as its own inference from R81 and R83 to R85. -/
def Obligations.DecodingFollowsTheDisjointTableRows : Prop :=
  (∀ (c : Word) (op : Op), c &&& op.mask = op.pattern → decode c = .ok (op.instr c)) ∧
  (∀ c : Word, (∀ op ∈ Op.all, c &&& op.mask ≠ op.pattern) → ∃ r, decode c = .error r) ∧
  (∀ op : Op, op ∈ Op.all) ∧
  ∀ (c : Word) (a b : Op), c &&& a.mask = a.pattern → c &&& b.mask = b.pattern → a = b

/-- Words written out in 95_test_vectors.md section 7 decode to their commands, and its illegal words do not. -/
def Obligations.WrittenOutWordsDecode : Prop :=
  decode 0x00000000#32 = .ok .nop ∧ decode 0x1002000C#32 = .ok (.setDims 12 8) ∧ decode 0x10004002#32 = .ok (.setDims 2 1) ∧
  decode 0x20000280#32 = .ok (.setDiameter 640) ∧ decode 0x30000000#32 = .ok .loadReset ∧
  decode 0x400000FF#32 = .ok (.loadByte 255) ∧ decode 0x50010203#32 = .ok (.loadPixel 1 2 3) ∧
  decode 0x60000000#32 = .ok .start ∧ decode 0x70000000#32 = .ok .abort ∧ decode 0x80001FFF#32 = .ok (.decOk 8191) ∧
  decode 0x90000000#32 = .ok .decFail ∧ decode 0xA0000000#32 = .ok .clrErr ∧ decode 0xB0000000#32 = .ok .softReset ∧
  decode 0x20010000#32 = .error (.reservedPayload .setDiameter) ∧ decode 0x40000100#32 = .error (.reservedPayload .loadByte) ∧
  decode 0x51000000#32 = .error (.reservedPayload .loadPixel) ∧ decode 0x80002000#32 = .error (.reservedPayload .decOk) ∧
  decode 0x60000001#32 = .error (.reservedPayload .start) ∧ decode 0xF0000000#32 = .error .reservedOpcode

/-! ### Steps -/

/-- A bus write of a legal word to CMD executes it as that step (10_state.md R39, 43_control.md R195). `withFetchWord` and the list of
pending moves are the model's (log 1, log 10). -/
def Obligations.StepExecutesTheDecodedCommand : Prop :=
  (∀ (s : State) (rest : List Input) (c : Word) (i : Instr),
    s.inputs = .write 0x004#32 c :: rest → decode c = .ok i → step s = exec i { s with inputs := rest }) ∧
  ∀ (s : State) (nbits w : Nat) (i : Instr), decodeTableWord nbits w = some i → step (s.withFetchWord nbits w) = exec i s

/-- 30_encoding.md R84, R85 and 43_control.md R194: a reserved opcode, or a 1 in a reserved payload bit, sets ERR_ILLEGAL and has no
other effect, in every phase. -/
def Obligations.IllegalWordOnlySetsErrIllegal : Prop :=
  ∀ (s : State) (rest : List Input) (c : Word), s.inputs = .write 0x004#32 c :: rest →
    (12 ≤ bits c 28 4 ∨ ∃ op : Op, bits c 28 4 = bits op.pattern 28 4 ∧ c &&& op.mask ≠ op.pattern) →
    step s = .next { s with inputs := rest, errs := s.errs ||| 0x04#8 }

/-- The core has a step exactly in THRESH and DETECT (10_state.md R26), alone or when the schedule names it while other moves
are pending (00_scope.md R5); otherwise nothing changes (60_exceptions.md R230). The schedule is the model's (log 1, log 2). -/
def Obligations.CoreMovesOnlyInThePasses : Prop :=
  (∀ s : State, s.coreMoves → step s = coreStep { s with inputs := s.inputs.tail }) ∧
  (∀ s : State, s.inputs = [] → s.phase ≠ .thresh → s.phase ≠ .detect → step s = .next s) ∧
  (∀ (s : State) (rest : List Input), s.inputs = .core :: rest → s.phase ≠ .thresh → s.phase ≠ .detect →
    step s = .next { s with inputs := rest }) ∧
  ∀ s t : State, s.coreMoves → step s = .next t → s.phase = .thresh ∨ s.phase = .detect →
    t ≠ { s with inputs := s.inputs.tail }

/-! ### Commands -/

/-- 43_control.md R190; `withFetchWord` is the model's form of a write to CMD (log 10). -/
def Obligations.NopChangesNothing : Prop :=
  decode 0#32 = .ok .nop ∧ (∀ s : State, exec .nop s = .next s) ∧
  (∀ c : Word, 1 ≤ c.toNat → c.toNat < 2 ^ 28 → decode c = .error (.reservedPayload .nop)) ∧
  step (State.reset.withFetchWord 32 0) = .next State.reset ∧ State.reset.status = 0#32 ∧
  ∃ t, step (State.reset.withFetchWord 32 1) = .next t ∧ t.status = 0x400#32

/-- 40_load.md R100. -/
def Obligations.SetDimsStoresTheDimensions : Prop :=
  (∀ c : Word, bits c 28 4 = 1 → decode c = .ok (.setDims (bits c 0 14) (bits c 14 14))) ∧
  (∀ (w h : Nat) (s : State), s.busy = true → exec (.setDims w h) s = .next { s with errs := s.errs ||| 0x02#8 }) ∧
  (∀ (w h : Nat) (s : State), s.busy = false →
    exec (.setDims w h) s = .next { s with w := BitVec.ofNat 14 w, h := BitVec.ofNat 14 h }) ∧
  encode (.setDims 12 8) = 0x1002000C#32 ∧
  ∀ s : State, s.busy = false → ∃ t, exec (.setDims 12 8) s = .next t ∧ t.readReg .config = 0x0002000C#32

/-- 41_threshold.md R120; that maxUnit below 2 accepts nothing is the spec's inference from R146. -/
def Obligations.SetDiameterSetsMaxUnit : Prop :=
  (∀ c : Word, c &&& 0xFFFF0000#32 = 0x20000000#32 → decode c = .ok (.setDiameter (bits c 0 16))) ∧
  (∀ (d : Nat) (s : State), s.busy = true → exec (.setDiameter d) s = .next { s with errs := s.errs ||| 0x02#8 }) ∧
  (∀ (d : Nat) (s : State), s.busy = false → d ≤ 65535 →
    ∃ t, exec (.setDiameter d) s = .next t ∧ t = { s with maxUnit := t.maxUnit } ∧ t.maxUnit.toNat = (d + 7) / 8 ∧
      t.maxUnit.toNat ≤ 8192) ∧
  (∀ b1 w1 b2 m : Nat, m < 2 → accept b1 w1 b2 m = false) ∧
  ceil8 0 = 0 ∧ ceil8 65535 = 8192 ∧ ceil8 100 = 13 ∧ ceil8 640 = 80

/-- 40_load.md R101. -/
def Obligations.LoadResetOpensAStream : Prop :=
  decode 0x30000000#32 = .ok .loadReset ∧
  (∀ s : State, s.busy = true → exec .loadReset s = .next { s with errs := s.errs ||| 0x02#8 }) ∧
  (∀ s : State, s.busy = false →
    exec .loadReset s = .next { s with bc := 0#26, stgR := 0#8, stgG := 0#8, loadOvf := false, field := .raw }) ∧
  ∃ t, exec .loadReset State.reset = .next t ∧ t.status = 0x10#32

/-- 40_load.md R102: one byte of the stream. The word written is `BC div 3`; no other byte of memory changes. -/
def Obligations.LoadByteAcceptsOneByte : Prop :=
  (∀ c : Word, c &&& 0xFFFFFF00#32 = 0x40000000#32 → decode c = .ok (.loadByte (bits c 0 8))) ∧
  (∀ (b : Nat) (s : State), s.busy = true → exec (.loadByte b) s = .next { s with errs := s.errs ||| 0x02#8 }) ∧
  (∀ (b : Nat) (s : State), s.busy = false → s.field ≠ .raw →
    exec (.loadByte b) s = .next { s with errs := s.errs ||| 0x08#8 }) ∧
  ∀ (b : Nat) (s : State), s.busy = false → s.field = .raw →
    (s.bc.toNat = 3 * s.params.maxPixels → exec (.loadByte b) s = .next { s with loadOvf := true }) ∧
    (s.bc.toNat < 3 * s.params.maxPixels → s.bc.toNat % 3 = 0 →
      exec (.loadByte b) s = .next { s with stgR := BitVec.ofNat 8 b, bc := s.bc + 1 }) ∧
    (s.bc.toNat < 3 * s.params.maxPixels → s.bc.toNat % 3 = 1 →
      exec (.loadByte b) s = .next { s with stgG := BitVec.ofNat 8 b, bc := s.bc + 1 }) ∧
    (s.bc.toNat < 3 * s.params.maxPixels → s.bc.toNat % 3 = 2 →
      ∃ t, exec (.loadByte b) s = .next t ∧ t = { s with mem := t.mem, bc := s.bc + 1 } ∧
        t.pixel (s.bc.toNat / 3) =
          s.params.opaqueMark ||| s.stgR.setWidth 32 <<< 16 ||| s.stgG.setWidth 32 <<< 8 ||| (BitVec.ofNat 8 b).setWidth 32 ∧
        ∀ a : Nat, a / 4 ≠ s.bc.toNat / 3 → t.readByte a = s.readByte a)

/-- 40_load.md R103: LOAD_PIXEL accepts its three bytes in the order R, G, B, as three LOAD_BYTEs would, or none of them. -/
def Obligations.LoadPixelIsThreeLoadBytes : Prop :=
  (∀ c : Word, c &&& 0xFF000000#32 = 0x50000000#32 → decode c = .ok (.loadPixel (bits c 16 8) (bits c 8 8) (bits c 0 8))) ∧
  (∀ (r g b : Nat) (s : State), s.busy = true → exec (.loadPixel r g b) s = .next { s with errs := s.errs ||| 0x02#8 }) ∧
  (∀ (r g b : Nat) (s : State), s.busy = false → s.field ≠ .raw →
    exec (.loadPixel r g b) s = .next { s with errs := s.errs ||| 0x08#8 }) ∧
  ∀ (r g b : Nat) (s : State), s.busy = false → s.field = .raw →
    exec (.loadPixel r g b) s =
      andThen (andThen (exec (.loadByte r) s) (exec (.loadByte g))) (exec (.loadByte b))

/-- LOAD_PIXEL completes, and its frame: only BC, the staging bytes, LOAD_OVF and the one word `BC div 3` change (40_load.md R102,
R103). -/
def Obligations.LoadPixelCompletes : Prop :=
  ∀ (r g b : Nat) (s : State), s.params.Legal → s.busy = false → s.field = .raw → s.bc.toNat ≤ 3 * s.params.maxPixels →
    ∃ t, exec (.loadPixel r g b) s = .next t ∧
      t = { s with bc := t.bc, stgR := t.stgR, stgG := t.stgG, loadOvf := t.loadOvf, mem := t.mem } ∧
      t.bc.toNat = min (s.bc.toNat + 3) (3 * s.params.maxPixels) ∧
      (t.loadOvf = true ↔ s.loadOvf = true ∨ 3 * s.params.maxPixels < s.bc.toNat + 3) ∧
      (∀ a : Nat, a / 4 ≠ s.bc.toNat / 3 → t.readByte a = s.readByte a) ∧
      (s.bc.toNat + 3 ≤ 3 * s.params.maxPixels → s.bc.toNat % 3 = 0 →
        t.pixel (s.bc.toNat / 3) =
          s.params.opaqueMark ||| (BitVec.ofNat 8 r).setWidth 32 <<< 16 ||| (BitVec.ofNat 8 g).setWidth 32 <<< 8 |||
            (BitVec.ofNat 8 b).setWidth 32)

/-- 40_load.md R105 (the spec derives it from R101 to R103), for a stream of LOAD_BYTEs right after a LOAD_RESET: every
complete pixel is in memory, packed from its three bytes, and START accepts the image if the dimensions match (R104). -/
def Obligations.LoadedStreamPacksTheImage : Prop :=
  ∀ (s : State) (bytes : List Nat), s.params.Legal → s.busy = false → bytes.length ≤ 3 * s.params.maxPixels →
    ∃ t, andThen (exec .loadReset s) (loadBytes bytes) = .next t ∧
      t.field = .raw ∧ t.loadOvf = false ∧ t.bc.toNat = bytes.length ∧
      (∀ (i : Nat) (h : 3 * i + 2 < bytes.length), t.written i = true ∧
        t.pixel i = s.params.opaqueMark ||| (BitVec.ofNat 8 (bytes[3 * i]'(by omega))).setWidth 32 <<< 16 |||
          (BitVec.ofNat 8 (bytes[3 * i + 1]'(by omega))).setWidth 32 <<< 8 ||| (BitVec.ofNat 8 bytes[3 * i + 2]).setWidth 32) ∧
      (t.startOK = true ↔ 1 ≤ s.w.toNat ∧ 1 ≤ s.h.toNat ∧ bytes.length = 3 * (s.w.toNat * s.h.toNat))

/-- 41_threshold.md R121, R122. -/
def Obligations.StartAcceptsALoadedImageOnly : Prop :=
  decode 0x60000000#32 = .ok .start ∧
  (∀ s : State, s.busy = true → exec .start s = .next { s with errs := s.errs ||| 0x02#8 }) ∧
  (∀ s : State, s.busy = false →
    (s.field = .raw ∧ s.loadOvf = false ∧ 1 ≤ s.w.toNat ∧ 1 ≤ s.h.toNat ∧ s.w.toNat * s.h.toNat ≤ s.params.maxPixels ∧
      s.bc.toNat = 3 * (s.w.toNat * s.h.toNat)) →
    ∃ t, exec .start s = .next t ∧
      t = { s with
        syms := [], ccount := 0#32, avg := BitVec.ofNat 24 s.params.avgInit, row := 0#14, idx := 0#14, fsm := .seek,
        b1 := 0#16, w1 := 0#16, b2 := 0#16, field := .inThreshold, phase := .thresh } ∧
      bits t.status 0 6 = 0x29) ∧
  ∀ s : State, s.busy = false →
    ¬(s.field = .raw ∧ s.loadOvf = false ∧ 1 ≤ s.w.toNat ∧ 1 ≤ s.h.toNat ∧ s.w.toNat * s.h.toNat ≤ s.params.maxPixels ∧
      s.bc.toNat = 3 * (s.w.toNat * s.h.toNat)) →
    exec .start s = .next { s with syms := [], phase := .idle, errs := s.errs ||| 0x01#8 }

/-- 43_control.md R191. -/
def Obligations.AbortEndsARunningScan : Prop :=
  decode 0x70000000#32 = .ok .abort ∧
  (∀ s : State, s.busy = true → exec .abort s =
    .next { s with
      field := if s.phase = .thresh then .none else s.field, phase := .idle, syms := [], errs := s.errs ||| 0x80#8 }) ∧
  ∀ s : State, s.busy = false → exec .abort s = .next s

/-- 42_detect.md R171; `advanceDetect` is the rule's `AdvanceDetect()`, stated by `AdvanceDetectVisitsInRasterOrder`. The first
clause says what `popcount13` counts: the 1 bits of `c[12:0]` (00_scope.md R9, 42_detect.md R173). -/
def Obligations.DecOkAppendsOrDropsTheCandidate : Prop :=
  (∀ c : Nat, popcount13 c = ((Finset.range 13).filter fun i => c / 2 ^ i % 2 = 1).card) ∧
  (∀ c : Word, c &&& 0xFFFFE000#32 = 0x80000000#32 → decode c = .ok (.decOk (bits c 0 13))) ∧
  (∀ (c : Nat) (s : State), s.phase ≠ .waitDec → exec (.decOk c) s = .next { s with errs := s.errs ||| 0x08#8 }) ∧
  (∀ (c : Nat) (s : State), s.phase = .waitDec → popcount13 c ≠ 5 ∨ s.respUnit = 0#32 →
    exec (.decOk c) s = .next (advanceDetect { s with errs := s.errs ||| 0x10#8 })) ∧
  (∀ (c : Nat) (s : State), s.phase = .waitDec → popcount13 c = 5 → s.respUnit ≠ 0#32 → s.syms.length = s.params.nSym →
    exec (.decOk c) s = .next { s with errs := s.errs ||| 0x20#8, phase := .done }) ∧
  ∀ (c : Nat) (s : State), s.phase = .waitDec → popcount13 c = 5 → s.respUnit ≠ 0#32 → s.syms.length ≠ s.params.nSym →
    exec (.decOk c) s = .next (advanceDetect { s with
      syms := s.syms ++ [⟨BitVec.ofNat 13 c, s.respX, s.respY, s.respUnit, s.respOrient⟩] })

/-- 42_detect.md R172. -/
def Obligations.DecFailDropsTheCandidate : Prop :=
  decode 0x90000000#32 = .ok .decFail ∧
  (∀ s : State, s.phase ≠ .waitDec → exec .decFail s = .next { s with errs := s.errs ||| 0x08#8 }) ∧
  (∀ s : State, s.phase = .waitDec → exec .decFail s = .next (advanceDetect s) ∧ (advanceDetect s).errs = s.errs) ∧
  ∃ t, exec .decFail State.reset = .next t ∧ t.status = 0x800#32

/-- 43_control.md R192. -/
def Obligations.ClrErrClearsTheErrorBits : Prop :=
  decode 0xA0000000#32 = .ok .clrErr ∧
  ∀ s : State, ∃ t, exec .clrErr s = .next t ∧ t = { s with errs := t.errs } ∧ (∀ e : Err, t.err e = false) ∧
    bits t.status 8 8 = 0

/-- 43_control.md R193, 70_reset_and_hazards.md R241: every register at its reset value, in every phase; the pixel memory kept. -/
def Obligations.SoftResetKeepsOnlyPixelMemory : Prop :=
  decode 0xB0000000#32 = .ok .softReset ∧
  ∀ s : State, ∃ t, exec .softReset s = .next t ∧ ResetTable t ∧ t.mem = s.mem ∧ (∀ a : Nat, t.readByte a = s.readByte a) ∧
    t.params = s.params

/-- 70_reset_and_hazards.md R240: hardware reset puts every register at its reset value in one step and leaves the pixel memory
unspecified (here: free bytes, whatever they are, log 5; the new epoch that draws them is the model's, log 5, log 11); the parameters stay
(R242). -/
def Obligations.HardwareResetLeavesTheResetTable : Prop :=
  ResetTable State.reset ∧
  ∀ (s : State) (rest : List Input), s.inputs = .reset :: rest →
    ∃ t, step s = .next t ∧ ResetTable t ∧ t.params = s.params ∧ t.inputs = rest ∧
      t.readReg .id = 0x54435331#32 ∧ t.epoch = s.epoch + 1 ∧ ∀ a : Nat, t.readByte a = Config.unwrittenByte t.epoch a

/-! ### What the commands leave alone -/

/-- The six gated commands are refused while BUSY (43_control.md R195), so in a running scan the dimensions and maxUnit never change,
and no bus master changes pixel memory (70_reset_and_hazards.md R250, 20_memory.md R75). -/
def Obligations.RunningScanIsNotReconfigured : Prop :=
  (∀ (i : Instr) (s : State), s.busy = true →
    i.op ∈ [Op.setDims, Op.setDiameter, Op.loadReset, Op.loadByte, Op.loadPixel, Op.start] →
    exec i s = .next { s with errs := s.errs ||| 0x02#8 }) ∧
  ∀ s t : State, s.busy = true → step s = .next t → t.busy = true →
    t.w = s.w ∧ t.h = s.h ∧ t.maxUnit = s.maxUnit ∧
    (s.inputs ≠ [] → s.inputs.head? ≠ some .core → t.mem = s.mem)

/-- Who writes each register: a command that the register's own rule does not name leaves it alone, and only LOAD_BYTE and LOAD_PIXEL
store to pixel memory (10_state.md R22 to R25, R27 to R35). -/
def Obligations.EachRegisterHasItsOwnWriters : Prop :=
  ∀ (i : Instr) (s t : State), exec i s = .next t →
    (i.op ∉ [Op.setDims, Op.softReset] → t.w = s.w ∧ t.h = s.h) ∧
    (i.op ∉ [Op.setDiameter, Op.softReset] → t.maxUnit = s.maxUnit) ∧
    (i.op ∉ [Op.loadReset, Op.loadByte, Op.loadPixel, Op.softReset] →
      t.bc = s.bc ∧ t.stgR = s.stgR ∧ t.stgG = s.stgG ∧ t.loadOvf = s.loadOvf) ∧
    (i.op ∉ [Op.loadReset, Op.start, Op.abort, Op.softReset] → t.field = s.field) ∧
    (i.op ∉ [Op.start, Op.abort, Op.decOk, Op.decFail, Op.softReset] → t.phase = s.phase) ∧
    (i.op ∉ [Op.start, Op.softReset] →
      t.avg = s.avg ∧ t.fsm = s.fsm ∧ t.b1 = s.b1 ∧ t.w1 = s.w1 ∧ t.b2 = s.b2 ∧ t.ccount = s.ccount) ∧
    (i.op ∉ [Op.start, Op.decOk, Op.decFail, Op.softReset] → t.row = s.row ∧ t.idx = s.idx) ∧
    (i.op ∉ [Op.start, Op.abort, Op.decOk, Op.softReset] → t.syms = s.syms) ∧
    (i.op ∉ [Op.softReset] → t.reqX = s.reqX ∧ t.reqY = s.reqY ∧ t.respX = s.respX ∧ t.respY = s.respY ∧
      t.respUnit = s.respUnit ∧ t.respOrient = s.respOrient ∧ t.irqEn = s.irqEn) ∧
    (i.op ∉ [Op.loadByte, Op.loadPixel] → ∀ a : Nat, t.readByte a = s.readByte a) ∧
    t.params = s.params ∧ t.inputs = s.inputs ∧ t.rdata = s.rdata ∧ t.epoch = s.epoch

/-- The error bits are sticky: only CLR_ERR, SOFT_RESET and hardware reset clear one (10_state.md R34, 60_exceptions.md R210). -/
def Obligations.ErrorBitsAreSticky : Prop :=
  ∀ (s t : State) (e : Err), step s = .next t → s.err e = true → t.err e = false →
    s.inputs.head? = some .reset ∨ s.inputs.head? = some (command .clrErr) ∨ s.inputs.head? = some (command .softReset)

/-- One transaction raises at most one error bit (60_exceptions.md R214), and the core's own steps raise none (R213). -/
def Obligations.AtMostOneErrorPerTransaction : Prop :=
  (∀ (s t : State) (e f : Err), step s = .next t → s.err e = false → t.err e = true → s.err f = false → t.err f = true →
    e = f) ∧
  ∀ s t : State, coreStep s = .next t → t.errs = s.errs

/-- What a core step leaves alone: the configuration, the load state, the response registers, the symbol table, the errors, the
interrupt enables; a detect step also leaves pixel memory and the threshold registers (10_state.md R20, 41_threshold.md R136). -/
def Obligations.CoreStepFrame : Prop :=
  ∀ s t : State, coreStep s = .next t →
    (t.w = s.w ∧ t.h = s.h ∧ t.maxUnit = s.maxUnit ∧ t.bc = s.bc ∧ t.stgR = s.stgR ∧ t.stgG = s.stgG ∧ t.loadOvf = s.loadOvf ∧
      t.respX = s.respX ∧ t.respY = s.respY ∧ t.respUnit = s.respUnit ∧ t.respOrient = s.respOrient ∧ t.syms = s.syms ∧
      t.errs = s.errs ∧ t.irqEn = s.irqEn ∧ t.params = s.params ∧ t.inputs = s.inputs ∧ t.rdata = s.rdata ∧
      t.epoch = s.epoch) ∧
    (s.phase ≠ .detect → t.reqX = s.reqX ∧ t.reqY = s.reqY) ∧
    (s.phase ≠ .thresh → t.mem = s.mem ∧ t.field = s.field ∧ t.avg = s.avg ∧ t.fsm = s.fsm ∧ t.b1 = s.b1 ∧ t.w1 = s.w1 ∧
      t.b2 = s.b2 ∧ t.ccount = s.ccount)

/-! ### The threshold pass -/

/-- 41_threshold.md R132, R133, R135 with the threshold of R134: the new accumulator, and the word written at the pixel of the scan
position. -/
def Obligations.ThresholdStepClassifiesThePixel : Prop :=
  ∀ s : State, Inv s → s.coreMoves → s.phase = .thresh →
    let v := s.pixel s.passWord
    let i := (bits v 16 8 + bits v 8 8 + bits v 0 8) / 3
    let a := s.avg.toNat + i - s.avg.toNat / 30
    let th := if 1 ≤ s.row.toNat then (a + bits (s.pixel (s.passWord - s.w.toNat)) 0 24) / 60 else a / 30
    ∃ t, step s = .next t ∧ t.avg.toNat = a ∧ a ≤ 7650 ∧
      t.pixel s.passWord = BitVec.ofNat 32 ((if 39 * th ≤ 40 * i then 2 ^ 24 else 0) + a)

/-- 41_threshold.md R147, R148, R149: an acceptance sets bit 25 of exactly the three words of the window, which lie in the current row, in
columns 1 .. W-2, behind the position, and adds 3 to CCOUNT; without one nothing but the current word changes. The words `c`, `c-1`,
`c+1` are computed as R147 says; the bounds are R149's, which the spec derives. -/
def Obligations.AcceptanceFlagsExactlyTheWindow : Prop :=
  ∀ s : State, Inv s → s.coreMoves → s.phase = .thresh →
    ∃ t, step s = .next t ∧
      (let d := 1 + s.b2.toNat + s.w1.toNat / 2
       let c := if s.row.toNat % 2 = 0 then s.passWord - d else s.passWord + d
       let accepted := s.fsm = .second ∧ (t.pixel s.passWord).getLsbD 24 = true ∧
         accept s.b1.toNat s.w1.toNat s.b2.toNat s.maxUnit.toNat = true
       (accepted → t.ccount.toNat = s.ccount.toNat + 3 ∧
         s.row.toNat * s.w.toNat + 1 ≤ c - 1 ∧ c + 1 + 2 ≤ s.row.toNat * s.w.toNat + s.w.toNat ∧
         (if s.row.toNat % 2 = 0 then c + 1 < s.passWord else s.passWord < c - 1) ∧
         ∀ k : Nat, k ≠ s.passWord →
           t.pixel k = if k = c - 1 ∨ k = c ∨ k = c + 1 then s.pixel k ||| 0x02000000#32 else s.pixel k) ∧
       (¬accepted → t.ccount = s.ccount ∧ ∀ k : Nat, k ≠ s.passWord → t.pixel k = s.pixel k))

/-- 41_threshold.md R141 to R145: the automaton's next state and counters, on the class of the current pixel, inside a row; at a row's
last pixel the restart of R137 follows. -/
def Obligations.AutomatonFollowsItsTable : Prop :=
  ∀ s : State, Inv s → s.coreMoves → s.phase = .thresh → s.idx.toNat + 1 < s.w.toNat →
    ∃ t, step s = .next t ∧
      (t.fsm, t.b1.toNat, t.w1.toNat, t.b2.toNat) =
        match s.fsm, (t.pixel s.passWord).getLsbD 24 with
        | .seek,   false => (Fsm.first, 1, 0, 0)
        | .seek,   true  => (Fsm.seek, 0, 0, 0)
        | .first,  false => (Fsm.first, s.b1.toNat + 1, 0, 0)
        | .first,  true  => (Fsm.white, s.b1.toNat, 1, 0)
        | .white,  false => (Fsm.second, s.b1.toNat, s.w1.toNat, 1)
        | .white,  true  => (Fsm.white, s.b1.toNat, s.w1.toNat + 1, 0)
        | .second, false => (Fsm.second, s.b1.toNat, s.w1.toNat, s.b2.toNat + 1)
        | .second, true  => (Fsm.white, s.b2.toNat, 1, 0)

/-- 41_threshold.md R137: the advance, the automaton's restart at a row's end, and the end of the pass. -/
def Obligations.ThresholdStepAdvancesThePosition : Prop :=
  (∀ s : State, (advanceThreshold s).avg = s.avg) ∧
  ∀ s : State, Inv s → s.coreMoves → s.phase = .thresh →
    ∃ t, step s = .next t ∧
      (s.idx.toNat + 1 < s.w.toNat →
        t.idx.toNat = s.idx.toNat + 1 ∧ t.row = s.row ∧ t.phase = .thresh ∧ t.field = .inThreshold) ∧
      (s.idx.toNat + 1 = s.w.toNat → t.fsm = .seek ∧ t.b1 = 0#16 ∧ t.w1 = 0#16 ∧ t.b2 = 0#16 ∧ t.idx = 0#14) ∧
      (s.idx.toNat + 1 = s.w.toNat → s.row.toNat + 1 < s.h.toNat →
        t.row.toNat = s.row.toNat + 1 ∧ t.phase = .thresh ∧ t.field = .inThreshold) ∧
      (s.idx.toNat + 1 = s.w.toNat → s.row.toNat + 1 = s.h.toNat → 5 ≤ s.h.toNat →
        t.row = 2#14 ∧ t.phase = .detect ∧ t.field = .thresholded) ∧
      (s.idx.toNat + 1 = s.w.toNat → s.row.toNat + 1 = s.h.toNat → s.h.toNat < 5 →
        t.row = s.h ∧ t.phase = .done ∧ t.field = .thresholded)

/-- 41_threshold.md R151, which the spec derives from R133: the accumulator stays in 0 .. 7650; the update is monotone, with its fixed
points. -/
def Obligations.AccumulatorStaysInRange : Prop :=
  (∀ a i : Nat, a ≤ 7650 → i ≤ 255 → accumulate a i ≤ 7650) ∧
  (∀ a b i k : Nat, a ≤ b → i ≤ k → accumulate a i ≤ accumulate b k) ∧
  accumulate 7650 255 = 7650 ∧ accumulate 29 0 = 29 ∧ isWhite 0 0 = true

/-- 41_threshold.md R152, which the spec derives from R146: the comparator form of the acceptance test. -/
def Obligations.AcceptanceTestIsTheComparatorForm : Prop :=
  ∀ b1 w1 b2 m : Nat, accept b1 w1 b2 m = true ↔
    2 ≤ b1 ∧ b1 ≤ m ∧ 2 ≤ b2 ∧ b2 ≤ m ∧ w1 ≤ 2 * m ∧ b1 + b2 ≤ 2 * w1 ∧ w1 ≤ 2 * (b1 + b2) ∧ b1 ≤ 2 * b2 ∧ b2 ≤ 2 * b1

/-- 41_threshold.md R138, which the spec derives from R130, R131, R137: an accepted START is followed by exactly `W*H`
threshold steps, which process every pixel once, in serpentine order, and then the phase is DETECT or DONE. -/
def Obligations.ThresholdPassTakesWidthTimesHeightSteps : Prop :=
  ∀ s u : State, Inv s → s.busy = false → s.startOK = true → s.inputs = [] → exec .start s = .next u →
    (∀ n : Nat, n < s.w.toNat * s.h.toNat → ∃ t, steps n u = .next t ∧ t.phase = .thresh ∧
      t.passWord = n / s.w.toNat * s.w.toNat +
        if n / s.w.toNat % 2 = 0 then n % s.w.toNat else s.w.toNat - 1 - n % s.w.toNat) ∧
    (∀ p : Nat, p < s.w.toNat * s.h.toNat → ∃ n, n < s.w.toNat * s.h.toNat ∧
      p = n / s.w.toNat * s.w.toNat + if n / s.w.toNat % 2 = 0 then n % s.w.toNat else s.w.toNat - 1 - n % s.w.toNat) ∧
    ∃ t, steps (s.w.toNat * s.h.toNat) u = .next t ∧ t.field = .thresholded ∧
      t.phase = if 5 ≤ s.h.toNat then .detect else .done

/-- 41_threshold.md R153 and R148: while a scan runs, a processed pixel keeps its flag, its class and its stored accumulator. -/
def Obligations.ProcessedPixelsKeepFlagAndClass : Prop :=
  ∀ (s t : State) (x y : Nat), Inv s → s.busy = true → step s = .next t → t.busy = true →
    x < s.w.toNat → y < s.h.toNat → s.processed x y →
    bits (t.pixel (y * s.w.toNat + x)) 0 25 = bits (s.pixel (y * s.w.toNat + x)) 0 25 ∧
    ((s.pixel (y * s.w.toNat + x)).getLsbD 25 = true → (t.pixel (y * s.w.toNat + x)).getLsbD 25 = true)

/-- 41_threshold.md R139: no bus transaction changes anything the threshold pass depends on or produces, but ABORT and SOFT_RESET (and
reset), which end the scan. -/
def Obligations.BusCannotDisturbTheThresholdPass : Prop :=
  ∀ (s t : State) (e : Input) (rest : List Input), s.inputs = e :: rest → e ≠ .core → s.phase = .thresh → step s = .next t →
    t.passData = s.passData ∨
    (t.phase = .idle ∧ (e = command .abort ∨ e = command .softReset ∨ e = .reset))

/-- 41_threshold.md R139: the pass is a function of the image, the dimensions, maxUnit and its own registers; nothing else of the state,
and no free value, can influence it. -/
def Obligations.ThresholdStepDependsOnPassDataOnly : Prop :=
  ∀ s s' t t' : State, Inv s → Inv s' → s.passData = s'.passData → s.phase = .thresh →
    coreStep s = .next t → coreStep s' = .next t' → t.passData = t'.passData

/-! ### The detect pass -/

/-- 42_detect.md R161 to R164: a detect step issues a request exactly for a pixel flagged with its four neighbours and outside every
accepted bullseye; otherwise it advances. -/
def Obligations.DetectStepRequestsOrAdvances : Prop :=
  ∀ s : State, Inv s → s.coreMoves → s.phase = .detect →
    let x := s.idx.toNat
    let y := s.row.toNat
    let flagged := fun x y : Nat => (s.pixel (y * s.w.toNat + x)).getLsbD 25 = true
    let qualifies := flagged x y ∧ (1 ≤ x ∧ flagged (x - 1) y) ∧ (x + 1 < s.w.toNat ∧ flagged (x + 1) y) ∧
      flagged x (y - 1) ∧ flagged x (y + 1)
    let contained := ∃ e ∈ s.syms,
      ((x : Int) * 2 ^ 16 - e.x.toInt) ^ 2 + ((y : Int) * 2 ^ 16 - e.y.toInt) ^ 2 ≤ (e.unit.toNat : Int) ^ 2
    (qualifies ∧ ¬contained →
      step s = .next { s with inputs := s.inputs.tail, reqX := s.idx, reqY := s.row, phase := .waitDec }) ∧
    (¬(qualifies ∧ ¬contained) → step s = .next (advanceDetect { s with inputs := s.inputs.tail }))

/-- 42_detect.md R165: the advance visits the pixels in raster order and ends after the last one of row H-3. -/
def Obligations.AdvanceDetectVisitsInRasterOrder : Prop :=
  ∀ s : State, s.idx.toNat < s.w.toNat → s.row.toNat + 3 ≤ s.h.toNat →
    (s.idx.toNat + 1 < s.w.toNat → advanceDetect s = { s with idx := s.idx + 1, phase := .detect }) ∧
    (s.idx.toNat + 1 = s.w.toNat → s.row.toNat + 4 ≤ s.h.toNat →
      advanceDetect s = { s with idx := 0#14, row := s.row + 1, phase := .detect }) ∧
    (s.idx.toNat + 1 = s.w.toNat → s.row.toNat + 3 = s.h.toNat →
      advanceDetect s = { s with idx := 0#14, row := s.row + 1, phase := .done } ∧
      (advanceDetect s).row.toNat + 2 = s.h.toNat)

/-- 42_detect.md R166, which the spec derives: "the pixels of columns 0, 1, `W-2`, `W-1` never issue a request". -/
def Obligations.EdgeColumnsNeverIssueARequest : Prop :=
  ∀ s t : State, Inv s → FieldInv s → s.coreMoves → s.phase = .detect → step s = .next t → t.phase = .waitDec →
    2 ≤ s.idx.toNat ∧ s.idx.toNat + 3 ≤ s.w.toNat

/-- 42_detect.md R164: the integer test is the source's formula on the exact rational values of the Q16.16 fields. -/
def Obligations.ContainmentIsExact : Prop :=
  ∀ (e : Sym) (x y : Int), e.inBullseye x y = true ↔
    ((x : ℚ) - (e.x.toInt : ℚ) / 2 ^ 16) ^ 2 + ((y : ℚ) - (e.y.toInt : ℚ) / 2 ^ 16) ^ 2 ≤ ((e.unit.toNat : ℚ) / 2 ^ 16) ^ 2

/-- While a scan runs to its end the symbol table only grows, by one symbol at a decode response, with exactly 5 of its 13 code bits set
and a unit that is not 0 (42_detect.md R171, R173, R174, 70_reset_and_hazards.md R251); and 1287 of the 8192 codes pass the checksum, a
count the spec derives (R173). -/
def Obligations.SymbolTableOnlyGrowsDuringAScan : Prop :=
  (∀ s t : State, s.busy = true → step s = .next t → t.phase ≠ .idle →
    t.syms = s.syms ∨ ∃ e : Sym, t.syms = s.syms ++ [e] ∧ s.phase = .waitDec ∧
      ((Finset.range 13).filter fun i => e.code.getLsbD i = true).card = 5 ∧ e.unit ≠ 0#32) ∧
  ((List.range 8192).filter checksum).length = 1287

/-- 42_detect.md R167: left alone, the detect pass reaches a request or its end after at most one step for each pixel it has not yet
examined. -/
def Obligations.DetectPassReachesARequestOrItsEnd : Prop :=
  ∀ s : State, Inv s → s.inputs = [] → s.phase = .detect →
    ∃ (n : Nat) (t : State), n + s.idx.toNat ≤ (s.h.toNat - 2 - s.row.toNat) * s.w.toNat ∧
      steps n s = .next t ∧ (t.phase = .waitDec ∨ t.phase = .done)

/-! ### Invariants and whole-machine rules -/

/-- The invariants hold after reset of every legal block (00_scope.md R7, 70_reset_and_hazards.md R240). `State.reset` takes the default
parameters of R7 (log 4). -/
def Obligations.ResetMeetsTheInvariants : Prop :=
  (∀ p : Params, p.Legal → Inv (State.resetOf p) ∧ FieldInv (State.resetOf p)) ∧ Params.default.Legal ∧ Inv State.reset

/-- Every step of every agent keeps the invariant: memory in canonical form and inside its bounds, counters and positions in range,
valid symbols, FIELD and PHASE in agreement, a running scan's image written. -/
def Obligations.EveryStepKeepsTheInvariant : Prop :=
  ∀ s t : State, Inv s → step s = .next t → Inv t

/-- 60_exceptions.md R213: no step of any agent addresses a word that does not exist, so the model's one fault, `pixelRange` (log 8), is
never reached. -/
def Obligations.NoStepStops : Prop :=
  ∀ s : State, Inv s → ∃ t, step s = .next t

/-- 41_threshold.md R135, R149, R151: in a running scan every processed pixel holds a thresholded word, flagged in columns 1 .. W-2
only. -/
def Obligations.EveryStepKeepsTheThresholdedField : Prop :=
  ∀ s t : State, Inv s → FieldInv s → step s = .next t → FieldInv t

/-- 10_state.md R25: the transitions of FIELD, and no other. -/
def Obligations.FieldChangesOnlyAsListed : Prop :=
  ∀ s t : State, Inv s → step s = .next t → t.field ≠ s.field →
    (t.field = .none ∧ (s.inputs.head? = some .reset ∨ s.inputs.head? = some (command .softReset) ∨
      (s.inputs.head? = some (command .abort) ∧ s.phase = .thresh))) ∨
    (t.field = .raw ∧ s.inputs.head? = some (command .loadReset)) ∨
    (t.field = .inThreshold ∧ s.inputs.head? = some (command .start) ∧ s.startOK = true) ∨
    (t.field = .thresholded ∧ s.phase = .thresh ∧ (s.inputs = [] ∨ s.inputs.head? = some .core) ∧ t.phase ≠ .thresh)

/-- 60_exceptions.md R217: the four ways a scan ends, each with the error bit it raises. Operands are in the range of the command word, so
that "a DEC_OK" is no other write to CMD. -/
def Obligations.ScanEndsInOneOfFourWays : Prop :=
  ∀ s t : State, Inv s → s.busy = true → step s = .next t → t.busy = false →
    (t.phase = .done ∧ (t.errs = s.errs ∨ (t.errs = s.errs ||| 0x10#8 ∧ s.phase = .waitDec)) ∧ t.idx = 0#14 ∧
      ((t.row.toNat + 2 = s.h.toNat ∧ s.phase ≠ .thresh) ∨ (t.row = s.h ∧ s.h.toNat < 5 ∧ s.phase = .thresh))) ∨
    (t.phase = .done ∧ t.errs = s.errs ||| 0x20#8 ∧ t.syms = s.syms ∧ s.syms.length = s.params.nSym ∧ t.row = s.row ∧ t.idx = s.idx ∧
      s.phase = .waitDec ∧ ∃ c : Nat, c ≤ 8191 ∧ popcount13 c = 5 ∧ s.inputs.head? = some (command (.decOk c))) ∨
    (t.phase = .idle ∧ t.errs = s.errs ||| 0x80#8 ∧ t.syms = [] ∧ s.inputs.head? = some (command .abort)) ∨
    (t.phase = .idle ∧ t.syms = [] ∧ (s.inputs.head? = some .reset ∨ s.inputs.head? = some (command .softReset)))

/-- 10_state.md R57: the PARAM registers hold the parameters of the block, and "Their value never changes". -/
def Obligations.ParametersNeverChange : Prop :=
  ∀ s t : State, step s = .next t → t.params = s.params ∧
    t.readReg .paramMaxpix = BitVec.ofNat 32 s.params.maxPixels ∧ t.readReg .paramNsym = BitVec.ofNat 32 s.params.nSym ∧
    t.readReg .paramAvginit = BitVec.ofNat 32 s.params.avgInit

/-- 42_detect.md R176: whenever a request is outstanding the field is the complete thresholded one, and no agent writes pixel memory
until the scan ends. -/
def Obligations.DecoderSeesTheCompleteField : Prop :=
  (∀ s : State, Inv s → FieldInv s → s.phase = .waitDec → s.field = .thresholded ∧
    ∀ x y : Nat, x < s.w.toNat → y < s.h.toNat → wordThresholded s.w.toNat x (s.pixel (y * s.w.toNat + x))) ∧
  ∀ s t : State, s.phase = .detect ∨ s.phase = .waitDec → step s = .next t → s.inputs.head? ≠ some .reset → t.mem = s.mem

/-- 70_reset_and_hazards.md R244: a completed scan's symbol table and candidate count stay until the next START, SOFT_RESET or reset, and
its pixel memory until a LOAD_BYTE or LOAD_PIXEL, whose operands are bytes, overwrites it. -/
def Obligations.ResultsStayUntilTheNextStart : Prop :=
  ∀ s t : State, s.phase = .done → step s = .next t → s.inputs.head? ≠ some (command .start) →
    s.inputs.head? ≠ some (command .softReset) → s.inputs.head? ≠ some .reset →
    t.phase = .done ∧ t.syms = s.syms ∧ t.ccount = s.ccount ∧
    ((∀ b ≤ 255, s.inputs.head? ≠ some (command (.loadByte b))) →
      (∀ r ≤ 255, ∀ g ≤ 255, ∀ b ≤ 255, s.inputs.head? ≠ some (command (.loadPixel r g b))) → t.mem = s.mem)

/-! ### The bus -/

/-- 10_state.md R40: the layout of STATUS and its reset value. The word a read returns stands in the model's `rdata` (log 3). -/
def Obligations.StatusLayout : Prop :=
  ∀ s : State,
    bits s.status 0 3 = (match s.phase with | .idle => 0 | .thresh => 1 | .detect => 2 | .waitDec => 3 | .done => 4) ∧
    s.status.getLsbD 3 = decide (s.phase = .thresh ∨ s.phase = .detect ∨ s.phase = .waitDec) ∧
    bits s.status 4 2 = (match s.field with | .none => 0 | .raw => 1 | .inThreshold => 2 | .thresholded => 3) ∧
    s.status.getLsbD 6 = s.loadOvf ∧ s.status.getLsbD 7 = false ∧
    s.status.getLsbD 8 = s.err .input ∧ s.status.getLsbD 9 = s.err .busy ∧ s.status.getLsbD 10 = s.err .illegal ∧
    s.status.getLsbD 11 = s.err .proto ∧ s.status.getLsbD 12 = s.err .resp ∧ s.status.getLsbD 13 = s.err .symOvf ∧
    s.status.getLsbD 14 = s.err .bus ∧ s.status.getLsbD 15 = s.err .aborted ∧ s.status.getLsbD 16 = s.irq ∧
    bits s.status 17 15 = 0 ∧ (∀ p : Params, (State.resetOf p).status = 0#32) ∧
    ∀ rest : List Input, s.inputs = .read 0x008#32 :: rest → step s = .next { s with inputs := rest, rdata := some s.status }

/-- 10_state.md R38, R41 to R57: what each register reads as, at the offset of R37, with no other effect. The word a read
returns stands in the model's `rdata` (log 3). -/
def Obligations.RegistersReadAsLaidOut : Prop :=
  (∀ (s : State) (rest : List Input) (off : BitVec 32) (r : Reg),
    (off, r) ∈ ([(0x000#32, .id), (0x004#32, .cmd), (0x008#32, .status), (0x00C#32, .config), (0x010#32, .maxunit),
      (0x014#32, .loadcnt), (0x018#32, .ccount), (0x01C#32, .symcount), (0x020#32, .req), (0x024#32, .respX), (0x028#32, .respY),
      (0x02C#32, .respUnit), (0x030#32, .respOrient), (0x034#32, .irqEn), (0x038#32, .pos), (0x03C#32, .dbgFsm),
      (0x040#32, .dbgRun), (0x044#32, .dbgB2), (0x048#32, .dbgAvg), (0x04C#32, .paramMaxpix), (0x050#32, .paramNsym),
      (0x054#32, .paramAvginit)] : List (BitVec 32 × Reg)) →
    s.inputs = .read off :: rest → step s = .next { s with inputs := rest, rdata := some (s.readReg r) }) ∧
  ∀ s : State,
    s.readReg .status = s.status ∧ s.readReg .paramMaxpix = BitVec.ofNat 32 s.params.maxPixels ∧
    s.readReg .paramNsym = BitVec.ofNat 32 s.params.nSym ∧ s.readReg .paramAvginit = BitVec.ofNat 32 s.params.avgInit ∧
    s.readReg .id = 0x54435331#32 ∧ s.readReg .cmd = 0#32 ∧
    (s.readReg .config).toNat = s.h.toNat * 2 ^ 14 + s.w.toNat ∧ (s.readReg .maxunit).toNat = s.maxUnit.toNat ∧
    (s.readReg .loadcnt).toNat = s.bc.toNat ∧ s.readReg .ccount = s.ccount ∧
    (s.syms.length ≤ 128 → (s.readReg .symcount).toNat = s.syms.length) ∧
    (s.readReg .req).toNat = s.reqY.toNat * 2 ^ 14 + s.reqX.toNat ∧
    s.readReg .respX = s.respX ∧ s.readReg .respY = s.respY ∧ s.readReg .respUnit = s.respUnit ∧
    s.readReg .respOrient = s.respOrient ∧ (s.readReg .irqEn).toNat = s.irqEn.toNat ∧
    (s.readReg .pos).toNat = s.row.toNat * 2 ^ 14 + s.idx.toNat ∧
    (s.readReg .dbgFsm).toNat = (match s.fsm with | .seek => 0 | .first => 1 | .white => 2 | .second => 3) ∧
    (s.readReg .dbgRun).toNat = s.w1.toNat * 2 ^ 16 + s.b1.toNat ∧ (s.readReg .dbgB2).toNat = s.b2.toNat ∧
    (s.readReg .dbgAvg).toNat = s.avg.toNat

/-- 20_memory.md R64, with the address map of R71: a misaligned or unmapped read returns 0 and sets ERR_BUS; any other read changes no
state of the block. The returned word stands in the model's `rdata` (log 3). -/
def Obligations.BusReadEffects : Prop :=
  ∀ (s : State) (rest : List Input) (off : BitVec 32), s.params.Legal → s.inputs = .read off :: rest →
    let mapped := off.toNat % 4 = 0 ∧ (off.toNat ≤ 0x57 ∨ (0x1000 ≤ off.toNat ∧ off.toNat ≤ 0x1FFF) ∨
      (0x04000000 ≤ off.toNat ∧ off.toNat ≤ 0x04000000 + 4 * s.params.maxPixels - 1))
    (mapped → step s = .next { s with inputs := rest, rdata := some (s.busData off) }) ∧
    (¬mapped → step s = .next { s with inputs := rest, rdata := some 0#32, errs := s.errs ||| 0x40#8 })

/-- 20_memory.md R65, 43_control.md R196: a bus write at CMD executes its word, at an RW register stores its word, and anywhere else sets
ERR_BUS and changes nothing else. -/
def Obligations.BusWriteEffects : Prop :=
  ∀ (s : State) (rest : List Input) (off : BitVec 32) (v : Word), s.inputs = .write off v :: rest →
    (off = 0x004#32 → step s = execWord v { s with inputs := rest }) ∧
    (off = 0x024#32 → step s = .next { s with inputs := rest, respX := v }) ∧
    (off = 0x028#32 → step s = .next { s with inputs := rest, respY := v }) ∧
    (off = 0x02C#32 → step s = .next { s with inputs := rest, respUnit := v }) ∧
    (off = 0x030#32 → step s = .next { s with inputs := rest, respOrient := v }) ∧
    (off = 0x034#32 → step s = .next { s with inputs := rest, irqEn := v.extractLsb' 0 3 }) ∧
    (off ∉ [0x004#32, 0x024#32, 0x028#32, 0x02C#32, 0x030#32, 0x034#32] →
      step s = .next { s with inputs := rest, errs := s.errs ||| 0x40#8 })

/-- 10_state.md R58: the symbol window. The word a read returns stands in the model's `rdata` (log 3). -/
def Obligations.SymbolWindowReadsAcceptedSymbols : Prop :=
  (∀ (s : State) (rest : List Input) (i j : Nat), s.params.Legal → s.syms.length ≤ s.params.nSym → i < 128 → j < 8 →
    s.inputs = .read (BitVec.ofNat 32 (0x1000 + 0x20 * i + 4 * j)) :: rest →
    ∃ w : Word, step s = .next { s with inputs := rest, rdata := some w } ∧
      (∀ h : i < s.syms.length,
        (j = 0 → w = 0x80000000#32 ||| s.syms[i].code.setWidth 32) ∧ (j = 1 → w = s.syms[i].x) ∧ (j = 2 → w = s.syms[i].y) ∧
        (j = 3 → w = s.syms[i].unit) ∧ (j = 4 → w = s.syms[i].orient) ∧ (5 ≤ j → w = 0#32)) ∧
      (s.syms.length ≤ i → w = 0#32)) ∧
  ∀ (s : State) (rest : List Input) (off : BitVec 32) (v : Word), 0x1000 ≤ off.toNat → off.toNat ≤ 0x1FFF →
    s.inputs = .write off v :: rest → step s = .next { s with inputs := rest, errs := s.errs ||| 0x40#8 }

/-- 20_memory.md R63: the pixel window is read-only, returns the word as it stands, and ends with the memory. The word a read
returns stands in the model's `rdata` (log 3). -/
def Obligations.PixelWindowIsReadOnly : Prop :=
  (∀ (s : State) (rest : List Input) (k : Nat), s.params.Legal → k < s.params.maxPixels →
    s.inputs = .read (BitVec.ofNat 32 (0x04000000 + 4 * k)) :: rest →
    step s = .next { s with inputs := rest, rdata := some (s.pixel k) }) ∧
  (∀ (s : State) (rest : List Input) (k : Nat) (v : Word), s.params.Legal → k < s.params.maxPixels →
    s.inputs = .write (BitVec.ofNat 32 (0x04000000 + 4 * k)) v :: rest →
    step s = .next { s with inputs := rest, errs := s.errs ||| 0x40#8 }) ∧
  ∀ (s : State) (rest : List Input) (k : Nat), s.params.Legal → s.params.maxPixels ≤ k → 0x04000000 + 4 * k < 2 ^ 32 →
    s.inputs = .read (BitVec.ofNat 32 (0x04000000 + 4 * k)) :: rest →
    step s = .next { s with inputs := rest, rdata := some 0#32, errs := s.errs ||| 0x40#8 }

/-- 60_exceptions.md R218: the interrupt output, and its copy in STATUS[16]. -/
def Obligations.InterruptLevelFollowsTheState : Prop :=
  ∀ s : State,
    (s.irq = true ↔ (s.irqEn.getLsbD 0 = true ∧ s.phase = .done) ∨ (s.irqEn.getLsbD 1 = true ∧ s.phase = .waitDec) ∨
      (s.irqEn.getLsbD 2 = true ∧ bits s.status 8 8 ≠ 0)) ∧
    s.status.getLsbD 16 = s.irq ∧ (s.irqEn = 0#3 → s.irq = false)

/-- `ANSWER_OK` of 30_encoding.md R90: the four response writes and DEC_OK append the symbol written, unchanged (42_detect.md R171,
70_reset_and_hazards.md R252). -/
def Obligations.AnswerOkAppendsTheWrittenSymbol : Prop :=
  ∀ (s : State) (rest : List Input) (c : Nat) (x y u o : Word),
    s.phase = .waitDec → s.inputs = answerOk c x y u o ++ rest → c ≤ 8191 → popcount13 c = 5 → u ≠ 0#32 →
    s.syms.length < s.params.nSym →
    steps 5 s = .next (advanceDetect { s with
      inputs := rest, respX := x, respY := y, respUnit := u, respOrient := o,
      syms := s.syms ++ [⟨BitVec.ofNat 13 c, x, y, u, o⟩] })
end

