-- ==== Sys2Proof/Laws/Decode.lean ====
section
/-! SUPPORT. The decoder's pieces: fields and masks as arithmetic on the word's number, and what a decoded word is. -/

namespace Sys2Proof

theorem bits_eq (c : Word) (lo width : Nat) : bits c lo width = c.toNat / 2 ^ lo % 2 ^ width := by
  simp [bits, Nat.shiftRight_eq_div_pow]

theorem bits_lt (c : Word) (lo width : Nat) : bits c lo width < 2 ^ width := by
  rw [bits_eq]; exact Nat.mod_lt _ (by positivity)

/-- A mask of all bits from `n` up keeps exactly those bits. -/
theorem and_topMask (c : Word) (n : Nat) : (c &&& BitVec.allOnes 32 <<< n).toNat = c.toNat / 2 ^ n * 2 ^ n := by
  have h : c &&& BitVec.allOnes 32 <<< n = (c >>> n) <<< n := by
    apply BitVec.eq_of_getLsbD_eq
    intro i hi
    simp only [BitVec.getLsbD_and, BitVec.getLsbD_shiftLeft, BitVec.getLsbD_allOnes, BitVec.getLsbD_ushiftRight]
    by_cases h : i < n
    · simp [h]
    · simp [h, hi, show n + (i - n) = i by omega]; omega
  rw [h]
  simp only [BitVec.toNat_shiftLeft, BitVec.toNat_ushiftRight, Nat.shiftRight_eq_div_pow, Nat.shiftLeft_eq]
  exact Nat.mod_eq_of_lt (lt_of_le_of_lt (Nat.div_mul_le_self ..) c.isLt)

/-- The number of free low bits of an opcode's format (30_encoding.md R81). -/
def Op.payloadBits : Op → Nat
  | .setDims     => 28
  | .setDiameter => 16
  | .loadByte    => 8
  | .loadPixel   => 24
  | .decOk       => 13
  | .nop | .loadReset | .start | .abort | .decFail | .clrErr | .softReset => 0

theorem Op.mask_eq (op : Op) : op.mask = BitVec.allOnes 32 <<< op.payloadBits := by cases op <;> decide

/-- The reserved-bit test as arithmetic. -/
theorem legal_iff (c : Word) (op : Op) :
    c &&& op.mask = op.pattern ↔ c.toNat / 2 ^ op.payloadBits * 2 ^ op.payloadBits = op.pattern.toNat := by
  rw [← BitVec.toNat_inj, Op.mask_eq, and_topMask]

/-- A word that matches a row has the row's opcode. -/
theorem ofCode_of_legal {c : Word} {op : Op} (h : c &&& op.mask = op.pattern) : Op.ofCode (bits c 28 4) = some op := by
  rw [legal_iff] at h
  have hc := c.isLt
  have key : bits c 28 4 = op.pattern.toNat / 2 ^ 28 := by
    rw [bits_eq]
    cases op <;> simp [Op.payloadBits, Op.pattern] at h ⊢ <;> omega
  rw [key]
  cases op <;> rfl

/-- Everything a successful decode says. -/
theorem decode_eq_ok {c : Word} {i : Instr} : decode c = .ok i ↔ ∃ op : Op, c &&& op.mask = op.pattern ∧ i = op.instr c := by
  constructor
  · intro h
    unfold decode at h
    split at h
    · cases h
    · rename_i op _
      split at h
      · exact ⟨op, ‹_›, by cases h; rfl⟩
      · cases h
  · rintro ⟨op, h, rfl⟩
    simp [decode, ofCode_of_legal h, h]

/-- A word that is its opcode's pattern plus a payload below the reserved bits matches its row. -/
theorem legal_of_toNat {c : Word} {op : Op} {p : Nat} (hp : p < 2 ^ op.payloadBits) (h : c.toNat = op.pattern.toNat + p) :
    c &&& op.mask = op.pattern := by
  rw [legal_iff, h]
  cases op <;> simp [Op.payloadBits, Op.pattern] at hp ⊢ <;> omega

/-- The payload of a well-formed command stays below its format's reserved bits. -/
theorem Instr.payload_lt {i : Instr} (h : i.wellFormed = true) : i.payload < 2 ^ i.op.payloadBits := by
  cases i <;> simp [Instr.wellFormed, Instr.payload, Instr.op, Op.payloadBits] at h ⊢ <;> omega

/-- The encoder's word as a number. -/
theorem encode_toNat {i : Instr} (h : i.wellFormed = true) : (encode i).toNat = i.op.pattern.toNat + i.payload := by
  have hp := Instr.payload_lt h
  simp only [encode, BitVec.toNat_ofNat]
  apply Nat.mod_eq_of_lt
  cases i <;> simp [Instr.op, Op.payloadBits, Op.pattern] at hp ⊢ <;> omega

end Sys2Proof
end

