-- ==== Sys2Proof/Laws/State.lean ====
section
/-! SUPPORT. One lemma per field of State for each named update: what the update leaves and what it writes. -/

namespace Sys2Proof.Machine

@[simp] theorem State.raise_w (s : State) (e : Err) : (s.raise e).w = s.w := rfl
@[simp] theorem State.raise_h (s : State) (e : Err) : (s.raise e).h = s.h := rfl
@[simp] theorem State.raise_maxUnit (s : State) (e : Err) : (s.raise e).maxUnit = s.maxUnit := rfl
@[simp] theorem State.raise_bc (s : State) (e : Err) : (s.raise e).bc = s.bc := rfl
@[simp] theorem State.raise_stgR (s : State) (e : Err) : (s.raise e).stgR = s.stgR := rfl
@[simp] theorem State.raise_stgG (s : State) (e : Err) : (s.raise e).stgG = s.stgG := rfl
@[simp] theorem State.raise_loadOvf (s : State) (e : Err) : (s.raise e).loadOvf = s.loadOvf := rfl
@[simp] theorem State.raise_field (s : State) (e : Err) : (s.raise e).field = s.field := rfl
@[simp] theorem State.raise_mem (s : State) (e : Err) : (s.raise e).mem = s.mem := rfl
@[simp] theorem State.raise_phase (s : State) (e : Err) : (s.raise e).phase = s.phase := rfl
@[simp] theorem State.raise_avg (s : State) (e : Err) : (s.raise e).avg = s.avg := rfl
@[simp] theorem State.raise_fsm (s : State) (e : Err) : (s.raise e).fsm = s.fsm := rfl
@[simp] theorem State.raise_b1 (s : State) (e : Err) : (s.raise e).b1 = s.b1 := rfl
@[simp] theorem State.raise_w1 (s : State) (e : Err) : (s.raise e).w1 = s.w1 := rfl
@[simp] theorem State.raise_b2 (s : State) (e : Err) : (s.raise e).b2 = s.b2 := rfl
@[simp] theorem State.raise_ccount (s : State) (e : Err) : (s.raise e).ccount = s.ccount := rfl
@[simp] theorem State.raise_row (s : State) (e : Err) : (s.raise e).row = s.row := rfl
@[simp] theorem State.raise_idx (s : State) (e : Err) : (s.raise e).idx = s.idx := rfl
@[simp] theorem State.raise_reqX (s : State) (e : Err) : (s.raise e).reqX = s.reqX := rfl
@[simp] theorem State.raise_reqY (s : State) (e : Err) : (s.raise e).reqY = s.reqY := rfl
@[simp] theorem State.raise_respX (s : State) (e : Err) : (s.raise e).respX = s.respX := rfl
@[simp] theorem State.raise_respY (s : State) (e : Err) : (s.raise e).respY = s.respY := rfl
@[simp] theorem State.raise_respUnit (s : State) (e : Err) : (s.raise e).respUnit = s.respUnit := rfl
@[simp] theorem State.raise_respOrient (s : State) (e : Err) : (s.raise e).respOrient = s.respOrient := rfl
@[simp] theorem State.raise_syms (s : State) (e : Err) : (s.raise e).syms = s.syms := rfl
@[simp] theorem State.raise_errs (s : State) (e : Err) : (s.raise e).errs = s.errs ||| 1#8 <<< e.bit := rfl
@[simp] theorem State.raise_irqEn (s : State) (e : Err) : (s.raise e).irqEn = s.irqEn := rfl
@[simp] theorem State.raise_params (s : State) (e : Err) : (s.raise e).params = s.params := rfl
@[simp] theorem State.raise_inputs (s : State) (e : Err) : (s.raise e).inputs = s.inputs := rfl
@[simp] theorem State.raise_rdata (s : State) (e : Err) : (s.raise e).rdata = s.rdata := rfl
@[simp] theorem State.raise_epoch (s : State) (e : Err) : (s.raise e).epoch = s.epoch := rfl

@[simp] theorem State.clearErrors_w (s : State) : (s.clearErrors).w = s.w := rfl
@[simp] theorem State.clearErrors_h (s : State) : (s.clearErrors).h = s.h := rfl
@[simp] theorem State.clearErrors_maxUnit (s : State) : (s.clearErrors).maxUnit = s.maxUnit := rfl
@[simp] theorem State.clearErrors_bc (s : State) : (s.clearErrors).bc = s.bc := rfl
@[simp] theorem State.clearErrors_stgR (s : State) : (s.clearErrors).stgR = s.stgR := rfl
@[simp] theorem State.clearErrors_stgG (s : State) : (s.clearErrors).stgG = s.stgG := rfl
@[simp] theorem State.clearErrors_loadOvf (s : State) : (s.clearErrors).loadOvf = s.loadOvf := rfl
@[simp] theorem State.clearErrors_field (s : State) : (s.clearErrors).field = s.field := rfl
@[simp] theorem State.clearErrors_mem (s : State) : (s.clearErrors).mem = s.mem := rfl
@[simp] theorem State.clearErrors_phase (s : State) : (s.clearErrors).phase = s.phase := rfl
@[simp] theorem State.clearErrors_avg (s : State) : (s.clearErrors).avg = s.avg := rfl
@[simp] theorem State.clearErrors_fsm (s : State) : (s.clearErrors).fsm = s.fsm := rfl
@[simp] theorem State.clearErrors_b1 (s : State) : (s.clearErrors).b1 = s.b1 := rfl
@[simp] theorem State.clearErrors_w1 (s : State) : (s.clearErrors).w1 = s.w1 := rfl
@[simp] theorem State.clearErrors_b2 (s : State) : (s.clearErrors).b2 = s.b2 := rfl
@[simp] theorem State.clearErrors_ccount (s : State) : (s.clearErrors).ccount = s.ccount := rfl
@[simp] theorem State.clearErrors_row (s : State) : (s.clearErrors).row = s.row := rfl
@[simp] theorem State.clearErrors_idx (s : State) : (s.clearErrors).idx = s.idx := rfl
@[simp] theorem State.clearErrors_reqX (s : State) : (s.clearErrors).reqX = s.reqX := rfl
@[simp] theorem State.clearErrors_reqY (s : State) : (s.clearErrors).reqY = s.reqY := rfl
@[simp] theorem State.clearErrors_respX (s : State) : (s.clearErrors).respX = s.respX := rfl
@[simp] theorem State.clearErrors_respY (s : State) : (s.clearErrors).respY = s.respY := rfl
@[simp] theorem State.clearErrors_respUnit (s : State) : (s.clearErrors).respUnit = s.respUnit := rfl
@[simp] theorem State.clearErrors_respOrient (s : State) : (s.clearErrors).respOrient = s.respOrient := rfl
@[simp] theorem State.clearErrors_syms (s : State) : (s.clearErrors).syms = s.syms := rfl
@[simp] theorem State.clearErrors_errs (s : State) : (s.clearErrors).errs = 0#8 := rfl
@[simp] theorem State.clearErrors_irqEn (s : State) : (s.clearErrors).irqEn = s.irqEn := rfl
@[simp] theorem State.clearErrors_params (s : State) : (s.clearErrors).params = s.params := rfl
@[simp] theorem State.clearErrors_inputs (s : State) : (s.clearErrors).inputs = s.inputs := rfl
@[simp] theorem State.clearErrors_rdata (s : State) : (s.clearErrors).rdata = s.rdata := rfl
@[simp] theorem State.clearErrors_epoch (s : State) : (s.clearErrors).epoch = s.epoch := rfl

@[simp] theorem State.setPixel_w (s : State) (k : Nat) (v : Word) : (s.setPixel k v).w = s.w := rfl
@[simp] theorem State.setPixel_h (s : State) (k : Nat) (v : Word) : (s.setPixel k v).h = s.h := rfl
@[simp] theorem State.setPixel_maxUnit (s : State) (k : Nat) (v : Word) : (s.setPixel k v).maxUnit = s.maxUnit := rfl
@[simp] theorem State.setPixel_bc (s : State) (k : Nat) (v : Word) : (s.setPixel k v).bc = s.bc := rfl
@[simp] theorem State.setPixel_stgR (s : State) (k : Nat) (v : Word) : (s.setPixel k v).stgR = s.stgR := rfl
@[simp] theorem State.setPixel_stgG (s : State) (k : Nat) (v : Word) : (s.setPixel k v).stgG = s.stgG := rfl
@[simp] theorem State.setPixel_loadOvf (s : State) (k : Nat) (v : Word) : (s.setPixel k v).loadOvf = s.loadOvf := rfl
@[simp] theorem State.setPixel_field (s : State) (k : Nat) (v : Word) : (s.setPixel k v).field = s.field := rfl
@[simp] theorem State.setPixel_phase (s : State) (k : Nat) (v : Word) : (s.setPixel k v).phase = s.phase := rfl
@[simp] theorem State.setPixel_avg (s : State) (k : Nat) (v : Word) : (s.setPixel k v).avg = s.avg := rfl
@[simp] theorem State.setPixel_fsm (s : State) (k : Nat) (v : Word) : (s.setPixel k v).fsm = s.fsm := rfl
@[simp] theorem State.setPixel_b1 (s : State) (k : Nat) (v : Word) : (s.setPixel k v).b1 = s.b1 := rfl
@[simp] theorem State.setPixel_w1 (s : State) (k : Nat) (v : Word) : (s.setPixel k v).w1 = s.w1 := rfl
@[simp] theorem State.setPixel_b2 (s : State) (k : Nat) (v : Word) : (s.setPixel k v).b2 = s.b2 := rfl
@[simp] theorem State.setPixel_ccount (s : State) (k : Nat) (v : Word) : (s.setPixel k v).ccount = s.ccount := rfl
@[simp] theorem State.setPixel_row (s : State) (k : Nat) (v : Word) : (s.setPixel k v).row = s.row := rfl
@[simp] theorem State.setPixel_idx (s : State) (k : Nat) (v : Word) : (s.setPixel k v).idx = s.idx := rfl
@[simp] theorem State.setPixel_reqX (s : State) (k : Nat) (v : Word) : (s.setPixel k v).reqX = s.reqX := rfl
@[simp] theorem State.setPixel_reqY (s : State) (k : Nat) (v : Word) : (s.setPixel k v).reqY = s.reqY := rfl
@[simp] theorem State.setPixel_respX (s : State) (k : Nat) (v : Word) : (s.setPixel k v).respX = s.respX := rfl
@[simp] theorem State.setPixel_respY (s : State) (k : Nat) (v : Word) : (s.setPixel k v).respY = s.respY := rfl
@[simp] theorem State.setPixel_respUnit (s : State) (k : Nat) (v : Word) : (s.setPixel k v).respUnit = s.respUnit := rfl
@[simp] theorem State.setPixel_respOrient (s : State) (k : Nat) (v : Word) : (s.setPixel k v).respOrient = s.respOrient := rfl
@[simp] theorem State.setPixel_syms (s : State) (k : Nat) (v : Word) : (s.setPixel k v).syms = s.syms := rfl
@[simp] theorem State.setPixel_errs (s : State) (k : Nat) (v : Word) : (s.setPixel k v).errs = s.errs := rfl
@[simp] theorem State.setPixel_irqEn (s : State) (k : Nat) (v : Word) : (s.setPixel k v).irqEn = s.irqEn := rfl
@[simp] theorem State.setPixel_params (s : State) (k : Nat) (v : Word) : (s.setPixel k v).params = s.params := rfl
@[simp] theorem State.setPixel_inputs (s : State) (k : Nat) (v : Word) : (s.setPixel k v).inputs = s.inputs := rfl
@[simp] theorem State.setPixel_rdata (s : State) (k : Nat) (v : Word) : (s.setPixel k v).rdata = s.rdata := rfl
@[simp] theorem State.setPixel_epoch (s : State) (k : Nat) (v : Word) : (s.setPixel k v).epoch = s.epoch := rfl

@[simp] theorem State.reenterWhite_w (s : State) : (s.reenterWhite).w = s.w := rfl
@[simp] theorem State.reenterWhite_h (s : State) : (s.reenterWhite).h = s.h := rfl
@[simp] theorem State.reenterWhite_maxUnit (s : State) : (s.reenterWhite).maxUnit = s.maxUnit := rfl
@[simp] theorem State.reenterWhite_bc (s : State) : (s.reenterWhite).bc = s.bc := rfl
@[simp] theorem State.reenterWhite_stgR (s : State) : (s.reenterWhite).stgR = s.stgR := rfl
@[simp] theorem State.reenterWhite_stgG (s : State) : (s.reenterWhite).stgG = s.stgG := rfl
@[simp] theorem State.reenterWhite_loadOvf (s : State) : (s.reenterWhite).loadOvf = s.loadOvf := rfl
@[simp] theorem State.reenterWhite_field (s : State) : (s.reenterWhite).field = s.field := rfl
@[simp] theorem State.reenterWhite_mem (s : State) : (s.reenterWhite).mem = s.mem := rfl
@[simp] theorem State.reenterWhite_phase (s : State) : (s.reenterWhite).phase = s.phase := rfl
@[simp] theorem State.reenterWhite_avg (s : State) : (s.reenterWhite).avg = s.avg := rfl
@[simp] theorem State.reenterWhite_fsm (s : State) : (s.reenterWhite).fsm = Fsm.white := rfl
@[simp] theorem State.reenterWhite_b1 (s : State) : (s.reenterWhite).b1 = s.b2 := rfl
@[simp] theorem State.reenterWhite_w1 (s : State) : (s.reenterWhite).w1 = 1#16 := rfl
@[simp] theorem State.reenterWhite_b2 (s : State) : (s.reenterWhite).b2 = 0#16 := rfl
@[simp] theorem State.reenterWhite_ccount (s : State) : (s.reenterWhite).ccount = s.ccount := rfl
@[simp] theorem State.reenterWhite_row (s : State) : (s.reenterWhite).row = s.row := rfl
@[simp] theorem State.reenterWhite_idx (s : State) : (s.reenterWhite).idx = s.idx := rfl
@[simp] theorem State.reenterWhite_reqX (s : State) : (s.reenterWhite).reqX = s.reqX := rfl
@[simp] theorem State.reenterWhite_reqY (s : State) : (s.reenterWhite).reqY = s.reqY := rfl
@[simp] theorem State.reenterWhite_respX (s : State) : (s.reenterWhite).respX = s.respX := rfl
@[simp] theorem State.reenterWhite_respY (s : State) : (s.reenterWhite).respY = s.respY := rfl
@[simp] theorem State.reenterWhite_respUnit (s : State) : (s.reenterWhite).respUnit = s.respUnit := rfl
@[simp] theorem State.reenterWhite_respOrient (s : State) : (s.reenterWhite).respOrient = s.respOrient := rfl
@[simp] theorem State.reenterWhite_syms (s : State) : (s.reenterWhite).syms = s.syms := rfl
@[simp] theorem State.reenterWhite_errs (s : State) : (s.reenterWhite).errs = s.errs := rfl
@[simp] theorem State.reenterWhite_irqEn (s : State) : (s.reenterWhite).irqEn = s.irqEn := rfl
@[simp] theorem State.reenterWhite_params (s : State) : (s.reenterWhite).params = s.params := rfl
@[simp] theorem State.reenterWhite_inputs (s : State) : (s.reenterWhite).inputs = s.inputs := rfl
@[simp] theorem State.reenterWhite_rdata (s : State) : (s.reenterWhite).rdata = s.rdata := rfl
@[simp] theorem State.reenterWhite_epoch (s : State) : (s.reenterWhite).epoch = s.epoch := rfl

@[simp] theorem State.issueRequest_w (s : State) : (s.issueRequest).w = s.w := rfl
@[simp] theorem State.issueRequest_h (s : State) : (s.issueRequest).h = s.h := rfl
@[simp] theorem State.issueRequest_maxUnit (s : State) : (s.issueRequest).maxUnit = s.maxUnit := rfl
@[simp] theorem State.issueRequest_bc (s : State) : (s.issueRequest).bc = s.bc := rfl
@[simp] theorem State.issueRequest_stgR (s : State) : (s.issueRequest).stgR = s.stgR := rfl
@[simp] theorem State.issueRequest_stgG (s : State) : (s.issueRequest).stgG = s.stgG := rfl
@[simp] theorem State.issueRequest_loadOvf (s : State) : (s.issueRequest).loadOvf = s.loadOvf := rfl
@[simp] theorem State.issueRequest_field (s : State) : (s.issueRequest).field = s.field := rfl
@[simp] theorem State.issueRequest_mem (s : State) : (s.issueRequest).mem = s.mem := rfl
@[simp] theorem State.issueRequest_phase (s : State) : (s.issueRequest).phase = Phase.waitDec := rfl
@[simp] theorem State.issueRequest_avg (s : State) : (s.issueRequest).avg = s.avg := rfl
@[simp] theorem State.issueRequest_fsm (s : State) : (s.issueRequest).fsm = s.fsm := rfl
@[simp] theorem State.issueRequest_b1 (s : State) : (s.issueRequest).b1 = s.b1 := rfl
@[simp] theorem State.issueRequest_w1 (s : State) : (s.issueRequest).w1 = s.w1 := rfl
@[simp] theorem State.issueRequest_b2 (s : State) : (s.issueRequest).b2 = s.b2 := rfl
@[simp] theorem State.issueRequest_ccount (s : State) : (s.issueRequest).ccount = s.ccount := rfl
@[simp] theorem State.issueRequest_row (s : State) : (s.issueRequest).row = s.row := rfl
@[simp] theorem State.issueRequest_idx (s : State) : (s.issueRequest).idx = s.idx := rfl
@[simp] theorem State.issueRequest_reqX (s : State) : (s.issueRequest).reqX = s.idx := rfl
@[simp] theorem State.issueRequest_reqY (s : State) : (s.issueRequest).reqY = s.row := rfl
@[simp] theorem State.issueRequest_respX (s : State) : (s.issueRequest).respX = s.respX := rfl
@[simp] theorem State.issueRequest_respY (s : State) : (s.issueRequest).respY = s.respY := rfl
@[simp] theorem State.issueRequest_respUnit (s : State) : (s.issueRequest).respUnit = s.respUnit := rfl
@[simp] theorem State.issueRequest_respOrient (s : State) : (s.issueRequest).respOrient = s.respOrient := rfl
@[simp] theorem State.issueRequest_syms (s : State) : (s.issueRequest).syms = s.syms := rfl
@[simp] theorem State.issueRequest_errs (s : State) : (s.issueRequest).errs = s.errs := rfl
@[simp] theorem State.issueRequest_irqEn (s : State) : (s.issueRequest).irqEn = s.irqEn := rfl
@[simp] theorem State.issueRequest_params (s : State) : (s.issueRequest).params = s.params := rfl
@[simp] theorem State.issueRequest_inputs (s : State) : (s.issueRequest).inputs = s.inputs := rfl
@[simp] theorem State.issueRequest_rdata (s : State) : (s.issueRequest).rdata = s.rdata := rfl
@[simp] theorem State.issueRequest_epoch (s : State) : (s.issueRequest).epoch = s.epoch := rfl

@[simp] theorem State.hardwareReset_w (s : State) : (s.hardwareReset).w = 0 := rfl
@[simp] theorem State.hardwareReset_h (s : State) : (s.hardwareReset).h = 0 := rfl
@[simp] theorem State.hardwareReset_maxUnit (s : State) : (s.hardwareReset).maxUnit = 80#16 := rfl
@[simp] theorem State.hardwareReset_bc (s : State) : (s.hardwareReset).bc = 0 := rfl
@[simp] theorem State.hardwareReset_stgR (s : State) : (s.hardwareReset).stgR = 0 := rfl
@[simp] theorem State.hardwareReset_stgG (s : State) : (s.hardwareReset).stgG = 0 := rfl
@[simp] theorem State.hardwareReset_loadOvf (s : State) : (s.hardwareReset).loadOvf = false := rfl
@[simp] theorem State.hardwareReset_field (s : State) : (s.hardwareReset).field = Field.none := rfl
@[simp] theorem State.hardwareReset_mem (s : State) : (s.hardwareReset).mem = [] := rfl
@[simp] theorem State.hardwareReset_phase (s : State) : (s.hardwareReset).phase = Phase.idle := rfl
@[simp] theorem State.hardwareReset_avg (s : State) : (s.hardwareReset).avg = 0 := rfl
@[simp] theorem State.hardwareReset_fsm (s : State) : (s.hardwareReset).fsm = Fsm.seek := rfl
@[simp] theorem State.hardwareReset_b1 (s : State) : (s.hardwareReset).b1 = 0 := rfl
@[simp] theorem State.hardwareReset_w1 (s : State) : (s.hardwareReset).w1 = 0 := rfl
@[simp] theorem State.hardwareReset_b2 (s : State) : (s.hardwareReset).b2 = 0 := rfl
@[simp] theorem State.hardwareReset_ccount (s : State) : (s.hardwareReset).ccount = 0 := rfl
@[simp] theorem State.hardwareReset_row (s : State) : (s.hardwareReset).row = 0 := rfl
@[simp] theorem State.hardwareReset_idx (s : State) : (s.hardwareReset).idx = 0 := rfl
@[simp] theorem State.hardwareReset_reqX (s : State) : (s.hardwareReset).reqX = 0 := rfl
@[simp] theorem State.hardwareReset_reqY (s : State) : (s.hardwareReset).reqY = 0 := rfl
@[simp] theorem State.hardwareReset_respX (s : State) : (s.hardwareReset).respX = 0 := rfl
@[simp] theorem State.hardwareReset_respY (s : State) : (s.hardwareReset).respY = 0 := rfl
@[simp] theorem State.hardwareReset_respUnit (s : State) : (s.hardwareReset).respUnit = 0 := rfl
@[simp] theorem State.hardwareReset_respOrient (s : State) : (s.hardwareReset).respOrient = 0 := rfl
@[simp] theorem State.hardwareReset_syms (s : State) : (s.hardwareReset).syms = [] := rfl
@[simp] theorem State.hardwareReset_errs (s : State) : (s.hardwareReset).errs = 0 := rfl
@[simp] theorem State.hardwareReset_irqEn (s : State) : (s.hardwareReset).irqEn = 0 := rfl
@[simp] theorem State.hardwareReset_params (s : State) : (s.hardwareReset).params = s.params := rfl
@[simp] theorem State.hardwareReset_inputs (s : State) : (s.hardwareReset).inputs = s.inputs := rfl
@[simp] theorem State.hardwareReset_rdata (s : State) : (s.hardwareReset).rdata = s.rdata := rfl
@[simp] theorem State.hardwareReset_epoch (s : State) : (s.hardwareReset).epoch = s.epoch + 1 := rfl

@[simp] theorem State.softReset_w (s : State) : (s.softReset).w = 0 := rfl
@[simp] theorem State.softReset_h (s : State) : (s.softReset).h = 0 := rfl
@[simp] theorem State.softReset_maxUnit (s : State) : (s.softReset).maxUnit = 80#16 := rfl
@[simp] theorem State.softReset_bc (s : State) : (s.softReset).bc = 0 := rfl
@[simp] theorem State.softReset_stgR (s : State) : (s.softReset).stgR = 0 := rfl
@[simp] theorem State.softReset_stgG (s : State) : (s.softReset).stgG = 0 := rfl
@[simp] theorem State.softReset_loadOvf (s : State) : (s.softReset).loadOvf = false := rfl
@[simp] theorem State.softReset_field (s : State) : (s.softReset).field = Field.none := rfl
@[simp] theorem State.softReset_mem (s : State) : (s.softReset).mem = s.mem := rfl
@[simp] theorem State.softReset_phase (s : State) : (s.softReset).phase = Phase.idle := rfl
@[simp] theorem State.softReset_avg (s : State) : (s.softReset).avg = 0 := rfl
@[simp] theorem State.softReset_fsm (s : State) : (s.softReset).fsm = Fsm.seek := rfl
@[simp] theorem State.softReset_b1 (s : State) : (s.softReset).b1 = 0 := rfl
@[simp] theorem State.softReset_w1 (s : State) : (s.softReset).w1 = 0 := rfl
@[simp] theorem State.softReset_b2 (s : State) : (s.softReset).b2 = 0 := rfl
@[simp] theorem State.softReset_ccount (s : State) : (s.softReset).ccount = 0 := rfl
@[simp] theorem State.softReset_row (s : State) : (s.softReset).row = 0 := rfl
@[simp] theorem State.softReset_idx (s : State) : (s.softReset).idx = 0 := rfl
@[simp] theorem State.softReset_reqX (s : State) : (s.softReset).reqX = 0 := rfl
@[simp] theorem State.softReset_reqY (s : State) : (s.softReset).reqY = 0 := rfl
@[simp] theorem State.softReset_respX (s : State) : (s.softReset).respX = 0 := rfl
@[simp] theorem State.softReset_respY (s : State) : (s.softReset).respY = 0 := rfl
@[simp] theorem State.softReset_respUnit (s : State) : (s.softReset).respUnit = 0 := rfl
@[simp] theorem State.softReset_respOrient (s : State) : (s.softReset).respOrient = 0 := rfl
@[simp] theorem State.softReset_syms (s : State) : (s.softReset).syms = [] := rfl
@[simp] theorem State.softReset_errs (s : State) : (s.softReset).errs = 0 := rfl
@[simp] theorem State.softReset_irqEn (s : State) : (s.softReset).irqEn = 0 := rfl
@[simp] theorem State.softReset_params (s : State) : (s.softReset).params = s.params := rfl
@[simp] theorem State.softReset_inputs (s : State) : (s.softReset).inputs = s.inputs := rfl
@[simp] theorem State.softReset_rdata (s : State) : (s.softReset).rdata = s.rdata := rfl
@[simp] theorem State.softReset_epoch (s : State) : (s.softReset).epoch = s.epoch := rfl

end Sys2Proof.Machine
end

