-- ==== Sys2Proof/Laws/Memory.lean ====
section
/-! SUPPORT. Pixel memory: every operation keeps the canonical form; a read after a write to the same place gives the value written, a
write leaves every other place alone. -/

namespace Sys2Proof.Machine

namespace Memory

theorem wf_iff (m : Memory) : wf m = true ↔ m.Pairwise fun c d => c.1 < d.1 := by simp [wf]

theorem wf_nil : wf [] = true := rfl

@[simp] theorem lookup_nil (a : Nat) : lookup [] a = none := rfl

theorem lookup_write (m : Memory) (a b : Nat) (v : Byte) :
    (m.write a v).lookup b = if b = a then some v else m.lookup b := by
  induction m with
  | nil => rfl
  | cons c m ih =>
    obtain ⟨k, x⟩ := c
    simp only [write]
    split
    · simp only [lookup]
    · split
      · subst_vars
        simp only [lookup]
        split <;> rfl
      · simp only [lookup, ih]
        split <;> split <;> first | rfl | omega

@[simp] theorem lookup_write_same (m : Memory) (a : Nat) (v : Byte) : (m.write a v).lookup a = some v := by
  simp [lookup_write]

theorem lookup_write_ne (m : Memory) {a b : Nat} (v : Byte) (h : b ≠ a) : (m.write a v).lookup b = m.lookup b := by
  simp [lookup_write, h]

theorem mem_write {m : Memory} {a : Nat} {v : Byte} {c : Host.Cell} (h : c ∈ m.write a v) : c = (a, v) ∨ c ∈ m := by
  induction m with
  | nil => simpa [write] using h
  | cons d m ih =>
    obtain ⟨k, x⟩ := d
    simp only [write] at h
    split at h
    · simpa using h
    · split at h
      · rcases List.mem_cons.mp h with h | h
        · exact .inl h
        · exact .inr (List.mem_cons_of_mem _ h)
      · rcases List.mem_cons.mp h with h | h
        · exact .inr (h ▸ List.mem_cons_self ..)
        · exact (ih h).imp_right (List.mem_cons_of_mem _)

/-- A write keeps the canonical form. -/
theorem write_wf {m : Memory} (h : wf m = true) (a : Nat) (v : Byte) : wf (m.write a v) = true := by
  rw [wf_iff] at h ⊢
  induction m with
  | nil => simp [write]
  | cons d m ih =>
    obtain ⟨k, x⟩ := d
    obtain ⟨hd, hm⟩ := List.pairwise_cons.mp h
    simp only [write]
    split
    · refine List.pairwise_cons.mpr ⟨fun c hc => ?_, h⟩
      rcases List.mem_cons.mp hc with rfl | hc
      · assumption
      · have := hd c hc; simp only at this ⊢; omega
    · split
      · subst_vars; exact List.pairwise_cons.mpr ⟨hd, hm⟩
      · refine List.pairwise_cons.mpr ⟨fun c hc => ?_, ih hm⟩
        rcases mem_write hc with rfl | hc
        · simp only; omega
        · exact hd c hc

/-- Equal contents are equal data: two canonical memories that hold the same written bytes are the same list. -/
theorem lookup_eq_some {m : Memory} (h : wf m = true) (a : Nat) (v : Byte) : m.lookup a = some v ↔ (a, v) ∈ m := by
  rw [wf_iff] at h
  induction m with
  | nil => simp
  | cons d m ih =>
    obtain ⟨k, x⟩ := d
    obtain ⟨hd, hm⟩ := List.pairwise_cons.mp h
    simp only [lookup, List.mem_cons, Prod.mk.injEq]
    split
    · subst_vars
      simp only [Option.some.injEq, true_and]
      constructor
      · exact fun e => .inl e.symm
      · rintro (e | e)
        · exact e.symm
        · exact absurd (hd _ e) (by simp)
    · simp [ih hm, *]

end Memory

/-! ### Words -/

/-- Which byte of a stored word stands at an address, if any does. -/
theorem State.lookup_setPixel (s : State) (k : Nat) (v : Word) (a : Nat) :
    (s.setPixel k v).mem.lookup a = if a / 4 = k then some (v.extractLsb' (8 * (a % 4)) 8) else s.mem.lookup a := by
  simp only [State.setPixel, Memory.lookup_write]
  by_cases h : a / 4 = k
  · obtain ⟨r, hr, rfl⟩ : ∃ r, r < 4 ∧ a = 4 * k + r := ⟨a % 4, by omega, by omega⟩
    rw [if_pos h, show (4 * k + r) % 4 = r by omega]
    interval_cases r <;> simp
  · rw [if_neg h]
    repeat rw [if_neg (by omega)]

theorem State.readByte_setPixel (s : State) (k : Nat) (v : Word) (a : Nat) :
    (s.setPixel k v).readByte a = if a / 4 = k then v.extractLsb' (8 * (a % 4)) 8 else s.readByte a := by
  rw [State.readByte, State.lookup_setPixel]
  split <;> rfl

theorem append_bytes (v : Word) :
    v.extractLsb' 24 8 ++ v.extractLsb' 16 8 ++ v.extractLsb' 8 8 ++ v.extractLsb' 0 8 = v := by
  apply BitVec.eq_of_getLsbD_eq
  intro i hi
  simp only [BitVec.getLsbD_append, BitVec.getLsbD_extractLsb']
  interval_cases i <;> simp

@[simp] theorem State.pixel_setPixel_same (s : State) (k : Nat) (v : Word) : (s.setPixel k v).pixel k = v := by
  simp only [State.pixel, State.readByte_setPixel]
  simp only [show (4 * k + 3) / 4 = k by omega, show (4 * k + 2) / 4 = k by omega, show (4 * k + 1) / 4 = k by omega,
    show 4 * k / 4 = k by omega, if_true, show (4 * k + 3) % 4 = 3 by omega, show (4 * k + 2) % 4 = 2 by omega,
    show (4 * k + 1) % 4 = 1 by omega, show 4 * k % 4 = 0 by omega]
  exact append_bytes v

theorem State.pixel_setPixel_ne (s : State) {j k : Nat} (v : Word) (h : j ≠ k) : (s.setPixel k v).pixel j = s.pixel j := by
  simp only [State.pixel, State.readByte_setPixel]
  simp only [show (4 * j + 3) / 4 = j by omega, show (4 * j + 2) / 4 = j by omega, show (4 * j + 1) / 4 = j by omega,
    show 4 * j / 4 = j by omega, if_neg h]

theorem State.pixel_setPixel (s : State) (j k : Nat) (v : Word) :
    (s.setPixel k v).pixel j = if j = k then v else s.pixel j := by
  split
  · subst_vars; simp
  · exact s.pixel_setPixel_ne v ‹_›

theorem State.readByte_setPixel_ne (s : State) {a k : Nat} (v : Word) (h : a / 4 ≠ k) :
    (s.setPixel k v).readByte a = s.readByte a := by simp [State.readByte_setPixel, h]

theorem State.written_setPixel (s : State) (j k : Nat) (v : Word) :
    (s.setPixel k v).written j = (decide (j = k) || s.written j) := by
  simp only [State.written, State.lookup_setPixel]
  simp only [show (4 * j + 3) / 4 = j by omega, show (4 * j + 2) / 4 = j by omega, show (4 * j + 1) / 4 = j by omega,
    show 4 * j / 4 = j by omega]
  by_cases h : j = k <;> simp [h]

/-- Storing a word keeps the canonical form. -/
theorem State.setPixel_wf {s : State} (h : s.mem.wf = true) (k : Nat) (v : Word) : (s.setPixel k v).mem.wf = true :=
  Memory.write_wf (Memory.write_wf (Memory.write_wf (Memory.write_wf h _ _) _ _) _ _) _ _

/-- Storing a word inside pixel memory stores no byte outside it. -/
theorem State.setPixel_bound {s : State} {n : Nat} (h : ∀ c ∈ s.mem, c.1 < 4 * n) {k : Nat} (hk : k < n) (v : Word) :
    ∀ c ∈ (s.setPixel k v).mem, c.1 < 4 * n := by
  intro c hc
  rcases Memory.mem_write hc with rfl | hc
  · simp only; omega
  rcases Memory.mem_write hc with rfl | hc
  · simp only; omega
  rcases Memory.mem_write hc with rfl | hc
  · simp only; omega
  rcases Memory.mem_write hc with rfl | hc
  · simp only; omega
  exact h c hc

/-- A written word does not depend on the free values: its bytes are in memory. -/
theorem State.pixel_congr {s t : State} {k : Nat} (hm : s.mem = t.mem) (hw : s.written k = true) : s.pixel k = t.pixel k := by
  simp only [State.written, Bool.and_eq_true, Option.isSome_iff_exists] at hw
  obtain ⟨⟨⟨⟨a, ha⟩, ⟨b, hb⟩⟩, ⟨c, hc⟩⟩, ⟨d, hd⟩⟩ := hw
  simp only [State.pixel, State.readByte, ← hm, ha, hb, hc, hd, Option.getD_some]

/-! ### Integer indices -/

theorem State.pixelIndex_eq_some {s : State} {k : Int} {n : Nat} :
    s.pixelIndex k = some n ↔ k = n ∧ n < s.params.maxPixels := by
  simp only [State.pixelIndex]
  split
  · simp only [Option.some.injEq]; omega
  · simp only [reduceCtorEq, false_iff, not_and]; omega

theorem State.pixelIndex_of_nat {s : State} {n : Nat} (h : n < s.params.maxPixels) : s.pixelIndex (n : Int) = some n :=
  State.pixelIndex_eq_some.mpr ⟨rfl, h⟩

/-- Everything `loadPixel?` can do. -/
theorem State.loadPixel?_eq_some {s : State} {k : Int} {v : Word} :
    s.loadPixel? k = some v ↔ ∃ n : Nat, k = n ∧ n < s.params.maxPixels ∧ v = s.pixel n := by
  simp only [State.loadPixel?, Option.map_eq_some_iff, State.pixelIndex_eq_some]
  exact ⟨fun ⟨n, ⟨h1, h2⟩, h3⟩ => ⟨n, h1, h2, h3.symm⟩, fun ⟨n, h1, h2, h3⟩ => ⟨n, ⟨h1, h2⟩, h3.symm⟩⟩

theorem State.loadPixel?_of_nat {s : State} {n : Nat} (h : n < s.params.maxPixels) : s.loadPixel? (n : Int) = some (s.pixel n) :=
  State.loadPixel?_eq_some.mpr ⟨n, rfl, h, rfl⟩

/-- Everything `storePixel?` can do. -/
theorem State.storePixel?_eq_some {s t : State} {k : Int} {v : Word} :
    s.storePixel? k v = some t ↔ ∃ n : Nat, k = n ∧ n < s.params.maxPixels ∧ t = s.setPixel n v := by
  simp only [State.storePixel?, Option.map_eq_some_iff, State.pixelIndex_eq_some]
  exact ⟨fun ⟨n, ⟨h1, h2⟩, h3⟩ => ⟨n, h1, h2, h3.symm⟩, fun ⟨n, h1, h2, h3⟩ => ⟨n, ⟨h1, h2⟩, h3.symm⟩⟩

theorem State.storePixel?_of_nat {s : State} {n : Nat} (v : Word) (h : n < s.params.maxPixels) :
    s.storePixel? (n : Int) v = some (s.setPixel n v) :=
  State.storePixel?_eq_some.mpr ⟨n, rfl, h, rfl⟩

end Sys2Proof.Machine
end

