-- ==== Sys2Proof/Laws/Ops.lean ====
section
/-! SUPPORT. What the shared operations can do: outcomes, errors, and the flag writes. -/

namespace Sys2Proof.Machine

/-! ### Outcomes -/

@[simp] theorem outcomeOf_some (t : State) : outcomeOf (some t) = .next t := rfl

@[simp] theorem outcomeOf_none : outcomeOf none = .fault .pixelRange := rfl

@[simp] theorem outcomeOf_eq_next {o : Option State} {t : State} : outcomeOf o = .next t ↔ o = some t := by
  cases o <;> simp

@[simp] theorem andThen_next (t : State) (f : State → Host.Outcome State Fault Refusal) : andThen (.next t) f = f t := rfl

theorem andThen_outcomeOf (o : Option State) (f : State → Option State) :
    andThen (outcomeOf o) (fun t => outcomeOf (f t)) = outcomeOf (o.bind f) := by cases o <;> rfl

/-! ### Errors -/

/-- Raising an error sets its bit and no other. -/
theorem State.err_raise (s : State) (e f : Err) : (s.raise e).err f = (decide (f = e) || s.err f) := by
  cases e <;> cases f <;> simp [State.err, State.raise, Err.bit]

@[simp] theorem State.err_clearErrors (s : State) (e : Err) : s.clearErrors.err e = false := by
  simp [State.err, State.clearErrors]

@[simp] theorem State.busy_raise (s : State) (e : Err) : (s.raise e).busy = s.busy := rfl

@[simp] theorem State.readByte_raise (s : State) (e : Err) (a : Nat) : (s.raise e).readByte a = s.readByte a := rfl

@[simp] theorem State.pixel_raise (s : State) (e : Err) (k : Nat) : (s.raise e).pixel k = s.pixel k := rfl

theorem State.busy_iff (s : State) : s.busy = true ↔ s.phase = .thresh ∨ s.phase = .detect ∨ s.phase = .waitDec := by
  unfold State.busy; cases s.phase <;> simp [Phase.busy]

theorem State.not_busy_iff (s : State) : s.busy = false ↔ s.phase = .idle ∨ s.phase = .done := by
  unfold State.busy; cases s.phase <;> simp [Phase.busy]

/-! ### Flag writes -/

/-- One flag write inside the memory. -/
theorem State.flagWord?_of_nat {s : State} {n : Nat} (h : n < s.params.maxPixels) :
    s.flagWord? (n : Int) = some (s.setPixel n (setFlag (s.pixel n))) := by
  simp [State.flagWord?, State.loadPixel?_of_nat h, State.storePixel?_of_nat _ h]

/-- The state after a flag window centred on word `c`. -/
def State.windowFlagged (s : State) (c : Nat) : State :=
  ((s.setPixel (c - 1) (setFlag (s.pixel (c - 1)))).setPixel c (setFlag (s.pixel c))).setPixel (c + 1) (setFlag (s.pixel (c + 1)))

/-- A flag window inside the memory. -/
theorem State.flagWindow?_of_nat {s : State} {c : Nat} (h1 : 1 ≤ c) (h2 : c + 1 < s.params.maxPixels) :
    s.flagWindow? (c : Int) = some (s.windowFlagged c) := by
  have e1 : (c : Int) - 1 = ((c - 1 : Nat) : Int) := by omega
  have e2 : (c : Int) + 1 = ((c + 1 : Nat) : Int) := by omega
  simp only [State.flagWindow?, e1, e2]
  rw [State.flagWord?_of_nat (by omega), Option.bind_some, State.flagWord?_of_nat (by simp; omega), Option.bind_some,
    State.flagWord?_of_nat (by simpa using h2)]
  rw [State.pixel_setPixel_ne _ _ (show c ≠ c - 1 by omega), State.pixel_setPixel_ne _ _ (show c + 1 ≠ c by omega),
    State.pixel_setPixel_ne _ _ (show c + 1 ≠ c - 1 by omega)]
  rfl

/-- What a flag window changes: bit 25 of its three words. -/
theorem State.pixel_windowFlagged {s : State} {c : Nat} (h1 : 1 ≤ c) (k : Nat) :
    (s.windowFlagged c).pixel k = if k = c - 1 ∨ k = c ∨ k = c + 1 then setFlag (s.pixel k) else s.pixel k := by
  simp only [State.windowFlagged, State.pixel_setPixel]
  split_ifs with h2 h3 h4 h5 h5 h5 <;> first
    | rfl
    | (subst_vars; rfl)
    | omega

theorem State.windowFlagged_written {s : State} {c k : Nat} (h : s.written k = true) : (s.windowFlagged c).written k = true := by
  simp [State.windowFlagged, State.written_setPixel, h]

theorem State.windowFlagged_wf {s : State} {c : Nat} (h : s.mem.wf = true) : (s.windowFlagged c).mem.wf = true :=
  State.setPixel_wf (State.setPixel_wf (State.setPixel_wf h _ _) _ _) _ _

theorem State.windowFlagged_bound {s : State} {n c : Nat} (h : ∀ b ∈ s.mem, b.1 < 4 * n) (hc : c + 1 < n) :
    ∀ b ∈ (s.windowFlagged c).mem, b.1 < 4 * n :=
  State.setPixel_bound (State.setPixel_bound (State.setPixel_bound h (by omega) _) (by omega) _) (by omega) _

/-- A flag window changes memory only. -/
theorem State.windowFlagged_eq (s : State) (c : Nat) : s.windowFlagged c = { s with mem := (s.windowFlagged c).mem } := rfl

end Sys2Proof.Machine
end

