-- ==== Sys2Proof/Laws/Bus.lean ====
section
/-! SUPPORT. The address map, the bus transactions and the command words, said once. -/

namespace Sys2Proof.Machine

/-! ### The address map (20_memory.md R71) -/

/-- Every pair of the register map: its offset finds its register, is aligned, and lies below 0x58 (10_state.md R37). -/
theorem regMap_mem : ∀ c ∈ regMap, regMap.lookup c.1 = some c.2 ∧ c.1 % 4 = 0 ∧ c.1 < 0x58 := by decide

/-- A register that is not read-only has one of the six writable offsets (10_state.md R37). -/
theorem regMap_writable : ∀ c ∈ regMap, c.2.access = .ro ∨ c.1 ∈ [0x004, 0x024, 0x028, 0x02C, 0x030, 0x034] := by decide

/-- A write at a read-only register raises ERR_BUS and changes nothing else (43_control.md R197). -/
theorem writeReg_ro {r : Reg} (h : r.access = .ro) (v : Word) (s : State) : writeReg r v s = .next (s.raise .bus) := by
  cases r <;> first
    | rfl
    | cases h

/-- The register offsets name their registers, whatever the parameters. -/
theorem target_reg {p : Params} {off : Nat} {r : Reg} (h : (off, r) ∈ regMap) : target p (BitVec.ofNat 32 off) = some (.reg r) := by
  obtain ⟨hl, ha, h1⟩ := regMap_mem _ h
  have hn : (BitVec.ofNat 32 off).toNat = off := by rw [BitVec.toNat_ofNat]; omega
  simp only [target, hn]
  rw [if_neg (by omega), if_neg (by omega), if_neg (by omega), hl]
  rfl

theorem target_symtab {p : Params} {off : BitVec 32} (h4 : off.toNat % 4 = 0) (h1 : 0x1000 ≤ off.toNat) (h2 : off.toNat ≤ 0x1FFF) :
    target p off = some (.symtab ((off.toNat - 0x1000) / 0x20) ((off.toNat - 0x1000) % 0x20 / 4)) := by
  simp only [target]
  rw [if_neg (by omega), if_pos ⟨h1, h2⟩]

theorem target_pixel {p : Params} {off : BitVec 32} (h4 : off.toNat % 4 = 0) (h1 : 0x04000000 ≤ off.toNat)
    (h2 : off.toNat < 0x04000000 + 4 * p.maxPixels) : target p off = some (.pixel ((off.toNat - 0x04000000) / 4)) := by
  simp only [target]
  rw [if_neg (by omega), if_neg (by omega), if_pos ⟨h1, h2⟩]

/-- A register target has the offset of the register map. -/
theorem mem_regMap_of_target {p : Params} {off : BitVec 32} {r : Reg} (h : target p off = some (.reg r)) :
    (off.toNat, r) ∈ regMap := by
  simp only [target] at h
  have h' : regMap.lookup off.toNat = some r := by
    split_ifs at h with h1 h2 h3
    · simp at h
    · simp at h
    · cases hl : regMap.lookup off.toNat with
      | none => rw [hl] at h; simp at h
      | some r' => rw [hl] at h; simpa using h
  have key : ∀ l : List (Nat × Reg), l.lookup off.toNat = some r → (off.toNat, r) ∈ l := by
    intro l
    induction l with
    | nil => simp
    | cons c l ih =>
      obtain ⟨k, x⟩ := c
      intro hl
      rw [List.lookup_cons] at hl
      split at hl
      · rename_i e; simp at e hl; subst hl; subst e; exact List.mem_cons_self ..
      · exact List.mem_cons_of_mem _ (ih hl)
  exact key _ h'

/-- The mapped offsets (20_memory.md R68, R71). -/
theorem target_isSome_iff {p : Params} {off : BitVec 32} (hp : 1 ≤ p.maxPixels) :
    (target p off).isSome = true ↔ off.toNat % 4 = 0 ∧ (off.toNat ≤ 0x57 ∨ (0x1000 ≤ off.toNat ∧ off.toNat ≤ 0x1FFF) ∨
      (0x04000000 ≤ off.toNat ∧ off.toNat ≤ 0x04000000 + 4 * p.maxPixels - 1)) := by
  constructor
  · intro h
    obtain ⟨x, hx⟩ := Option.isSome_iff_exists.mp h
    cases x with
    | reg r =>
      have := mem_regMap_of_target hx
      simp only [regMap, List.mem_cons, List.not_mem_nil, or_false, Prod.mk.injEq] at this
      omega
    | symtab i j =>
      simp only [target] at hx
      split_ifs at hx <;> first | omega | simp at hx
    | pixel k =>
      simp only [target] at hx
      split_ifs at hx <;> first | omega | simp at hx
  · rintro ⟨h4, h1 | h1 | h1⟩
    · have : ∃ r, (off.toNat, r) ∈ regMap := by
        generalize off.toNat = n at *
        interval_cases n <;> first | omega | exact ⟨_, by simp [regMap]; rfl⟩
      obtain ⟨r, hr⟩ := this
      have := target_reg (p := p) hr
      rw [BitVec.ofNat_toNat, BitVec.setWidth_eq] at this
      simp [this]
    · simp [target_symtab h4 h1.1 h1.2]
    · simp [target_pixel h4 h1.1 (by omega : off.toNat < 0x04000000 + 4 * p.maxPixels)]

/-! ### Writes (43_control.md R195 to R197) -/

/-- Everything a bus write can do: execute a word at CMD, store in an RW register, or raise ERR_BUS and nothing else. -/
theorem busWrite_cases (off : BitVec 32) (v : Word) (s : State) :
    (off = 0x004#32 ∧ busWrite off v s = execWord v s) ∨ (off = 0x024#32 ∧ busWrite off v s = .next { s with respX := v }) ∨
    (off = 0x028#32 ∧ busWrite off v s = .next { s with respY := v }) ∨
    (off = 0x02C#32 ∧ busWrite off v s = .next { s with respUnit := v }) ∨
    (off = 0x030#32 ∧ busWrite off v s = .next { s with respOrient := v }) ∨
    (off = 0x034#32 ∧ busWrite off v s = .next { s with irqEn := v.extractLsb' 0 3 }) ∨
    (off ∉ [0x004#32, 0x024#32, 0x028#32, 0x02C#32, 0x030#32, 0x034#32] ∧ busWrite off v s = .next (s.raise .bus)) := by
  by_cases hin : off ∈ [0x004#32, 0x024#32, 0x028#32, 0x02C#32, 0x030#32, 0x034#32]
  · simp only [List.mem_cons, List.not_mem_nil, or_false] at hin
    rcases hin with rfl | rfl | rfl | rfl | rfl | rfl
    · exact .inl ⟨rfl, rfl⟩
    · exact .inr (.inl ⟨rfl, rfl⟩)
    · exact .inr (.inr (.inl ⟨rfl, rfl⟩))
    · exact .inr (.inr (.inr (.inl ⟨rfl, rfl⟩)))
    · exact .inr (.inr (.inr (.inr (.inl ⟨rfl, rfl⟩))))
    · exact .inr (.inr (.inr (.inr (.inr (.inl ⟨rfl, rfl⟩)))))
  · refine .inr (.inr (.inr (.inr (.inr (.inr ⟨hin, ?_⟩)))))
    unfold busWrite
    split
    · rename_i r hr
      refine writeReg_ro ((regMap_writable _ (mem_regMap_of_target hr)).resolve_right fun ho => hin ?_) v s
      rw [show off = BitVec.ofNat 32 off.toNat by simp]
      exact List.mem_map_of_mem (f := BitVec.ofNat 32) ho
    · rfl
    · rfl
    · rfl

/-- A word executes as the command it decodes to, or raises ERR_ILLEGAL and nothing else. -/
theorem execWord_cases (c : Word) (s : State) :
    (∃ i : Instr, decode c = .ok i ∧ execWord c s = exec i s) ∨
    (∃ r : Reject, decode c = .error r ∧ execWord c s = .next (s.raise .illegal)) := by
  unfold execWord
  cases h : decode c with
  | ok i => exact .inl ⟨i, rfl, rfl⟩
  | error r => exact .inr ⟨r, rfl, rfl⟩

/-! ### One step, said once -/

/-- Everything a step can do. -/
theorem step_cases (s : State) :
    (s.inputs = [] ∧ step s = coreStep s) ∨
    (∃ rest, s.inputs = .core :: rest ∧ step s = coreStep { s with inputs := rest }) ∨
    (∃ rest, s.inputs = .reset :: rest ∧ step s = .next (State.hardwareReset { s with inputs := rest })) ∨
    (∃ rest off, s.inputs = .read off :: rest ∧ step s = .next (busRead off { s with inputs := rest })) ∨
    (∃ rest off v, s.inputs = .write off v :: rest ∧ step s = busWrite off v { s with inputs := rest }) := by
  unfold step
  split
  · exact .inl ⟨‹_›, rfl⟩
  · rename_i e rest he
    cases e with
    | core => exact .inr (.inl ⟨rest, he, rfl⟩)
    | reset => exact .inr (.inr (.inl ⟨rest, he, rfl⟩))
    | read off => exact .inr (.inr (.inr (.inl ⟨rest, off, he, rfl⟩)))
    | write off v => exact .inr (.inr (.inr (.inr ⟨rest, off, v, he, rfl⟩)))

theorem step_write {s : State} {rest : List Input} {off : BitVec 32} {v : Word} (h : s.inputs = .write off v :: rest) :
    step s = busWrite off v { s with inputs := rest } := by unfold step; rw [h]; rfl

end Sys2Proof.Machine
end

