-- ==== Sys2Proof/Laws/Detect.lean ====
section
/-! SUPPORT. What one detect step does from a state that meets the invariant, and what the advance does. -/

namespace Sys2Proof.Machine

/-- The flag of pixel `(x, y)`, with neighbours outside the row not flagged (42_detect.md R162). -/
def State.flagAt (s : State) (x y : Nat) : Bool := flagBit (s.pixel (y * s.w.toNat + x))

/-- The qualification of the pixel at the scan position, in natural numbers (42_detect.md R163). -/
def State.qualifiesAt (s : State) (x y : Nat) : Bool :=
  s.flagAt x y && (decide (1 ≤ x) && s.flagAt (x - 1) y) && (decide (x + 1 < s.w.toNat) && s.flagAt (x + 1) y) &&
    s.flagAt x (y - 1) && s.flagAt x (y + 1)

theorem State.flag?_of_nat {s : State} {x y : Nat} (hx : x < s.w.toNat) (hk : y * s.w.toNat + x < s.params.maxPixels) :
    s.flag? x y = some (s.flagAt x y) := by
  unfold State.flag?
  rw [if_pos (by omega), show (y : Int) * s.w.toNat + x = ((y * s.w.toNat + x : Nat) : Int) by push_cast; rfl,
    State.loadPixel?_of_nat hk]
  rfl

theorem State.flag?_outside {s : State} {x y : Int} (hx : ¬(0 ≤ x ∧ x ≤ (s.w.toNat : Int) - 1)) : s.flag? x y = some false := by
  unfold State.flag?; rw [if_neg hx]

/-- Qualification inside the image. -/
theorem State.qualifies?_of_nat {s : State} {x y : Nat} (hx : x < s.w.toNat) (hy : 1 ≤ y) (hh : y + 1 < s.h.toNat)
    (himg : s.w.toNat * s.h.toNat ≤ s.params.maxPixels) : s.qualifies? x y = some (s.qualifiesAt x y) := by
  have key : ∀ {z v : Nat}, z < s.w.toNat → v < s.h.toNat → v * s.w.toNat + z < s.params.maxPixels := by
    intro z v hz hv
    have : v * s.w.toNat + s.w.toNat ≤ s.h.toNat * s.w.toNat := by
      calc v * s.w.toNat + s.w.toNat = (v + 1) * s.w.toNat := by ring
        _ ≤ _ := Nat.mul_le_mul_right _ hv
    rw [Nat.mul_comm s.h.toNat] at this
    omega
  have hl : s.flag? ((x : Int) - 1) y = some (decide (1 ≤ x) && s.flagAt (x - 1) y) := by
    by_cases h : 1 ≤ x
    · rw [show (x : Int) - 1 = ((x - 1 : Nat) : Int) by omega, State.flag?_of_nat (by omega) (key (by omega) (by omega))]
      simp [h]
    · rw [State.flag?_outside (by omega)]; simp [h]
  have hr : s.flag? ((x : Int) + 1) y = some (decide (x + 1 < s.w.toNat) && s.flagAt (x + 1) y) := by
    by_cases h : x + 1 < s.w.toNat
    · rw [show (x : Int) + 1 = ((x + 1 : Nat) : Int) by omega, State.flag?_of_nat h (key h (by omega))]
      simp [h]
    · rw [State.flag?_outside (by omega)]; simp [h]
  have hu : s.flag? x ((y : Int) - 1) = some (s.flagAt x (y - 1)) := by
    rw [show (y : Int) - 1 = ((y - 1 : Nat) : Int) by omega, State.flag?_of_nat hx (key hx (by omega))]
  have hd : s.flag? x ((y : Int) + 1) = some (s.flagAt x (y + 1)) := by
    rw [show (y : Int) + 1 = ((y + 1 : Nat) : Int) by omega, State.flag?_of_nat hx (key hx (by omega))]
  unfold State.qualifies?
  rw [State.flag?_of_nat hx (key hx (by omega)), hl, hr, hu, hd]
  rfl

/-- Containment in one bullseye, in the integers (42_detect.md R164). -/
theorem Sym.inBullseye_iff {e : Sym} {x y : Int} : e.inBullseye x y = true ↔
    (x * 2 ^ 16 - e.x.toInt) ^ 2 + (y * 2 ^ 16 - e.y.toInt) ^ 2 ≤ (e.unit.toNat : Int) ^ 2 := decide_eq_true_iff

theorem State.contained_iff {s : State} {x y : Int} : s.contained x y = true ↔ ∃ e ∈ s.syms, e.inBullseye x y = true := by
  simp [State.contained]

/-- The detect step, from a state that meets the invariant. -/
theorem detectStep_eq {s : State} (h : Inv s) (hp : s.phase = .detect) :
    detectStep s = some (if s.qualifiesAt s.idx.toNat s.row.toNat && !s.contained s.idx.toNat s.row.toNat
      then s.issueRequest else advanceDetect s) := by
  obtain ⟨h1, h2, h3⟩ := h.detectPos (.inl hp)
  have himg := (h.image (by simp [State.busy_iff, hp])).2.2
  unfold detectStep
  rw [State.qualifies?_of_nat h3 (by omega) (by omega) himg]
  rfl

/-! ### The advance (42_detect.md R165) -/

theorem advanceDetect_frame (s : State) : advanceDetect s =
    { s with row := (advanceDetect s).row, idx := (advanceDetect s).idx, phase := (advanceDetect s).phase } := rfl

/-- The phases the advance can give. -/
theorem advanceDetect_phase (s : State) : (advanceDetect s).phase = .done ∨ (advanceDetect s).phase = .detect := by
  simp only [advanceDetect]
  generalize (if s.idx + 1 = s.w then s.row + 1 else s.row) = r
  by_cases h : (r.toNat : Int) > (s.h.toNat : Int) - 3
  · exact .inl (if_pos h)
  · exact .inr (if_neg h)

theorem advanceDetect_within {s : State} (hi : s.idx.toNat + 1 < s.w.toNat) (hr : s.row.toNat + 3 ≤ s.h.toNat) :
    advanceDetect s = { s with idx := s.idx + 1, phase := .detect } := by
  have h1 : s.idx + 1 ≠ s.w := by
    intro e; have := congrArg BitVec.toNat e; simp at this; omega
  have h2 : ¬((s.row.toNat : Int) > (s.h.toNat : Int) - 3) := by omega
  simp only [advanceDetect, if_neg h1, if_neg h2]

theorem idx_succ_eq {a b : BitVec 14} (h : a.toNat + 1 = b.toNat) : a + 1 = b := by
  have := b.isLt
  apply BitVec.eq_of_toNat_eq
  simp; omega

theorem idx_succ_toNat {a : BitVec 14} {n : Nat} (h : a.toNat < n) (hn : n < 2 ^ 14) : (a + 1).toNat = a.toNat + 1 := by
  simp; omega

theorem advanceDetect_next_row {s : State} (hi : s.idx.toNat + 1 = s.w.toNat) (hr : s.row.toNat + 4 ≤ s.h.toNat) :
    advanceDetect s = { s with idx := 0#14, row := s.row + 1, phase := .detect } := by
  have h1 := idx_succ_eq hi
  have h2 : ¬(((s.row + 1).toNat : Int) > (s.h.toNat : Int) - 3) := by
    rw [idx_succ_toNat (n := s.h.toNat) (by omega) s.h.isLt]; omega
  simp only [advanceDetect, if_pos h1, if_neg h2]

theorem advanceDetect_last_row {s : State} (hi : s.idx.toNat + 1 = s.w.toNat) (hr : s.row.toNat + 3 = s.h.toNat) :
    advanceDetect s = { s with idx := 0#14, row := s.row + 1, phase := .done } := by
  have h1 := idx_succ_eq hi
  have h2 : ((s.row + 1).toNat : Int) > (s.h.toNat : Int) - 3 := by
    rw [idx_succ_toNat (n := s.h.toNat) (by omega) s.h.isLt]; omega
  simp only [advanceDetect, if_pos h1, if_pos h2]

end Sys2Proof.Machine
end

