-- ==== Sys2Proof/Laws/Load.lean ====
section
/-! SUPPORT. Everything the acceptance of one image byte can do (40_load.md R102). -/

namespace Sys2Proof.Machine

/-- The four outcomes of one accepted byte, with their guards. -/
theorem acceptByte_cases {b : Byte} {s t : State} (h : acceptByte b s = some t) :
    (s.bc.toNat = 3 * s.params.maxPixels ∧ t = { s with loadOvf := true }) ∨
    (s.bc.toNat ≠ 3 * s.params.maxPixels ∧ s.bc.toNat % 3 = 0 ∧ t = { s with stgR := b, bc := s.bc + 1 }) ∨
    (s.bc.toNat ≠ 3 * s.params.maxPixels ∧ s.bc.toNat % 3 = 1 ∧ t = { s with stgG := b, bc := s.bc + 1 }) ∨
    (s.bc.toNat ≠ 3 * s.params.maxPixels ∧ s.bc.toNat % 3 = 2 ∧ s.bc.toNat / 3 < s.params.maxPixels ∧
      t = { s.setPixel (s.bc.toNat / 3) (rawWord s.params.opaqueMark s.stgR s.stgG b) with bc := s.bc + 1 }) := by
  unfold acceptByte at h
  split at h
  · cases h; exact .inl ⟨‹_›, rfl⟩
  · rename_i hb
    split at h
    · cases h; exact .inr (.inl ⟨hb, ‹_›, rfl⟩)
    · cases h; exact .inr (.inr (.inl ⟨hb, ‹_›, rfl⟩))
    · rename_i h0 h1
      simp only [Option.map_eq_some_iff, State.storePixel?_eq_some] at h
      obtain ⟨_, ⟨n, hk, hn, rfl⟩, rfl⟩ := h
      have hn' : n = s.bc.toNat / 3 := by omega
      subst hn'
      have h0' : s.bc.toNat % 3 ≠ 0 := h0
      have h1' : s.bc.toNat % 3 ≠ 1 := h1
      exact .inr (.inr (.inr ⟨hb, by omega, hn, rfl⟩))

theorem acceptByte_full {s : State} (b : Byte) (h : s.bc.toNat = 3 * s.params.maxPixels) :
    acceptByte b s = some { s with loadOvf := true } := by unfold acceptByte; rw [if_pos h]

theorem acceptByte_red {s : State} (b : Byte) (h : s.bc.toNat < 3 * s.params.maxPixels) (h3 : s.bc.toNat % 3 = 0) :
    acceptByte b s = some { s with stgR := b, bc := s.bc + 1 } := by
  unfold acceptByte; rw [if_neg (by omega), h3]; rfl

theorem acceptByte_green {s : State} (b : Byte) (h : s.bc.toNat < 3 * s.params.maxPixels) (h3 : s.bc.toNat % 3 = 1) :
    acceptByte b s = some { s with stgG := b, bc := s.bc + 1 } := by
  unfold acceptByte; rw [if_neg (by omega), h3]; rfl

theorem acceptByte_blue {s : State} (b : Byte) (h : s.bc.toNat < 3 * s.params.maxPixels) (h3 : s.bc.toNat % 3 = 2) :
    acceptByte b s =
      some { s.setPixel (s.bc.toNat / 3) (rawWord s.params.opaqueMark s.stgR s.stgG b) with bc := s.bc + 1 } := by
  unfold acceptByte
  rw [if_neg (by omega), h3, State.storePixel?_of_nat _ (by omega)]
  rfl

/-- The byte counter advances by one and does not wrap. -/
theorem bc_succ_toNat {s : State} (hl : s.params.Legal) (h : s.bc.toNat < 3 * s.params.maxPixels) :
    (s.bc + 1).toNat = s.bc.toNat + 1 := by
  have := hl.2.1
  rw [BitVec.toNat_add]
  simp; omega

/-- One byte, for counters in range: it is accepted, and what it leaves alone. -/
theorem acceptByte_next {s : State} (b : Byte) (hl : s.params.Legal) (h : s.bc.toNat ≤ 3 * s.params.maxPixels) :
    ∃ t, acceptByte b s = some t ∧
      t = { s with bc := t.bc, stgR := t.stgR, stgG := t.stgG, loadOvf := t.loadOvf, mem := t.mem } ∧
      t.bc.toNat = min (s.bc.toNat + 1) (3 * s.params.maxPixels) ∧
      (t.loadOvf = true ↔ s.loadOvf = true ∨ s.bc.toNat = 3 * s.params.maxPixels) ∧
      (∀ a : Nat, a / 4 ≠ s.bc.toNat / 3 → t.readByte a = s.readByte a) ∧
      (s.bc.toNat % 3 ≠ 2 → t.mem = s.mem) ∧ (∀ k, s.written k = true → t.written k = true) := by
  by_cases hf : s.bc.toNat = 3 * s.params.maxPixels
  · exact ⟨_, acceptByte_full b hf, rfl, by simp [hf], by simp [hf], fun _ _ => rfl, fun _ => rfl, fun _ h => h⟩
  · have hb := bc_succ_toNat hl (by omega : s.bc.toNat < 3 * s.params.maxPixels)
    have h3 : s.bc.toNat % 3 = 0 ∨ s.bc.toNat % 3 = 1 ∨ s.bc.toNat % 3 = 2 := by omega
    rcases h3 with h3 | h3 | h3
    · exact ⟨_, acceptByte_red b (by omega) h3, rfl, by show (s.bc + 1).toNat = _; omega, by simp [hf], fun _ _ => rfl, fun _ => rfl,
        fun _ h => h⟩
    · exact ⟨_, acceptByte_green b (by omega) h3, rfl, by show (s.bc + 1).toNat = _; omega, by simp [hf], fun _ _ => rfl, fun _ => rfl,
        fun _ h => h⟩
    · refine ⟨_, acceptByte_blue b (by omega) h3, rfl, by show (s.bc + 1).toNat = _; omega, by simp [hf, State.setPixel],
        fun a ha => ?_, fun h => absurd h3 h, fun k hk => ?_⟩
      · exact State.readByte_setPixel_ne s _ ha
      · show (s.setPixel _ _).written k = true
        rw [State.written_setPixel, hk]; simp

/-- LOAD_BYTE on an open stream outside a scan. -/
theorem execLoadByte_open {b : Nat} {s : State} (hb : s.busy = false) (hf : s.field = .raw) :
    exec (.loadByte b) s = outcomeOf (acceptByte (BitVec.ofNat 8 b) s) := by simp [exec, execLoadByte, hb, hf]

/-- LOAD_PIXEL on an open stream outside a scan. -/
theorem execLoadPixel_open {r g b : Nat} {s : State} (hb : s.busy = false) (hf : s.field = .raw) :
    exec (.loadPixel r g b) s =
      outcomeOf (((acceptByte (BitVec.ofNat 8 r) s).bind (acceptByte (BitVec.ofNat 8 g))).bind (acceptByte (BitVec.ofNat 8 b))) := by
  simp [exec, execLoadPixel, hb, hf]

end Sys2Proof.Machine
end

