-- ==== Sys2Proof/Laws/Frame.lean ====
section
/-! SUPPORT. What each partial operation leaves alone, for every state: one equation an operation. -/

namespace Sys2Proof.Machine

theorem storePixel?_frame {s t : State} {k : Int} {v : Word} (h : s.storePixel? k v = some t) : t = { s with mem := t.mem } := by
  obtain ⟨n, -, -, rfl⟩ := State.storePixel?_eq_some.mp h; rfl

theorem flagWord?_frame {s t : State} {k : Int} (h : s.flagWord? k = some t) : t = { s with mem := t.mem } := by
  simp only [State.flagWord?, Option.bind_eq_some_iff] at h
  obtain ⟨v, -, h⟩ := h
  exact storePixel?_frame h

theorem flagWindow?_frame {s t : State} {c : Int} (h : s.flagWindow? c = some t) : t = { s with mem := t.mem } := by
  simp only [State.flagWindow?, Option.bind_eq_some_iff] at h
  obtain ⟨u, ⟨v, h1, h2⟩, h3⟩ := h
  rw [flagWord?_frame h3, flagWord?_frame h2, flagWord?_frame h1]

theorem endOfSecondBlack_frame {s t : State} {j : Nat} {k : Int} (h : endOfSecondBlack j k s = some t) :
    t = { s with mem := t.mem, fsm := t.fsm, b1 := t.b1, w1 := t.w1, b2 := t.b2, ccount := t.ccount } := by
  unfold endOfSecondBlack at h
  split at h
  · simp only [Option.map_eq_some_iff] at h
    obtain ⟨u, h1, rfl⟩ := h
    rw [flagWindow?_frame h1]; rfl
  · cases h; rfl

/-- The automaton changes its registers, CCOUNT and flags in memory, and nothing else (41_threshold.md R140 to R148). -/
theorem automatonStep_frame {s t : State} {white : Bool} {j : Nat} {k : Int} (h : automatonStep white j k s = some t) :
    t = { s with mem := t.mem, fsm := t.fsm, b1 := t.b1, w1 := t.w1, b2 := t.b2, ccount := t.ccount } := by
  unfold automatonStep at h
  split at h <;> first
    | (cases h; rfl)
    | exact endOfSecondBlack_frame h

/-- Classifying a pixel changes AVG and memory, and nothing else (41_threshold.md R132 to R135). -/
theorem classifyPixel_frame {s t : State} {white : Bool} (h : classifyPixel s = some (white, t)) :
    t = { s with mem := t.mem, avg := t.avg } := by
  simp only [classifyPixel, Option.bind_eq_some_iff, Option.map_eq_some_iff, Prod.mk.injEq] at h
  obtain ⟨v, -, w, -, u, h1, -, rfl⟩ := h
  rw [storePixel?_frame h1]

theorem advanceThreshold_frame (s : State) : advanceThreshold s =
    { s with fsm := (advanceThreshold s).fsm, b1 := (advanceThreshold s).b1, w1 := (advanceThreshold s).w1,
             b2 := (advanceThreshold s).b2, field := (advanceThreshold s).field, phase := (advanceThreshold s).phase,
             row := (advanceThreshold s).row, idx := (advanceThreshold s).idx } := by
  unfold advanceThreshold; split_ifs <;> rfl

/-- FIELD and PHASE after the advance. -/
theorem advanceThreshold_phase (s : State) :
    ((advanceThreshold s).phase = s.phase ∧ (advanceThreshold s).field = s.field) ∨
    ((advanceThreshold s).phase = .detect ∧ (advanceThreshold s).field = .thresholded) ∨
    ((advanceThreshold s).phase = .done ∧ (advanceThreshold s).field = .thresholded) := by
  unfold advanceThreshold; split_ifs <;> simp

/-- What a threshold step leaves alone (41_threshold.md R130). -/
theorem thresholdStep_frame {s t : State} (h : thresholdStep s = some t) :
    t = { s with mem := t.mem, avg := t.avg, fsm := t.fsm, b1 := t.b1, w1 := t.w1, b2 := t.b2, ccount := t.ccount,
                 field := t.field, phase := t.phase, row := t.row, idx := t.idx } := by
  simp only [thresholdStep, Option.bind_eq_some_iff, Option.map_eq_some_iff, Prod.exists] at h
  obtain ⟨c, u, h1, v, h2, rfl⟩ := h
  rw [advanceThreshold_frame v, automatonStep_frame h2, classifyPixel_frame h1]

/-- What a detect step leaves alone (42_detect.md R161). -/
theorem detectStep_frame {s t : State} (h : detectStep s = some t) :
    t = { s with reqX := t.reqX, reqY := t.reqY, phase := t.phase, row := t.row, idx := t.idx } := by
  simp only [detectStep, Option.map_eq_some_iff] at h
  obtain ⟨q, -, rfl⟩ := h
  split <;> rfl

/-- Everything a core step can do. -/
theorem coreStep_cases {s t : State} (h : coreStep s = .next t) :
    (s.phase = .thresh ∧ thresholdStep s = some t) ∨ (s.phase = .detect ∧ detectStep s = some t) ∨
    (s.phase ≠ .thresh ∧ s.phase ≠ .detect ∧ t = s) := by
  unfold coreStep at h
  split at h
  · exact .inl ⟨‹_›, by simpa using h⟩
  · exact .inr (.inl ⟨‹_›, by simpa using h⟩)
  all_goals cases h; simp [*]

/-- What one accepted byte leaves alone (40_load.md R102). -/
theorem acceptByte_frame {b : Byte} {s t : State} (h : acceptByte b s = some t) :
    t = { s with bc := t.bc, stgR := t.stgR, stgG := t.stgG, loadOvf := t.loadOvf, mem := t.mem } := by
  rcases acceptByte_cases h with ⟨-, rfl⟩ | ⟨-, -, rfl⟩ | ⟨-, -, rfl⟩ | ⟨-, -, -, rfl⟩ <;> rfl

end Sys2Proof.Machine
end

