-- ==== Sys2Proof/Laws/PerInstr.lean ====
section
/-! SUPPORT. The family TableRow, one lemma per constructor: a well-formed command's word matches its own row of opcode_table.json. -/

namespace Sys2Proof.Laws.TableRow

/-- The encoded word carries the row's fixed bits (30_encoding.md R85: "a word `c` is legal iff `(c & mask) = match`"). -/
def Statement (i : Instr) : Prop := i.wellFormed = true → encode i &&& i.op.mask = i.op.pattern

theorem of_wellFormed (i : Instr) : Statement i := fun h => legal_of_toNat (Instr.payload_lt h) (encode_toNat h)

theorem nop : Statement .nop := of_wellFormed _
theorem setDims (w h : Nat) : Statement (.setDims w h) := of_wellFormed _
theorem setDiameter (d : Nat) : Statement (.setDiameter d) := of_wellFormed _
theorem loadReset : Statement .loadReset := of_wellFormed _
theorem loadByte (b : Nat) : Statement (.loadByte b) := of_wellFormed _
theorem loadPixel (r g b : Nat) : Statement (.loadPixel r g b) := of_wellFormed _
theorem start : Statement .start := of_wellFormed _
theorem abort : Statement .abort := of_wellFormed _
theorem decOk (c : Nat) : Statement (.decOk c) := of_wellFormed _
theorem decFail : Statement .decFail := of_wellFormed _
theorem clrErr : Statement .clrErr := of_wellFormed _
theorem softReset : Statement .softReset := of_wellFormed _

end Sys2Proof.Laws.TableRow
end

