-- ==== Sys2Proof/Laws/Status.lean ====
section
/-! SUPPORT. The fields of STATUS (10_state.md R40) and of the coordinate registers, read off the word. -/

namespace Sys2Proof.Machine

/-- STATUS bit by bit (10_state.md R40). -/
theorem State.status_getLsbD (s : State) (i : Nat) : s.status.getLsbD i =
    if i < 3 then s.phase.code.getLsbD i
    else if i = 3 then s.busy
    else if i < 6 then s.field.code.getLsbD (i - 4)
    else if i = 6 then s.loadOvf
    else if i = 7 then false
    else if i < 16 then s.errs.getLsbD (i - 8)
    else if i = 16 then s.irq
    else false := by
  simp only [State.status, BitVec.getLsbD_append]
  by_cases h : i < 17
  · interval_cases i <;> simp
  · simp only [show ¬i < 3 by omega, show ¬i = 3 by omega, show ¬i < 6 by omega, show ¬i = 6 by omega, show ¬i = 7 by omega,
      show ¬i < 16 by omega, show ¬i = 16 by omega, if_false]
    simp (disch := omega) [show ¬i - 3 < 1 by omega, show ¬i - 3 - 1 < 2 by omega,
      show ¬i - 3 - 1 - 2 < 1 by omega, show ¬i - 3 - 1 - 2 - 1 < 1 by omega, show ¬i - 3 - 1 - 2 - 1 - 1 < 8 by omega,
      show ¬i - 3 - 1 - 2 - 1 - 1 - 8 < 1 by omega]

theorem State.status_errs (s : State) : s.status.extractLsb' 8 8 = s.errs := by
  apply BitVec.eq_of_getLsbD_eq
  intro i hi
  rw [BitVec.getLsbD_extractLsb', State.status_getLsbD]
  interval_cases i <;> simp

theorem State.status_phase (s : State) : s.status.extractLsb' 0 3 = s.phase.code := by
  apply BitVec.eq_of_getLsbD_eq
  intro i hi
  rw [BitVec.getLsbD_extractLsb', State.status_getLsbD]
  interval_cases i <;> simp

theorem State.status_field (s : State) : s.status.extractLsb' 4 2 = s.field.code := by
  apply BitVec.eq_of_getLsbD_eq
  intro i hi
  rw [BitVec.getLsbD_extractLsb', State.status_getLsbD]
  interval_cases i <;> simp

/-- Two coordinates in one word (10_state.md R41, R46, R52). -/
theorem pair14_toNat (low high : BitVec 14) : (pair14 low high).toNat = high.toNat * 2 ^ 14 + low.toNat := by
  have ha := low.isLt
  have hb := high.isLt
  simp only [pair14, BitVec.toNat_append]
  rw [← Nat.shiftLeft_add_eq_or_of_lt ha, Nat.shiftLeft_eq]
  simp

end Sys2Proof.Machine
end

