-- ==== Sys2Proof/Laws/Steps.lean ====
section
/-! SUPPORT. Every step that answers a next state is one of four kinds: the core's, a hardware reset, a command, or a quiet bus
transaction. -/

namespace Sys2Proof.Machine

/-- What a bus transaction other than a command's leaves alone: everything but the response registers, the interrupt enables, the read
datum and one error bit (20_memory.md R64, R65; 43_control.md R194 to R197). -/
structure Quiet (s t : State) : Prop where
  frame : t = { s with inputs := t.inputs, rdata := t.rdata, errs := t.errs, respX := t.respX, respY := t.respY,
                       respUnit := t.respUnit, respOrient := t.respOrient, irqEn := t.irqEn }
  errs  : t.errs = s.errs ∨ t.errs = (s.raise .illegal).errs ∨ t.errs = (s.raise .bus).errs

theorem Quiet.phase {s t : State} (h : Quiet s t) : t.phase = s.phase := by rw [h.frame]
theorem Quiet.field {s t : State} (h : Quiet s t) : t.field = s.field := by rw [h.frame]
theorem Quiet.mem {s t : State} (h : Quiet s t) : t.mem = s.mem := by rw [h.frame]
theorem Quiet.syms {s t : State} (h : Quiet s t) : t.syms = s.syms := by rw [h.frame]
theorem Quiet.ccount {s t : State} (h : Quiet s t) : t.ccount = s.ccount := by rw [h.frame]
theorem Quiet.passData {s t : State} (h : Quiet s t) : t.passData = s.passData := by rw [h.frame]; rfl

/-- A step in which the core moves is its own step, with the schedule's word consumed. -/
theorem step_coreMoves {s : State} (h : s.coreMoves) : step s = coreStep { s with inputs := s.inputs.tail } := by
  rcases step_cases s with ⟨hi, e⟩ | ⟨_, hi, e⟩ | ⟨_, hi, _⟩ | ⟨_, _, hi, _⟩ | ⟨_, _, _, hi, _⟩
  · rw [e, hi, List.tail_nil, ← hi]
  · rw [e, hi, List.tail_cons]
  all_goals simp [State.coreMoves, hi] at h

/-- The invariant does not look at the moves still to come. -/
theorem Inv.withInputs {s : State} (h : Inv s) (i : List Input) : Inv { s with inputs := i } :=
  ⟨h.legal, h.maxUnit, h.bc, h.memWf, h.memBound, h.avg, h.symsBound, h.symsValid, h.ccount, h.loaded, h.threshField, h.scanField,
    h.image, h.imageRead, h.threshPos, h.automaton, h.detectPos, h.request⟩

/-- Everything a step that answers a next state can have been. -/
theorem step_next_cases {s t : State} (h : step s = .next t) :
    (∃ rest, (s.inputs = [] ∧ rest = [] ∨ s.inputs = .core :: rest) ∧ coreStep { s with inputs := rest } = .next t) ∨
    (∃ rest, s.inputs = .reset :: rest ∧ t = State.hardwareReset { s with inputs := rest }) ∨
    (∃ rest c i, s.inputs = .write 0x004#32 c :: rest ∧ decode c = .ok i ∧ exec i { s with inputs := rest } = .next t) ∨
    (∃ e rest, s.inputs = e :: rest ∧ e ≠ .core ∧ e ≠ .reset ∧ (∀ c i, e = .write 0x004#32 c → decode c ≠ .ok i) ∧ Quiet s t) := by
  rcases step_cases s with ⟨hi, e⟩ | ⟨rest, hi, e⟩ | ⟨rest, hi, e⟩ | ⟨rest, off, hi, e⟩ | ⟨rest, off, v, hi, e⟩ <;> rw [e] at h
  · refine .inl ⟨[], .inl ⟨hi, rfl⟩, ?_⟩
    rw [← hi]; exact h
  · exact .inl ⟨rest, .inr hi, h⟩
  · cases h; exact .inr (.inl ⟨rest, hi, rfl⟩)
  · cases h
    refine .inr (.inr (.inr ⟨_, rest, hi, by simp, by simp, by simp, ?_⟩))
    unfold busRead
    split
    · exact ⟨rfl, .inl rfl⟩
    · exact ⟨rfl, .inr (.inr rfl)⟩
  · rcases busWrite_cases off v { s with inputs := rest } with ⟨rfl, e⟩ | ⟨ho, e⟩ | ⟨ho, e⟩ | ⟨ho, e⟩ | ⟨ho, e⟩ | ⟨ho, e⟩ | ⟨ho, e⟩ <;>
      rw [e] at h
    · rcases execWord_cases v { s with inputs := rest } with ⟨i, hd, e⟩ | ⟨r, hd, e⟩ <;> rw [e] at h
      · exact .inr (.inr (.inl ⟨rest, v, i, hi, hd, h⟩))
      · cases h
        exact .inr (.inr (.inr ⟨_, rest, hi, by simp, by simp, by rintro c i ⟨⟩; simp [hd], ⟨rfl, .inr (.inl rfl)⟩⟩))
    all_goals
      cases h
      refine .inr (.inr (.inr ⟨_, rest, hi, by simp, by simp, ?_, ⟨rfl, ?_⟩⟩))
      · intro c i hc
        cases hc
        simp at ho
      · first | exact .inl rfl | exact .inr (.inr rfl)

end Sys2Proof.Machine
end

