-- ==== Sys2Proof/Laws/Threshold.lean ====
section
/-! SUPPORT. What one threshold step does from a state that meets the invariant, said once: `thresholdStep_eq`. -/

namespace Sys2Proof.Machine

/-! ### The acceptance test and the accumulator -/

/-- What an accepted triple satisfies (41_threshold.md R146). -/
theorem accept_bounds {b1 w1 b2 m : Nat} (h : accept b1 w1 b2 m = true) : 2 ≤ b1 ∧ 2 ≤ b2 ∧ b1 ≤ m ∧ b2 ≤ m ∧ w1 ≤ 2 * m := by
  simp only [accept, decide_eq_true_eq] at h; omega

theorem intensity_le (v : Word) : intensity v ≤ 255 := by
  have h1 := (v.extractLsb' 16 8).isLt
  have h2 := (v.extractLsb' 8 8).isLt
  have h3 := (v.extractLsb' 0 8).isLt
  unfold intensity; omega

theorem accumulate_le {a i : Nat} (ha : a ≤ 7650) (hi : i ≤ 255) : accumulate a i ≤ 7650 := by unfold accumulate; omega

theorem storedAvg_thresholdedWord (white : Bool) (a : BitVec 24) : storedAvg (thresholdedWord white a) = a.toNat := by
  have h := a.isLt
  unfold storedAvg thresholdedWord
  congr 1
  apply BitVec.eq_of_getLsbD_eq
  intro i hi
  simp [hi, show i < 32 by omega]

@[simp] theorem classBit_thresholdedWord (white : Bool) (a : BitVec 24) : classBit (thresholdedWord white a) = white := by
  simp [classBit, thresholdedWord]

@[simp] theorem flagBit_thresholdedWord (white : Bool) (a : BitVec 24) : flagBit (thresholdedWord white a) = false := by
  simp [flagBit, thresholdedWord]

/-- Setting the flag of a word changes bit 25 only (41_threshold.md R148). -/
theorem setFlag_getLsbD (v : Word) (i : Nat) : (setFlag v).getLsbD i = (v.getLsbD i || decide (i = 25)) := by
  unfold setFlag
  by_cases h : i < 32
  · interval_cases i <;> simp
  · rw [BitVec.getLsbD_of_ge _ _ (by omega), BitVec.getLsbD_of_ge v _ (by omega)]
    simp; omega

@[simp] theorem flagBit_setFlag (v : Word) : flagBit (setFlag v) = true := (setFlag_getLsbD v 25).trans (by simp)

@[simp] theorem classBit_setFlag (v : Word) : classBit (setFlag v) = classBit v :=
  (setFlag_getLsbD v 24).trans (by simp [classBit])

@[simp] theorem storedAvg_setFlag (v : Word) : storedAvg (setFlag v) = storedAvg v := by
  unfold storedAvg
  congr 1
  apply BitVec.eq_of_getLsbD_eq
  intro i hi
  simp [hi, setFlag_getLsbD, show i ≠ 25 by omega]

theorem setFlag_toNat_lt {v : Word} (h : v.toNat < 2 ^ 26) : (setFlag v).toNat < 2 ^ 26 := by
  unfold setFlag; rw [BitVec.toNat_or]
  exact Nat.or_lt_two_pow h (by decide)

/-- The thresholded word as a number. -/
theorem thresholdedWord_toNat (white : Bool) (a : BitVec 24) :
    (thresholdedWord white a).toNat = (if white then 2 ^ 24 else 0) + a.toNat := by
  have h := a.isLt
  have e : thresholdedWord white a = BitVec.ofNat 32 ((if white then 2 ^ 24 else 0) + a.toNat) := by
    have : (BitVec.ofBool white).setWidth 32 <<< 24 &&& a.setWidth 32 = 0#32 := by
      apply BitVec.eq_of_getLsbD_eq
      intro i hi
      simp only [BitVec.getLsbD_and, BitVec.getLsbD_shiftLeft, BitVec.getLsbD_setWidth, BitVec.getLsbD_zero]
      by_cases h : i < 24
      · simp [h]
      · simp [BitVec.getLsbD_of_ge a i (by omega)]
    unfold thresholdedWord
    rw [← BitVec.add_eq_or_of_and_eq_zero _ _ this]
    apply BitVec.eq_of_toNat_eq
    cases white <;> simp
  rw [e, BitVec.toNat_ofNat]
  apply Nat.mod_eq_of_lt
  split <;> omega

/-! ### The pixel of the scan position -/

theorem State.scanWord_eq {s : State} (h : s.idx.toNat < s.w.toNat) : s.scanWord = (s.passWord : Int) := by
  unfold State.scanWord State.passWord serpentineColumn
  split <;> push_cast <;> omega

theorem State.passWord_bounds {s : State} (h : s.idx.toNat < s.w.toNat) :
    s.row.toNat * s.w.toNat ≤ s.passWord ∧ s.passWord < s.row.toNat * s.w.toNat + s.w.toNat := by
  unfold State.passWord
  split <;> omega

/-- Pixel `(x, y)` is the one at the scan position exactly when the serpentine order puts it there (41_threshold.md R131). -/
theorem State.eq_passWord_iff {s : State} (hi : s.idx.toNat < s.w.toNat) {x y : Nat} (hx : x < s.w.toNat) :
    y * s.w.toNat + x = s.passWord ↔
      y = s.row.toNat ∧ (if y % 2 = 0 then x else s.w.toNat - 1 - x) = s.idx.toNat := by
  unfold State.passWord
  constructor
  · intro h
    have hy : y = s.row.toNat := by
      have hpos : 0 < s.w.toNat := by omega
      have h1 : (y * s.w.toNat + x) / s.w.toNat = y := by
        rw [Nat.add_comm, Nat.add_mul_div_right _ _ hpos, Nat.div_eq_of_lt hx]; omega
      rw [h] at h1
      rw [← h1]
      split
      · rw [Nat.add_comm, Nat.add_mul_div_right _ _ hpos, Nat.div_eq_of_lt (by omega)]; omega
      · rw [Nat.add_comm, Nat.add_mul_div_right _ _ hpos, Nat.div_eq_of_lt (by omega)]; omega
    subst hy
    refine ⟨rfl, ?_⟩
    split <;> rename_i hh
    · rw [if_pos hh] at h; omega
    · rw [if_neg hh] at h; omega
  · rintro ⟨rfl, h⟩
    split <;> rename_i hh
    · rw [if_pos hh] at h; omega
    · rw [if_neg hh] at h; omega

theorem row_end_le {j h w : Nat} (hj : j < h) : j * w + w ≤ h * w := by
  calc j * w + w = (j + 1) * w := by ring
    _ ≤ h * w := Nat.mul_le_mul_right _ hj

theorem State.passWord_lt {s : State} (hi : s.idx.toNat < s.w.toNat) (hj : s.row.toNat < s.h.toNat) :
    s.passWord < s.w.toNat * s.h.toNat := by
  have h1 := (s.passWord_bounds hi).2
  have h2 := row_end_le (w := s.w.toNat) hj
  rw [Nat.mul_comm s.w.toNat]
  omega

/-- The accumulator after the step (41_threshold.md R133). -/
def State.newAvg (s : State) : Nat := accumulate s.avg.toNat (intensity (s.pixel s.passWord))

/-- The effective threshold of the step (41_threshold.md R134). -/
def State.passThreshold (s : State) : Nat :=
  if 1 ≤ s.row.toNat then (s.newAvg + storedAvg (s.pixel (s.passWord - s.w.toNat))) / 60 else s.newAvg / 30

/-- The class of the step's pixel (41_threshold.md R134). -/
def State.passWhite (s : State) : Bool := isWhite (intensity (s.pixel s.passWord)) s.passThreshold

/-- The state after the word write (41_threshold.md R135). -/
def State.afterClassify (s : State) : State :=
  State.setPixel { s with avg := BitVec.ofNat 24 s.newAvg } s.passWord (thresholdedWord s.passWhite (BitVec.ofNat 24 s.newAvg))

/-- The centre of the flag window (41_threshold.md R147). -/
def State.windowWord (s : State) : Nat :=
  if s.row.toNat % 2 = 0 then s.passWord - windowOffset s.b2.toNat s.w1.toNat
  else s.passWord + windowOffset s.b2.toNat s.w1.toNat

/-- The acceptance test on the present counters. -/
def State.accepts (s : State) : Bool := accept s.b1.toNat s.w1.toNat s.b2.toNat s.maxUnit.toNat

/-- The state after the automaton's step (41_threshold.md R140). -/
def State.afterAutomaton (s : State) : State :=
  match s.fsm, s.passWhite with
  | .seek,   false => { s.afterClassify with fsm := .first, b1 := 1#16, w1 := 0#16, b2 := 0#16 }
  | .seek,   true  => s.afterClassify
  | .first,  false => { s.afterClassify with fsm := .first, b1 := s.b1 + 1 }
  | .first,  true  => { s.afterClassify with fsm := .white, w1 := 1#16 }
  | .white,  true  => { s.afterClassify with fsm := .white, w1 := s.w1 + 1 }
  | .white,  false => { s.afterClassify with fsm := .second, b2 := 1#16 }
  | .second, false => { s.afterClassify with fsm := .second, b2 := s.b2 + 1 }
  | .second, true  =>
    if s.accepts then State.reenterWhite { s.afterClassify.windowFlagged s.windowWord with ccount := s.ccount + 3 }
    else s.afterClassify.reenterWhite

theorem State.busy_of_thresh {s : State} (hp : s.phase = .thresh) : s.busy = true := by simp [State.busy_iff, hp]

theorem State.newAvg_le {s : State} (h : Inv s) : s.newAvg ≤ 7650 := accumulate_le h.avg (intensity_le _)

theorem State.newAvg_toNat {s : State} (h : Inv s) : (BitVec.ofNat 24 s.newAvg).toNat = s.newAvg := by
  have := State.newAvg_le h
  simp; omega

section
variable {s : State} (h : Inv s) (hp : s.phase = .thresh)
include h hp

theorem State.passWord_lt_max : s.passWord < s.params.maxPixels := by
  have hb := State.busy_of_thresh hp
  obtain ⟨hj, hi⟩ := h.threshPos hp
  have h1 := State.passWord_lt hi hj
  have h2 := (h.image hb).2.2
  omega

theorem classifyPixel_eq : classifyPixel s = some (s.passWhite, s.afterClassify) := by
  obtain ⟨hj, hi⟩ := h.threshPos hp
  have hk := State.passWord_lt_max h hp
  unfold classifyPixel
  rw [State.scanWord_eq hi, State.loadPixel?_of_nat hk, Option.bind_some]
  have hT : effectiveThreshold? s (BitVec.ofNat 24 (accumulate s.avg.toNat (intensity (s.pixel s.passWord)))).toNat s.row.toNat
      (s.passWord : Int) = some s.passThreshold := by
    have ha : (BitVec.ofNat 24 (accumulate s.avg.toNat (intensity (s.pixel s.passWord)))).toNat = s.newAvg :=
      State.newAvg_toNat h
    rw [ha]
    unfold effectiveThreshold? State.passThreshold
    by_cases hr : 1 ≤ s.row.toNat
    · have h1 := (s.passWord_bounds hi).1
      have h2 : s.w.toNat ≤ s.row.toNat * s.w.toNat := Nat.le_mul_of_pos_left _ (by omega)
      rw [if_pos hr, if_pos hr, show (s.passWord : Int) - (s.w.toNat : Int) = ((s.passWord - s.w.toNat : Nat) : Int) by omega,
        State.loadPixel?_of_nat (by omega)]
      rfl
    · rw [if_neg hr, if_neg hr]
  rw [hT, Option.bind_some, State.storePixel?_of_nat _ (by exact hk)]
  rfl

/-- The flag window of an accepted triple lies in the current row, in columns 1 .. W-2, behind the current pixel (41_threshold.md
R149). -/
theorem State.window_bounds (hf : s.fsm = .second) (ha : s.accepts = true) :
    s.row.toNat * s.w.toNat + 2 ≤ s.windowWord ∧ s.windowWord + 3 ≤ s.row.toNat * s.w.toNat + s.w.toNat ∧
      (if s.row.toNat % 2 = 0 then s.windowWord + 1 < s.passWord else s.passWord < s.windowWord - 1) := by
  obtain ⟨hj, hi⟩ := h.threshPos hp
  obtain ⟨h1, h2, -⟩ := h.automaton hp
  rw [hf] at h1
  have hb := accept_bounds ha
  unfold State.windowWord State.passWord windowOffset
  simp only at h1
  generalize s.row.toNat * s.w.toNat = r at *
  split <;> refine ⟨by omega, by omega, by omega⟩

theorem automatonStep_eq : automatonStep s.passWhite s.row.toNat s.scanWord s.afterClassify = some s.afterAutomaton := by
  obtain ⟨hj, hi⟩ := h.threshPos hp
  have hfsm : s.afterClassify.fsm = s.fsm := rfl
  unfold automatonStep State.afterAutomaton
  rw [hfsm]
  rcases hf : s.fsm with _ | _ | _ | _ <;> rcases hw : s.passWhite with _ | _ <;> try rfl
  unfold endOfSecondBlack
  have e : accept s.afterClassify.b1.toNat s.afterClassify.w1.toNat s.afterClassify.b2.toNat s.afterClassify.maxUnit.toNat =
    s.accepts := rfl
  rw [e]
  by_cases ha : s.accepts = true
  · rw [if_pos ha, if_pos ha]
    have hb := State.window_bounds h hp hf ha
    have hmax := State.passWord_lt_max h hp
    have hrow := row_end_le (w := s.w.toNat) hj
    have himg := (h.image (State.busy_of_thresh hp)).2.2
    rw [Nat.mul_comm] at himg
    have hc : windowCentre s.row.toNat s.scanWord s.afterClassify.b2.toNat s.afterClassify.w1.toNat = (s.windowWord : Int) := by
      have := hb.1
      rw [State.scanWord_eq hi]
      show windowCentre s.row.toNat (s.passWord : Int) s.b2.toNat s.w1.toNat = _
      unfold windowCentre State.windowWord at *
      split
      · rename_i hr; rw [if_pos hr] at this; omega
      · push_cast; rfl
    rw [hc, State.flagWindow?_of_nat (by omega) (by show s.windowWord + 1 < s.params.maxPixels; omega)]
    rfl
  · rw [if_neg ha, if_neg ha]

/-- The threshold step, from a state that meets the invariant. -/
theorem thresholdStep_eq : thresholdStep s = some (advanceThreshold s.afterAutomaton) := by
  unfold thresholdStep
  rw [classifyPixel_eq h hp, Option.bind_some]
  dsimp only
  rw [automatonStep_eq h hp]
  rfl

/-! ### What the step leaves and what it changes -/

omit h hp in
theorem State.afterClassify_eq : s.afterClassify = { s with mem := s.afterClassify.mem, avg := BitVec.ofNat 24 s.newAvg } := rfl

/-- The pixel just classified completes an accepted triple. -/
def State.accepted (s : State) : Bool := decide (s.fsm = .second) && s.passWhite && s.accepts

omit h hp in
/-- The automaton's step changes the automaton's registers, CCOUNT and flags in memory. -/
theorem State.afterAutomaton_frame : ∃ m f b w b' c, s.afterAutomaton =
    { s.afterClassify with mem := m, fsm := f, b1 := b, w1 := w, b2 := b', ccount := c } := by
  unfold State.afterAutomaton
  generalize s.afterClassify = u
  rcases s.fsm with _ | _ | _ | _ <;> rcases s.passWhite with _ | _
  case second.true =>
    dsimp only
    by_cases ha : s.accepts = true
    · rw [if_pos ha, State.windowFlagged_eq u]
      generalize (u.windowFlagged s.windowWord).mem = m
      exact ⟨m, .white, u.b2, 1#16, 0#16, s.ccount + 3, rfl⟩
    · rw [if_neg ha]; exact ⟨_, _, _, _, _, _, rfl⟩
  all_goals exact ⟨_, _, _, _, _, _, rfl⟩

omit h hp in
theorem State.afterAutomaton_eq : s.afterAutomaton =
    { s with mem := s.afterAutomaton.mem, avg := BitVec.ofNat 24 s.newAvg, fsm := s.afterAutomaton.fsm, b1 := s.afterAutomaton.b1,
             w1 := s.afterAutomaton.w1, b2 := s.afterAutomaton.b2, ccount := s.afterAutomaton.ccount } := by
  obtain ⟨m, f, b, w, b', c, e⟩ := State.afterAutomaton_frame (s := s)
  generalize s.afterAutomaton = t at *
  subst e
  rfl

omit h hp in
/-- Memory and CCOUNT after the automaton's step. -/
theorem State.afterAutomaton_mem : s.afterAutomaton.mem =
    if s.accepted then (s.afterClassify.windowFlagged s.windowWord).mem else s.afterClassify.mem := by
  unfold State.afterAutomaton State.accepted
  rcases s.fsm with _ | _ | _ | _ <;> rcases s.passWhite with _ | _ <;> try rfl
  dsimp only
  by_cases ha : s.accepts = true <;> simp [ha, State.reenterWhite]

omit h hp in
theorem State.afterAutomaton_ccount : s.afterAutomaton.ccount = if s.accepted then s.ccount + 3 else s.ccount := by
  unfold State.afterAutomaton State.accepted
  rcases s.fsm with _ | _ | _ | _ <;> rcases s.passWhite with _ | _ <;> try rfl
  dsimp only
  by_cases ha : s.accepts = true <;> simp [ha, State.reenterWhite, State.afterClassify, State.setPixel]

omit h hp in
/-- The automaton's table (41_threshold.md R140), as one equation. -/
theorem State.afterAutomaton_fsm :
    (s.afterAutomaton.fsm, s.afterAutomaton.b1, s.afterAutomaton.w1, s.afterAutomaton.b2) =
      match s.fsm, s.passWhite with
      | .seek,   false => (Fsm.first, 1#16, 0#16, 0#16)
      | .seek,   true  => (Fsm.seek, s.b1, s.w1, s.b2)
      | .first,  false => (Fsm.first, s.b1 + 1, s.w1, s.b2)
      | .first,  true  => (Fsm.white, s.b1, 1#16, s.b2)
      | .white,  true  => (Fsm.white, s.b1, s.w1 + 1, s.b2)
      | .white,  false => (Fsm.second, s.b1, s.w1, 1#16)
      | .second, false => (Fsm.second, s.b1, s.w1, s.b2 + 1)
      | .second, true  => (Fsm.white, s.b2, 1#16, 0#16) := by
  unfold State.afterAutomaton
  rcases hf : s.fsm with _ | _ | _ | _ <;> rcases s.passWhite with _ | _ <;> try rfl
  · show (s.fsm, s.b1, s.w1, s.b2) = _; rw [hf]
  · dsimp only; split_ifs <;> rfl

theorem State.accepted_window (ha : s.accepted = true) :
    s.row.toNat * s.w.toNat + 2 ≤ s.windowWord ∧ s.windowWord + 3 ≤ s.row.toNat * s.w.toNat + s.w.toNat ∧
      (if s.row.toNat % 2 = 0 then s.windowWord + 1 < s.passWord else s.passWord < s.windowWord - 1) := by
  simp only [State.accepted, Bool.and_eq_true, decide_eq_true_eq] at ha
  exact State.window_bounds h hp ha.1.1 ha.2

/-- The image after a threshold step, word by word. -/
theorem State.afterAutomaton_pixel (k : Nat) : s.afterAutomaton.pixel k =
    if k = s.passWord then thresholdedWord s.passWhite (BitVec.ofNat 24 s.newAvg)
    else if s.accepted = true ∧ (k = s.windowWord - 1 ∨ k = s.windowWord ∨ k = s.windowWord + 1) then setFlag (s.pixel k)
    else s.pixel k := by
  have hmem : s.afterAutomaton.pixel k =
      if s.accepted then (s.afterClassify.windowFlagged s.windowWord).pixel k else s.afterClassify.pixel k := by
    have e1 := State.afterAutomaton_mem (s := s)
    have e2 : s.afterAutomaton.epoch = s.epoch := by rw [State.afterAutomaton_eq]
    by_cases ha : s.accepted = true
    · rw [if_pos ha] at e1 ⊢
      simp only [State.pixel, State.readByte, e1, e2]; rfl
    · rw [if_neg ha] at e1 ⊢
      simp only [State.pixel, State.readByte, e1, e2]; rfl
  rw [hmem]
  have hset : ∀ k, s.afterClassify.pixel k =
      if k = s.passWord then thresholdedWord s.passWhite (BitVec.ofNat 24 s.newAvg) else s.pixel k := by
    intro k; unfold State.afterClassify; rw [State.pixel_setPixel]; rfl
  by_cases ha : s.accepted = true
  · have hb := State.accepted_window h hp ha
    rw [if_pos ha, State.pixel_windowFlagged (by omega), hset]
    simp only [ha, true_and]
    by_cases hk : k = s.passWord
    · rw [if_pos hk, if_neg (by split at hb <;> omega), if_pos hk]
    · rw [if_neg hk, if_neg hk]
  · rw [if_neg ha, hset]
    simp [ha]

omit h hp in
theorem State.afterAutomaton_written {k : Nat} (hk : s.written k = true) : s.afterAutomaton.written k = true := by
  have h0 : s.afterClassify.written k = true := by
    unfold State.afterClassify; rw [State.written_setPixel]
    rw [show State.written { s with avg := BitVec.ofNat 24 s.newAvg } k = s.written k from rfl, hk]; simp
  have e1 := State.afterAutomaton_mem (s := s)
  unfold State.written at *
  rw [e1]
  split
  · exact State.windowFlagged_written h0
  · exact h0

/-- Memory stays canonical and inside its bounds. -/
theorem State.afterAutomaton_memWf : s.afterAutomaton.mem.wf = true ∧ ∀ c ∈ s.afterAutomaton.mem, c.1 < 4 * s.params.maxPixels := by
  have hk := State.passWord_lt_max h hp
  obtain ⟨hj, -⟩ := h.threshPos hp
  have hrow := row_end_le (w := s.w.toNat) hj
  have himg := (h.image (State.busy_of_thresh hp)).2.2
  rw [Nat.mul_comm] at himg
  have w0 : s.afterClassify.mem.wf = true := State.setPixel_wf (s := { s with avg := BitVec.ofNat 24 s.newAvg }) h.memWf _ _
  have b0 : ∀ c ∈ s.afterClassify.mem, c.1 < 4 * s.params.maxPixels :=
    State.setPixel_bound (s := { s with avg := BitVec.ofNat 24 s.newAvg }) h.memBound hk _
  rw [State.afterAutomaton_mem]
  by_cases ha : s.accepted = true
  · have hb := State.accepted_window h hp ha
    rw [if_pos ha]
    exact ⟨State.windowFlagged_wf w0, State.windowFlagged_bound b0 (by omega)⟩
  · rw [if_neg ha]
    exact ⟨w0, b0⟩

end

/-! ### The advance (41_threshold.md R137) -/

theorem advanceThreshold_within {s : State} (hi : s.idx.toNat + 1 < s.w.toNat) : advanceThreshold s = { s with idx := s.idx + 1 } := by
  have h1 : s.idx + 1 ≠ s.w := by
    intro e; have := congrArg BitVec.toNat e; simp at this; omega
  simp only [advanceThreshold, if_neg h1]

theorem bv14_succ_eq {a b : BitVec 14} (h : a.toNat + 1 = b.toNat) : a + 1 = b := by
  have := b.isLt
  apply BitVec.eq_of_toNat_eq
  simp; omega

theorem bv14_succ_toNat {a : BitVec 14} {n : Nat} (h : a.toNat < n) (hn : n < 2 ^ 14) : (a + 1).toNat = a.toNat + 1 := by
  simp; omega

theorem advanceThreshold_next_row {s : State} (hi : s.idx.toNat + 1 = s.w.toNat) (hr : s.row.toNat + 1 < s.h.toNat) :
    advanceThreshold s = { s with fsm := .seek, b1 := 0#16, w1 := 0#16, b2 := 0#16, row := s.row + 1, idx := 0#14 } := by
  have h2 : s.row + 1 ≠ s.h := by
    intro e; have := congrArg BitVec.toNat e; simp at this; omega
  simp only [advanceThreshold, if_pos (bv14_succ_eq hi), if_neg h2]

theorem advanceThreshold_to_detect {s : State} (hi : s.idx.toNat + 1 = s.w.toNat) (hr : s.row.toNat + 1 = s.h.toNat)
    (hh : 5 ≤ s.h.toNat) : advanceThreshold s =
      { s with fsm := .seek, b1 := 0#16, w1 := 0#16, b2 := 0#16, field := .thresholded, phase := .detect, row := 2#14,
               idx := 0#14 } := by
  simp only [advanceThreshold, if_pos (bv14_succ_eq hi), if_pos (bv14_succ_eq hr), if_pos hh]

theorem advanceThreshold_to_done {s : State} (hi : s.idx.toNat + 1 = s.w.toNat) (hr : s.row.toNat + 1 = s.h.toNat)
    (hh : s.h.toNat < 5) : advanceThreshold s =
      { s with fsm := .seek, b1 := 0#16, w1 := 0#16, b2 := 0#16, field := .thresholded, phase := .done, row := s.row + 1,
               idx := 0#14 } := by
  simp only [advanceThreshold, if_pos (bv14_succ_eq hi), if_pos (bv14_succ_eq hr), if_neg (by omega : ¬5 ≤ s.h.toNat)]

end Sys2Proof.Machine
end

