-- ==== Sys2Proof/Tests/Slice0.lean ====
section
/-! SUPPORT. The model's own tests, each expected value from the spec's file it names, and a witness for the hypotheses of every
obligation that has hypotheses. -/

namespace Sys2Proof.Tests

-- one test after another: many kernel evaluations waiting side by side ask for more threads than the check's memory limit holds
set_option Elab.async false

open Sys2Proof Sys2Proof.Machine

/-! ### Helpers -/

/-- The next state of an outcome. -/
def nextOf : Host.Outcome State Fault Refusal → Option State
  | .next t => some t
  | .fault _ => none
  | .refused _ => none

/-- The outcome is a next state with the property `P`. -/
def nextHas (o : Host.Outcome State Fault Refusal) (P : State → Bool) : Bool :=
  match nextOf o with
  | some t => P t
  | none => false

theorem exists_next {o : Host.Outcome State Fault Refusal} {P : State → Bool} (h : nextHas o P = true) :
    ∃ t, o = .next t ∧ P t = true := by
  unfold nextHas at h
  cases o <;> simp [nextOf] at h ⊢
  exact h

/-- Pixel memory from its words. -/
def wordsFrom (k : Nat) : List Word → Memory
  | [] => []
  | v :: vs => (4 * k, v.extractLsb' 0 8) :: (4 * k + 1, v.extractLsb' 8 8) :: (4 * k + 2, v.extractLsb' 16 8) ::
      (4 * k + 3, v.extractLsb' 24 8) :: wordsFrom (k + 1) vs

/-- A small block: 30 pixel words, 2 symbols. -/
def smallParams : Params where
  maxPixels  := 30
  nSym       := 2
  avgInit    := 128
  opaqueMark := 0xFF000000#32

/-- The small block after reset. -/
def small : State := State.resetOf smallParams

/-- An open load stream at byte count `n`, its received pixels black. -/
def loading (n : Nat) : State :=
  { small with field := .raw, bc := BitVec.ofNat 26 n, mem := wordsFrom 0 (List.replicate (n / 3) 0xFF000000#32) }

/-- A completely loaded image of `w` by `h` black pixels. -/
def loadedImage (w h : Nat) : State :=
  { loading (3 * (w * h)) with w := BitVec.ofNat 14 w, h := BitVec.ofNat 14 h }

/-- The threshold pass on `w` by `h` words `vs`, at position `idx` of row `row`, the automaton in SEEK. -/
def thresholding (w h : Nat) (vs : List Word) (row idx : Nat) : State :=
  { small with
    w := BitVec.ofNat 14 w, h := BitVec.ofNat 14 h, field := .inThreshold, phase := .thresh, mem := wordsFrom 0 vs, avg := 128#24,
    row := BitVec.ofNat 14 row, idx := BitVec.ofNat 14 idx }

/-- The detect pass on `w` by `h` thresholded words `vs`, at `(x, y)`. -/
def detecting (w h : Nat) (vs : List Word) (x y : Nat) : State :=
  { thresholding w h vs y x with field := .thresholded, phase := .detect }

/-- The same with the request of `(x, y)` outstanding. -/
def waiting (w h : Nat) (vs : List Word) (x y : Nat) : State :=
  { detecting w h vs x y with phase := .waitDec, reqX := BitVec.ofNat 14 x, reqY := BitVec.ofNat 14 y }

/-- A thresholded word with stored accumulator 100, flagged or not. -/
def cell (flagged : Bool) : Word := if flagged then 0x02000064#32 else 0x00000064#32

/-- A 5 by 5 field whose pixel (2, 2) and its four neighbours are flagged. -/
def plus : List Word :=
  (List.replicate 7 (cell false) ++ [cell true] ++ List.replicate 3 (cell false)) ++
  ([cell true, cell true, cell true] ++ List.replicate 3 (cell false) ++ [cell true] ++ List.replicate 7 (cell false))

/-- A field with no flag. -/
def plain (n : Nat) : List Word := List.replicate n (cell false)

/-- One accepted symbol: code 31, centre (5.5, 2), unit 2 (42_detect.md R164's example). -/
def sym31 : Sym := ⟨31#13, 0x00058000#32, 0x00020000#32, 0x00020000#32, 0#32⟩

/-- `Inv`, computed. -/
def invCheck (s : State) : Bool :=
  decide (s.params.Legal ∧ s.maxUnit.toNat ≤ 8192 ∧ s.bc.toNat ≤ 3 * s.params.maxPixels) &&
  s.mem.wf && s.mem.all (fun c => decide (c.1 < 4 * s.params.maxPixels)) &&
  decide (s.avg.toNat ≤ 7650 ∧ s.syms.length ≤ s.params.nSym ∧ s.ccount.toNat ≤ s.params.maxPixels) && s.syms.all Sym.valid &&
  (decide (s.field ≠ .raw) || (List.range (s.bc.toNat / 3)).all s.written) &&
  (decide (s.phase = .thresh) == decide (s.field = .inThreshold)) &&
  (decide (s.phase = .detect ∨ s.phase = .waitDec) → decide (s.field = .thresholded)) &&
  (!s.busy || (decide (1 ≤ s.w.toNat ∧ 1 ≤ s.h.toNat ∧ s.w.toNat * s.h.toNat ≤ s.params.maxPixels) &&
    (List.range (s.w.toNat * s.h.toNat)).all s.written)) &&
  (decide (s.phase ≠ .thresh) || (decide (s.row.toNat < s.h.toNat ∧ s.idx.toNat < s.w.toNat) &&
    (match s.fsm with
      | .seek   => decide (s.b1.toNat = 0 ∧ s.w1.toNat = 0 ∧ s.b2.toNat = 0)
      | .first  => decide (1 ≤ s.b1.toNat ∧ s.w1.toNat = 0 ∧ s.b2.toNat = 0)
      | .white  => decide (1 ≤ s.b1.toNat ∧ 1 ≤ s.w1.toNat ∧ s.b2.toNat = 0)
      | .second => decide (1 ≤ s.b1.toNat ∧ 1 ≤ s.w1.toNat ∧ 1 ≤ s.b2.toNat)) &&
    decide (s.b1.toNat + s.w1.toNat + s.b2.toNat ≤ s.idx.toNat ∧
      s.ccount.toNat + s.w1.toNat + s.b2.toNat ≤ s.row.toNat * s.w.toNat + s.idx.toNat))) &&
  (decide (s.phase ≠ .detect ∧ s.phase ≠ .waitDec) ||
    decide (2 ≤ s.row.toNat ∧ s.row.toNat + 3 ≤ s.h.toNat ∧ s.idx.toNat < s.w.toNat)) &&
  (decide (s.phase ≠ .waitDec) || decide (s.reqX = s.idx ∧ s.reqY = s.row))

theorem inv_of_check {s : State} (h : invCheck s = true) : Inv s := by
  simp only [invCheck, Bool.and_eq_true, Bool.or_eq_true, decide_eq_true_eq, List.all_eq_true, beq_iff_eq, decide_eq_decide,
    List.mem_range, Bool.not_eq_true', ne_eq] at h
  obtain ⟨⟨⟨⟨⟨⟨⟨⟨⟨⟨⟨⟨h1, h2, h3⟩, h4⟩, h5⟩, h6, h7, h8⟩, h9⟩, h10⟩, h11⟩, h12⟩, h13⟩, h14⟩, h15⟩, h16⟩ := h
  have hb : s.busy = true → s.busy ≠ false := by simp
  exact {
    legal := h1, maxUnit := h2, bc := h3, memWf := h4, memBound := h5, avg := h6, symsBound := h7, symsValid := h9, ccount := h8
    loaded := fun hf => h10.resolve_left (fun h => h hf)
    threshField := h11
    scanField := fun hp => by simpa using h12 hp
    image := fun hs => (h13.resolve_left (hb hs)).1
    imageRead := fun hs => (h13.resolve_left (hb hs)).2
    threshPos := fun hp => (h14.resolve_left (fun h => h hp)).1.1
    automaton := fun hp => by
      obtain ⟨⟨-, ha⟩, hc⟩ := h14.resolve_left (fun h => h hp)
      refine ⟨?_, hc⟩
      cases hf : s.fsm <;> simp only [hf, decide_eq_true_eq] at ha ⊢ <;> exact ha
    detectPos := fun hp => h15.resolve_left (fun h => hp.elim h.1 h.2)
    request := fun hp => h16.resolve_left (fun h => h hp) }

/-- `FieldInv`, computed on every pixel of the image. -/
def fieldCheck (s : State) : Bool :=
  (List.range s.w.toNat).all fun x => (List.range s.h.toNat).all fun y =>
    let v := s.pixel (y * s.w.toNat + x)
    decide (v.toNat < 2 ^ 26 ∧ bits v 0 24 ≤ 7650 ∧ (v.getLsbD 25 = true → 1 ≤ x ∧ x + 2 ≤ s.w.toNat))

theorem fieldInv_of_check {s : State} (h : fieldCheck s = true) : FieldInv s := by
  intro _ x y hx hy _
  simp only [fieldCheck, List.all_eq_true, List.mem_range, decide_eq_true_eq] at h
  exact h x hx y hy

/-! ### WellFormed: one ill-formed command a check (30_encoding.md R89) -/

theorem test_wf_refuses_wide_width : (Instr.setDims 16384 1).wellFormed = false := by decide
theorem test_wf_refuses_wide_height : (Instr.setDims 1 16384).wellFormed = false := by decide
theorem test_wf_refuses_wide_diameter : (Instr.setDiameter 65536).wellFormed = false := by decide
theorem test_wf_refuses_wide_byte : (Instr.loadByte 256).wellFormed = false := by decide
theorem test_wf_refuses_wide_red : (Instr.loadPixel 256 0 0).wellFormed = false := by decide
theorem test_wf_refuses_wide_green : (Instr.loadPixel 0 256 0).wellFormed = false := by decide
theorem test_wf_refuses_wide_blue : (Instr.loadPixel 0 0 256).wellFormed = false := by decide
theorem test_wf_refuses_wide_code : (Instr.decOk 8192).wellFormed = false := by decide

/-! ### Decoding words written out from the formats of 30_encoding.md R81, field by field: OP, then the payload -/

theorem test_decode_nop : decode (0x0#4 ++ 0#28) = .ok .nop := by decide
theorem test_decode_setDims : decode (0x1#4 ++ 8#14 ++ 12#14) = .ok (.setDims 12 8) := by decide
theorem test_decode_setDiameter : decode (0x2#4 ++ 0#12 ++ 100#16) = .ok (.setDiameter 100) := by decide
theorem test_decode_loadReset : decode (0x3#4 ++ 0#28) = .ok .loadReset := by decide
theorem test_decode_loadByte : decode (0x4#4 ++ 0#20 ++ 40#8) = .ok (.loadByte 40) := by decide
theorem test_decode_loadPixel : decode (0x5#4 ++ 0#4 ++ 10#8 ++ 20#8 ++ 30#8) = .ok (.loadPixel 10 20 30) := by decide
theorem test_decode_start : decode (0x6#4 ++ 0#28) = .ok .start := by decide
theorem test_decode_abort : decode (0x7#4 ++ 0#28) = .ok .abort := by decide
theorem test_decode_decOk : decode (0x8#4 ++ 0#15 ++ 31#13) = .ok (.decOk 31) := by decide
theorem test_decode_decFail : decode (0x9#4 ++ 0#28) = .ok .decFail := by decide
theorem test_decode_clrErr : decode (0xA#4 ++ 0#28) = .ok .clrErr := by decide
theorem test_decode_softReset : decode (0xB#4 ++ 0#28) = .ok .softReset := by decide

/-- 30_encoding.md R84, R85: every reserved opcode; one reserved bit of each format. -/
theorem test_decode_rejects_by_name :
    decode 0xC0000000#32 = .error .reservedOpcode ∧ decode 0xFFFFFFFF#32 = .error .reservedOpcode ∧
    decode 0x00000001#32 = .error (.reservedPayload .nop) ∧ decode 0x20010000#32 = .error (.reservedPayload .setDiameter) ∧
    decode 0x40000100#32 = .error (.reservedPayload .loadByte) ∧ decode 0x51000000#32 = .error (.reservedPayload .loadPixel) ∧
    decode 0x80002000#32 = .error (.reservedPayload .decOk) ∧ decode 0x90000001#32 = .error (.reservedPayload .decFail) := by decide

/-- The words of 95_test_vectors.md section 7, from their source lines. -/
theorem test_encode_section7 :
    encode .nop = 0x00000000#32 ∧ encode (.setDims 2 1) = 0x10004002#32 ∧ encode (.setDims 16383 16383) = 0x1FFFFFFF#32 ∧
    encode (.setDiameter 640) = 0x20000280#32 ∧ encode .loadReset = 0x30000000#32 ∧ encode (.loadByte 255) = 0x400000FF#32 ∧
    encode (.loadPixel 255 255 255) = 0x50FFFFFF#32 ∧ encode .start = 0x60000000#32 ∧ encode .abort = 0x70000000#32 ∧
    encode (.decOk 8191) = 0x80001FFF#32 ∧ encode .decFail = 0x90000000#32 ∧ encode .clrErr = 0xA0000000#32 ∧
    encode .softReset = 0xB0000000#32 := by decide

/-- 30_encoding.md R90: both forms of SET_MAXUNIT give the maxUnit asked for. -/
theorem test_setMaxUnit : setMaxUnit 80 = .setDiameter 640 ∧ setMaxUnit 8192 = .setDiameter 65535 ∧ ceil8 65535 = 8192 := by decide

/-! ### Arithmetic tables -/

/-- 95_test_vectors.md section 5. -/
theorem test_ceil8 : [0, 1, 7, 8, 9, 16, 17, 100, 640, 65535].map ceil8 = [0, 1, 1, 1, 2, 2, 3, 13, 80, 8192] := by decide

/-- 95_test_vectors.md section 2.4. -/
theorem test_intensity : [0xFF0A141E#32, 0xFFFF0000#32, 0xFF1E1E1F#32, 0xFFFFFFFF#32, 0x00000001#32].map intensity =
    [20, 85, 30, 255, 0] := by decide

/-- 95_test_vectors.md section 2.3. -/
theorem test_accumulate :
    [(0, 0), (29, 0), (30, 0), (128, 0), (128, 255), (1000, 100), (7649, 255), (7650, 255), (7650, 0)].map
      (fun p => accumulate p.1 p.2) = [0, 29, 29, 124, 379, 1067, 7650, 7650, 7395] := by decide

/-- 95_test_vectors.md section 2.2: the cut points, white at the cut and black one below it. -/
theorem test_isWhite_cut :
    [(0, 0), (1, 1), (10, 10), (39, 39), (40, 39), (41, 40), (80, 78), (100, 98), (200, 195), (255, 249)].all
      (fun p => isWhite p.2 p.1 && (p.2 == 0 || !isWhite (p.2 - 1) p.1)) = true := by decide

/-- 95_test_vectors.md section 3.1, the rows that pass. -/
theorem test_accept_true :
    [(2, 4, 2), (2, 2, 2), (2, 8, 2), (2, 4, 4), (80, 160, 80), (3, 3, 2), (3, 10, 2), (3, 11, 3)].all
      (fun p => accept p.1 p.2.1 p.2.2 80) = true := by decide

/-- 95_test_vectors.md section 3.1, the rows that fail. -/
theorem test_accept_false :
    [(1, 4, 2), (2, 4, 1), (2, 1, 2), (2, 9, 2), (2, 4, 5), (81, 160, 80), (80, 161, 80), (4, 1, 2)].all
      (fun p => !accept p.1 p.2.1 p.2.2 80) = true ∧ accept 2 3 3 1 = false ∧ accept 2 2 2 0 = false := by decide

/-- 95_test_vectors.md section 3.2, and the sign of 41_threshold.md R147. -/
theorem test_window_centre :
    [(2, 4), (2, 5), (3, 3), (2, 2), (80, 160)].map (fun p => windowOffset p.1 p.2) = [5, 5, 5, 4, 161] ∧
    windowCentre 0 10 2 4 = 5 ∧ windowCentre 1 13 2 4 = 18 := by decide

/-- 95_test_vectors.md section 4.2. -/
theorem test_inBullseye :
    sym31.inBullseye 6 3 = true ∧ sym31.inBullseye 5 4 = false ∧
    (⟨31#13, 0xFFFF0000#32, 0#32, 0x00010000#32, 0#32⟩ : Sym).inBullseye 0 0 = true ∧
    (⟨31#13, 0xFFFF0000#32, 0#32, 0x0000FFFF#32, 0#32⟩ : Sym).inBullseye 0 0 = false ∧
    (⟨31#13, 0x00018000#32, 0x00018000#32, 0x0000B505#32, 0#32⟩ : Sym).inBullseye 1 1 = true ∧
    (⟨31#13, 0x00018000#32, 0x00018000#32, 0x0000B504#32, 0#32⟩ : Sym).inBullseye 1 1 = false := by decide

/-- 95_test_vectors.md section 4.3. -/
theorem test_checksum : [31, 55, 93, 0x1F00, 0x3E, 0x1001F].all checksum = true ∧ [0, 7, 0x1FFF].all (fun c => !checksum c) = true := by
  decide

/-! ### One step each: the rows of 95_test_vectors.md sections 3.3, 5 and 6 and the worked examples of the commands' rules -/

/-- The STATUS word after one command from `s`. -/
def statusAfter (c : Word) (s : State) (status : Word) : Bool :=
  nextHas (step (s.withFetchWord 32 c.toNat)) fun t => t.status == status

theorem test_nop_status : statusAfter 0x00000000#32 State.reset 0#32 = true := by decide +kernel
theorem test_illegal_status : statusAfter 0x00000001#32 State.reset 0x400#32 = true ∧
    statusAfter 0xC0000000#32 State.reset 0x400#32 = true := by decide +kernel
theorem test_setDims_config : nextHas (step (State.reset.withFetchWord 32 0x1002000C)) (fun t => t.readReg .config == 0x0002000C#32) =
    true := by decide +kernel
theorem test_setDiameter_maxunit : nextHas (step (State.reset.withFetchWord 32 0x20000064)) (fun t => t.maxUnit == 13#16) = true := by
  decide +kernel
theorem test_loadReset_status : statusAfter 0x30000000#32 State.reset 0x10#32 = true := by decide +kernel
theorem test_loadByte_without_stream : statusAfter 0x40000005#32 State.reset 0x800#32 = true := by decide +kernel
theorem test_loadByte_third_byte :
    nextHas (exec (.loadByte 60) { loading 3 with bc := 5#26, stgR := 40#8, stgG := 50#8 })
      (fun t => t.pixel 1 == 0xFF28323C#32 && t.bc == 6#26) = true := by decide +kernel
theorem test_loadPixel_word : nextHas (exec (.loadPixel 10 20 30) (loading 0)) (fun t => t.pixel 0 == 0xFF0A141E#32 && t.bc == 3#26) =
    true := by decide +kernel
theorem test_loadPixel_mixed :
    nextHas (exec (.loadPixel 2 3 4) { loading 0 with bc := 1#26, stgR := 1#8 })
      (fun t => t.pixel 0 == 0xFF010203#32 && t.stgR == 4#8 && t.bc == 4#26) = true := by decide +kernel
theorem test_start_accepted : statusAfter 0x60000000#32 (loadedImage 2 1) 0x29#32 = true := by decide +kernel
theorem test_start_refused : statusAfter 0x60000000#32 State.reset 0x100#32 = true := by decide +kernel
theorem test_abort_status : statusAfter 0x70000000#32 (thresholding 12 1 (plain 12) 0 0) 0x8000#32 = true := by decide +kernel
theorem test_abort_idle : statusAfter 0x70000000#32 State.reset 0#32 = true := by decide +kernel
theorem test_decOk_appends :
    nextHas (exec (.decOk 31)
        { waiting 5 5 plus 2 2 with respX := 0x00058000#32, respY := 0x00020000#32, respUnit := 0x00020000#32 })
      (fun t => t.syms == [sym31] && t.status == 0x3A#32 && t.symWord 0 0 == 0x8000001F#32) = true := by decide +kernel
theorem test_decOk_full :
    nextHas (exec (.decOk 31) { waiting 5 5 plus 2 2 with respUnit := 1#32, syms := [sym31, sym31] })
      (fun t => t.status == 0x2034#32 && t.syms.length == 2) = true := by decide +kernel
theorem test_decFail_resumes : statusAfter 0x90000000#32 (waiting 5 5 plus 2 2) 0x3A#32 = true := by decide +kernel
theorem test_decFail_no_request : statusAfter 0x90000000#32 State.reset 0x800#32 = true := by decide +kernel
theorem test_clrErr_status : statusAfter 0xA0000000#32 { State.reset with errs := 0x09#8 } 0#32 = true := by decide +kernel
theorem test_softReset_status :
    nextHas (step ((waiting 5 5 plus 2 2).withFetchWord 32 0xB0000000))
      (fun t => t.status == 0#32 && t.maxUnit == 80#16 && t.pixel 12 == cell true) = true := by decide +kernel

/-- 95_test_vectors.md section 6: ERR_ILLEGAL before ERR_BUSY before ERR_PROTO. -/
theorem test_error_priority : statusAfter 0x40000105#32 (thresholding 2 1 (plain 2) 0 0) 0x429#32 = true ∧
    statusAfter 0x40000005#32 (thresholding 2 1 (plain 2) 0 0) 0x229#32 = true := by decide +kernel

/-- 95_test_vectors.md section 6: refused reads and writes, and IRQ_EN's mask. -/
theorem test_bus_refusals :
    nextHas (step { small with inputs := [.read 0x58#32] }) (fun t => t.rdata == some 0#32 && t.err .bus) = true ∧
    nextHas (step { small with inputs := [.read 0x09#32] }) (fun t => t.rdata == some 0#32 && t.err .bus) = true ∧
    nextHas (step { loading 3 with inputs := [.write 0x04000000#32 0#32] })
      (fun t => t.err .bus && t.pixel 0 == 0xFF000000#32) = true ∧
    nextHas (step { small with inputs := [.write 0x034#32 0xFFFFFFFF#32] }) (fun t => t.readReg .irqEn == 7#32) = true := by
  decide +kernel

/-- 60_exceptions.md R218's example: STATUS with a request outstanding and EN_REQ set. -/
theorem test_irq_status : ({ waiting 5 5 plus 2 2 with irqEn := 2#3 } : State).status = 0x0001003B#32 := by decide +kernel

/-- 95_test_vectors.md section 2.1, step 0 and (a row below) step 3. -/
theorem test_threshold_step :
    nextHas (coreStep (thresholding 3 2 [0xFF0A141E#32, 0xFFC8C8C8#32, 0xFF000000#32, 0xFF5A5A5A#32, 0xFFFF0000#32, 0xFF1E1E1F#32] 0 0))
      (fun t => t.pixel 0 == 0x01000090#32 && t.idx == 1#14) = true ∧
    nextHas (coreStep { thresholding 3 2
        [0x01000090#32, 0x01000154#32, 0x00000149#32, 0xFF5A5A5A#32, 0xFFFF0000#32, 0xFF1E1E1F#32] 1 0 with avg := 329#24 })
      (fun t => t.pixel 5 == 0x0100015D#32 && t.avg == 349#24) = true := by decide +kernel

/-- The row of 95_test_vectors.md section 3.3 just before column 10. -/
def stripes : State :=
  { thresholding 12 1
      [0x0100017B#32, 0x0100026E#32, 0x0000025A#32, 0x00000246#32, 0x01000332#32, 0x01000416#32, 0x010004F3#32, 0x010005C8#32,
       0x00000597#32, 0x00000568#32, 0xFFFFFFFF#32, 0xFFFFFFFF#32] 0 10 with
    avg := 1384#24, fsm := .second, b1 := 2#16, w1 := 4#16, b2 := 2#16 }

/-- 95_test_vectors.md section 3.3, column 10: accepted, words 4, 5, 6 flagged, the automaton back in WHITE. -/
theorem test_acceptance_step :
    nextHas (coreStep stripes) (fun t => t.pixel 4 == 0x03000332#32 && t.pixel 5 == 0x03000416#32 && t.pixel 6 == 0x030004F3#32 &&
      t.pixel 10 == 0x01000639#32 && t.pixel 3 == 0x00000246#32 && t.ccount == 3#32) = true ∧
    nextHas (coreStep stripes) (fun t => t.fsm == .white && t.b1 == 2#16 && t.w1 == 1#16 && t.b2 == 0#16 && t.avg == 1593#24) =
      true := by decide +kernel

/-- 42_detect.md R161's first request, here of pixel (2, 2), and the end of the pass of R165 from the last pixel of row H-3. -/
theorem test_detect_step :
    nextHas (coreStep (detecting 5 5 plus 2 2)) (fun t => t.status == 0x3B#32 && t.readReg .req == 0x00008002#32) = true ∧
    nextHas (coreStep (detecting 5 5 plus 4 2)) (fun t => t.status == 0x34#32 && t.readReg .pos == 0x0000C000#32) = true := by
  decide +kernel

/-- The host's two questions, on one command: decoded, and run as the first step after reset. -/
theorem test_fetch : decodeTableWord 32 0x20000064 = some (.setDiameter 100) ∧
    nextHas (step (State.reset.withFetchWord 32 0x20000064)) (fun t => t == { State.reset with maxUnit := 13#16 }) = true := by
  decide +kernel

/-! ### Witnesses: the hypotheses of each obligation, met together -/

/-- A scan in its threshold pass, one pixel. -/
def busyState : State := thresholding 1 1 (plain 1) 0 0

/-- A request outstanding on the last pixel of the last row, with a good response staged. -/
def answering : State := { waiting 5 5 plus 4 2 with respUnit := 1#32 }

/-- The same state with the core scheduled before a pending bus read. -/
def scheduled (s : State) : State := { s with inputs := [.core, .read 0x008#32] }

theorem inv_stripes : Inv stripes := inv_of_check (by decide +kernel)
theorem inv_detecting : Inv (detecting 5 5 plus 2 2) := inv_of_check (by decide +kernel)
theorem inv_waiting : Inv (waiting 5 5 plus 2 2) := inv_of_check (by decide +kernel)
theorem fieldInv_detecting : FieldInv (detecting 5 5 plus 2 2) := fieldInv_of_check (by decide +kernel)
theorem fieldInv_waiting : FieldInv (waiting 5 5 plus 2 2) := fieldInv_of_check (by decide +kernel)

theorem witness_EncodeThenDecodeGivesTheCommand :
    [Instr.nop, .setDims 0 0, .setDims 16383 16383, .setDiameter 65535, .loadReset, .loadByte 255, .loadPixel 255 255 255, .start, .abort,
      .decOk 8191, .decFail, .clrErr, .softReset].all Instr.wellFormed = true := by decide

theorem witness_DecodedWordReencodes : decode 0x1FFFFFFF#32 = .ok (.setDims 16383 16383) := by decide

theorem witness_DecodingFollowsTheDisjointTableRows :
    0x80001FFF#32 &&& Op.decOk.mask = Op.decOk.pattern ∧ ∀ op ∈ Op.all, 0x80002000#32 &&& op.mask ≠ op.pattern := by decide

theorem witness_StepExecutesTheDecodedCommand :
    ({ small with inputs := [.write 0x004#32 0x30000000#32] } : State).inputs = .write 0x004#32 0x30000000#32 :: [] ∧
      decode 0x30000000#32 = .ok .loadReset ∧ decodeTableWord 32 0x30000000 = some .loadReset := by decide

theorem witness_IllegalWordOnlySetsErrIllegal :
    ({ small with inputs := [.write 0x004#32 0xC0000000#32] } : State).inputs = .write 0x004#32 0xC0000000#32 :: [] ∧
      12 ≤ bits 0xC0000000#32 28 4 ∧
      bits 0x40000100#32 28 4 = bits Op.loadByte.pattern 28 4 ∧ 0x40000100#32 &&& Op.loadByte.mask ≠ Op.loadByte.pattern := by decide

theorem witness_CoreMovesOnlyInThePasses :
    (small.inputs = [] ∧ small.phase ≠ .thresh ∧ small.phase ≠ .detect) ∧
    (({ small with inputs := [.core] } : State).inputs = .core :: [] ∧ small.phase ≠ .thresh ∧ small.phase ≠ .detect) ∧
    ((scheduled busyState).coreMoves ∧ (scheduled busyState).phase = .thresh ∧
      nextHas (step (scheduled busyState)) (fun t => t.inputs == [.read 0x008#32]) = true) ∧
    (busyState.coreMoves ∧ busyState.phase = .thresh ∧ nextHas (step busyState) (fun _ => true) = true) ∧
    ((detecting 5 5 plus 2 2).coreMoves ∧ (detecting 5 5 plus 2 2).phase = .detect ∧
      nextHas (step (detecting 5 5 plus 2 2)) (fun _ => true) = true) := by decide +kernel

theorem witness_NopChangesNothing :
    (1 ≤ (0x00000001#32).toNat ∧ (0x00000001#32).toNat < 2 ^ 28) ∧ 1 ≤ (0x0FFFFFFF#32).toNat ∧ (0x0FFFFFFF#32).toNat < 2 ^ 28 := by
  decide

theorem witness_SetDimsStoresTheDimensions :
    bits 0x10000000#32 28 4 = 1 ∧ bits 0x1FFFFFFF#32 28 4 = 1 ∧ busyState.busy = true ∧ small.busy = false := by decide

theorem witness_SetDiameterSetsMaxUnit :
    0x2000FFFF#32 &&& 0xFFFF0000#32 = 0x20000000#32 ∧ busyState.busy = true ∧ small.busy = false ∧ 65535 ≤ 65535 ∧ 0 ≤ 65535 ∧
      1 < 2 := by decide

theorem witness_LoadResetOpensAStream : busyState.busy = true ∧ small.busy = false := by decide

theorem witness_LoadByteAcceptsOneByte :
    0x400000FF#32 &&& 0xFFFFFF00#32 = 0x40000000#32 ∧ busyState.busy = true ∧ (small.busy = false ∧ small.field ≠ .raw) ∧
    ((loading 90).busy = false ∧ (loading 90).field = .raw ∧ (loading 90).bc.toNat = 3 * (loading 90).params.maxPixels) ∧
    ((loading 87).busy = false ∧ (loading 87).field = .raw ∧ (loading 87).bc.toNat < 3 * (loading 87).params.maxPixels ∧
      (loading 87).bc.toNat % 3 = 0) ∧
    ((loading 88).busy = false ∧ (loading 88).field = .raw ∧ (loading 88).bc.toNat < 3 * (loading 88).params.maxPixels ∧
      (loading 88).bc.toNat % 3 = 1) ∧
    ((loading 89).busy = false ∧ (loading 89).field = .raw ∧ (loading 89).bc.toNat < 3 * (loading 89).params.maxPixels ∧
      (loading 89).bc.toNat % 3 = 2) := by decide

theorem witness_LoadPixelIsThreeLoadBytes :
    0x50FFFFFF#32 &&& 0xFF000000#32 = 0x50000000#32 ∧ busyState.busy = true ∧ (small.busy = false ∧ small.field ≠ .raw) ∧
    (loading 0).busy = false ∧ (loading 0).field = .raw := by decide

theorem witness_LoadPixelCompletes :
    (loading 87).params.Legal ∧ (loading 87).busy = false ∧ (loading 87).field = .raw ∧
    ((loading 87).bc.toNat + 3 ≤ 3 * (loading 87).params.maxPixels ∧ (loading 87).bc.toNat % 3 = 0) ∧
    (loading 90).bc.toNat ≤ 3 * (loading 90).params.maxPixels := by decide

theorem witness_LoadedStreamPacksTheImage :
    small.params.Legal ∧ small.busy = false ∧ (List.replicate 90 7).length ≤ 3 * small.params.maxPixels ∧
      3 * 29 + 2 < (List.replicate 90 7).length := by decide

theorem witness_StartAcceptsALoadedImageOnly :
    busyState.busy = true ∧
    ((loadedImage 5 6).busy = false ∧ (loadedImage 5 6).field = .raw ∧ (loadedImage 5 6).loadOvf = false ∧
      1 ≤ (loadedImage 5 6).w.toNat ∧ 1 ≤ (loadedImage 5 6).h.toNat ∧
      (loadedImage 5 6).w.toNat * (loadedImage 5 6).h.toNat ≤ (loadedImage 5 6).params.maxPixels ∧
      (loadedImage 5 6).bc.toNat = 3 * ((loadedImage 5 6).w.toNat * (loadedImage 5 6).h.toNat)) ∧
    (small.busy = false ∧ ¬small.field = .raw) := by decide

theorem witness_AbortEndsARunningScan :
    busyState.busy = true ∧ (detecting 5 5 plus 2 2).busy = true ∧ (waiting 5 5 plus 2 2).busy = true ∧ small.busy = false := by decide

theorem witness_DecOkAppendsOrDropsTheCandidate :
    0x80001FFF#32 &&& 0xFFFFE000#32 = 0x80000000#32 ∧ small.phase ≠ .waitDec ∧
    ((waiting 5 5 plus 2 2).phase = .waitDec ∧ (popcount13 0 ≠ 5 ∨ (waiting 5 5 plus 2 2).respUnit = 0#32) ∧ popcount13 8191 ≠ 5) ∧
    (answering.phase = .waitDec ∧ popcount13 31 = 5 ∧ answering.respUnit ≠ 0#32 ∧
      ({ answering with syms := [sym31, sym31] } : State).syms.length = answering.params.nSym) ∧
    ({ answering with syms := [sym31] } : State).syms.length ≠ answering.params.nSym := by decide

theorem witness_DecFailDropsTheCandidate : small.phase ≠ .waitDec ∧ answering.phase = .waitDec := by decide

theorem witness_HardwareResetLeavesTheResetTable : ({ busyState with inputs := [.reset] } : State).inputs = .reset :: [] := by decide

theorem witness_RunningScanIsNotReconfigured :
    (busyState.busy = true ∧ Instr.start.op ∈ [Op.setDims, Op.setDiameter, Op.loadReset, Op.loadByte, Op.loadPixel, Op.start]) ∧
    ({ busyState with inputs := [command .nop] } : State).busy = true ∧
    nextHas (step { busyState with inputs := [command .nop] }) (fun t => t.busy) = true ∧
    ({ busyState with inputs := [command .nop] } : State).inputs ≠ [] ∧
    ({ busyState with inputs := [command .nop] } : State).inputs.head? ≠ some .core := by decide +kernel

theorem witness_EachRegisterHasItsOwnWriters :
    exec .nop small = .next small ∧ Instr.nop.op ∉ [Op.setDims, Op.softReset] ∧ Instr.nop.op ∉ [Op.setDiameter, Op.softReset] ∧
    Instr.nop.op ∉ [Op.loadReset, Op.loadByte, Op.loadPixel, Op.start, Op.abort, Op.decOk, Op.decFail, Op.softReset] :=
  ⟨rfl, by decide⟩

theorem witness_ErrorBitsAreSticky :
    ({ small with errs := 0x09#8, inputs := [command .clrErr] } : State).err .proto = true ∧
    ∃ t, step { small with errs := 0x09#8, inputs := [command .clrErr] } = .next t ∧ (!t.err .proto) = true :=
  ⟨by decide, exists_next (by decide +kernel)⟩

theorem witness_AtMostOneErrorPerTransaction :
    small.err .bus = false ∧ ∃ t, step { small with inputs := [.read 0x058#32] } = .next t ∧ t.err .bus = true :=
  ⟨by decide, exists_next (P := fun t => t.err .bus) (by decide +kernel)⟩

theorem witness_CoreStepFrame :
    coreStep small = .next small ∧ (∃ t, coreStep busyState = .next t ∧ decide (busyState.phase ≠ .detect) = true) ∧
    ∃ t, coreStep (detecting 5 5 plus 2 2) = .next t ∧ decide ((detecting 5 5 plus 2 2).phase ≠ .thresh) = true :=
  ⟨rfl, exists_next (P := fun _ => decide (busyState.phase ≠ .detect)) (by decide +kernel),
    exists_next (P := fun _ => decide ((detecting 5 5 plus 2 2).phase ≠ .thresh)) (by decide +kernel)⟩

theorem witness_ThresholdStepClassifiesThePixel :
    (Inv stripes ∧ stripes.coreMoves ∧ stripes.phase = .thresh ∧ ¬1 ≤ stripes.row.toNat) ∧
    (Inv (scheduled stripes) ∧ (scheduled stripes).coreMoves ∧ (scheduled stripes).phase = .thresh) ∧
    (Inv (thresholding 3 2 (plain 6) 1 2) ∧ (thresholding 3 2 (plain 6) 1 2).coreMoves ∧
      (thresholding 3 2 (plain 6) 1 2).phase = .thresh ∧ 1 ≤ (thresholding 3 2 (plain 6) 1 2).row.toNat) :=
  ⟨⟨inv_stripes, by decide⟩, ⟨inv_stripes.withInputs _, by decide⟩, inv_of_check (by decide +kernel), by decide⟩

theorem witness_AcceptanceFlagsExactlyTheWindow :
    (Inv (scheduled stripes) ∧ (scheduled stripes).coreMoves ∧ (scheduled stripes).phase = .thresh) ∧
    (∃ t, step (scheduled stripes) = .next t ∧ (decide (stripes.fsm = .second) && (t.pixel stripes.passWord).getLsbD 24 &&
      accept stripes.b1.toNat stripes.w1.toNat stripes.b2.toNat stripes.maxUnit.toNat) = true) ∧
    Inv busyState ∧ busyState.coreMoves ∧ busyState.phase = .thresh ∧ ¬busyState.fsm = .second :=
  ⟨⟨inv_stripes.withInputs _, by decide⟩,
    exists_next (P := fun t => decide (stripes.fsm = .second) && (t.pixel stripes.passWord).getLsbD 24 &&
      accept stripes.b1.toNat stripes.w1.toNat stripes.b2.toNat stripes.maxUnit.toNat) (by decide +kernel),
    inv_of_check (by decide +kernel), by decide⟩

/-- A row of 12 with the automaton in state `f`, its runs 2 pixels each, and a pixel of grey `v` to come. -/
def inFsm (f : Fsm) (b1 w1 b2 : Nat) (v : Word) : State :=
  { thresholding 12 1 (plain 10 ++ [v, cell false]) 0 10 with
    fsm := f, b1 := BitVec.ofNat 16 b1, w1 := BitVec.ofNat 16 w1, b2 := BitVec.ofNat 16 b2, avg := 1384#24 }

/-- Both classes in each of the four states. -/
theorem witness_AutomatonFollowsItsTable :
    ∀ v ∈ [0xFFFFFFFF#32, 0xFF000000#32], ∀ p ∈ [(Fsm.seek, 0, 0, 0), (Fsm.first, 2, 0, 0), (Fsm.white, 2, 4, 0), (Fsm.second, 2, 4, 2)],
      let s := inFsm p.1 p.2.1 p.2.2.1 p.2.2.2 v
      Inv s ∧ s.coreMoves ∧ s.phase = .thresh ∧ s.idx.toNat + 1 < s.w.toNat ∧
      ∃ t, step s = .next t ∧ ((t.pixel s.passWord).getLsbD 24 == decide (v = 0xFFFFFFFF#32)) = true := by
  intro v hv p hp
  simp only [List.mem_cons, List.not_mem_nil, or_false] at hv hp
  rcases hv with rfl | rfl <;> rcases hp with rfl | rfl | rfl | rfl <;>
    exact ⟨inv_of_check (by decide +kernel), .inl rfl, rfl, by decide,
      exists_next (P := fun t => (t.pixel _).getLsbD 24 == _) (by decide +kernel)⟩

/-- Inside a row; at the end of a row that is not the last; at the end of a last row, of 5 rows and of 4. -/
theorem witness_ThresholdStepAdvancesThePosition :
    (Inv (scheduled (thresholding 3 2 (plain 6) 0 1)) ∧ (scheduled (thresholding 3 2 (plain 6) 0 1)).coreMoves ∧
      (scheduled (thresholding 3 2 (plain 6) 0 1)).phase = .thresh) ∧
    (Inv (thresholding 3 2 (plain 6) 0 1) ∧ (thresholding 3 2 (plain 6) 0 1).coreMoves ∧ (thresholding 3 2 (plain 6) 0 1).idx.toNat + 1 < (thresholding 3 2 (plain 6) 0 1).w.toNat) ∧
    (Inv (thresholding 3 2 (plain 6) 0 2) ∧ (thresholding 3 2 (plain 6) 0 2).idx.toNat + 1 = (thresholding 3 2 (plain 6) 0 2).w.toNat ∧
      (thresholding 3 2 (plain 6) 0 2).row.toNat + 1 < (thresholding 3 2 (plain 6) 0 2).h.toNat) ∧
    (Inv (thresholding 1 5 (plain 5) 4 0) ∧ (thresholding 1 5 (plain 5) 4 0).idx.toNat + 1 = (thresholding 1 5 (plain 5) 4 0).w.toNat ∧
      (thresholding 1 5 (plain 5) 4 0).row.toNat + 1 = (thresholding 1 5 (plain 5) 4 0).h.toNat ∧
      5 ≤ (thresholding 1 5 (plain 5) 4 0).h.toNat) ∧
    (Inv (thresholding 1 4 (plain 4) 3 0) ∧ (thresholding 1 4 (plain 4) 3 0).idx.toNat + 1 = (thresholding 1 4 (plain 4) 3 0).w.toNat ∧
      (thresholding 1 4 (plain 4) 3 0).row.toNat + 1 = (thresholding 1 4 (plain 4) 3 0).h.toNat ∧
      (thresholding 1 4 (plain 4) 3 0).h.toNat < 5) :=
  ⟨⟨inv_of_check (by decide +kernel), by decide⟩, ⟨inv_of_check (by decide +kernel), by decide⟩,
    ⟨inv_of_check (by decide +kernel), by decide⟩, ⟨inv_of_check (by decide +kernel), by decide⟩,
    inv_of_check (by decide +kernel), by decide⟩

theorem witness_AccumulatorStaysInRange : 7650 ≤ 7650 ∧ 255 ≤ 255 ∧ 0 ≤ 7650 ∧ 0 ≤ 255 := by decide

theorem witness_ThresholdPassTakesWidthTimesHeightSteps :
    Inv (loadedImage 2 5) ∧ (loadedImage 2 5).busy = false ∧ (loadedImage 2 5).startOK = true ∧ (loadedImage 2 5).inputs = [] ∧
      ∃ u, exec .start (loadedImage 2 5) = .next u ∧ decide (u.phase = .thresh) = true :=
  ⟨inv_of_check (by decide +kernel), by decide, by decide, rfl, exists_next (P := fun u => decide (u.phase = .thresh)) (by decide +kernel)⟩

theorem witness_ProcessedPixelsKeepFlagAndClass :
    Inv stripes ∧ stripes.busy = true ∧ (∃ t, step stripes = .next t ∧ t.busy = true) ∧ 4 < stripes.w.toNat ∧ 0 < stripes.h.toNat ∧
      stripes.processed 4 0 :=
  ⟨inv_stripes, by decide, exists_next (P := State.busy) (by decide +kernel), by decide, by decide, fun _ => .inr ⟨rfl, by decide⟩⟩

theorem witness_BusCannotDisturbTheThresholdPass :
    ({ busyState with inputs := [.write 0x034#32 7#32] } : State).inputs = .write 0x034#32 7#32 :: [] ∧
    Input.write 0x034#32 7#32 ≠ .core ∧ busyState.phase = .thresh ∧
    nextHas (step { busyState with inputs := [.write 0x034#32 7#32] }) (fun t => decide (t.phase = .thresh)) = true ∧
    nextHas (step { busyState with inputs := [command .abort] }) (fun t => decide (t.phase = .idle)) = true := by decide +kernel

theorem witness_ThresholdStepDependsOnPassDataOnly :
    Inv stripes ∧ Inv { stripes with irqEn := 7#3, syms := [sym31] } ∧
    stripes.passData = ({ stripes with irqEn := 7#3, syms := [sym31] } : State).passData ∧ stripes.phase = .thresh ∧
    (∃ t, coreStep stripes = .next t ∧ t.busy = true) ∧ ∃ t, coreStep { stripes with irqEn := 7#3, syms := [sym31] } = .next t ∧ t.busy = true :=
  ⟨inv_stripes, inv_of_check (by decide +kernel), rfl, rfl, exists_next (P := State.busy) (by decide +kernel),
    exists_next (P := State.busy) (by decide +kernel)⟩

/-- A request; a contained pixel; an unflagged one. -/
theorem witness_DetectStepRequestsOrAdvances :
    (Inv (detecting 5 5 plus 2 2) ∧ (detecting 5 5 plus 2 2).coreMoves ∧ (detecting 5 5 plus 2 2).phase = .detect ∧
      nextHas (step (detecting 5 5 plus 2 2)) (fun t => decide (t.phase = .waitDec)) = true) ∧
    (Inv (scheduled (detecting 5 5 plus 2 2)) ∧ (scheduled (detecting 5 5 plus 2 2)).coreMoves ∧
      (scheduled (detecting 5 5 plus 2 2)).phase = .detect ∧
      nextHas (step (scheduled (detecting 5 5 plus 2 2))) (fun t => decide (t.phase = .waitDec)) = true) ∧
    (Inv { detecting 5 5 plus 2 2 with syms := [⟨31#13, 0x00020000#32, 0x00020000#32, 1#32, 0#32⟩] } ∧
      ({ detecting 5 5 plus 2 2 with syms := [⟨31#13, 0x00020000#32, 0x00020000#32, 1#32, 0#32⟩] } : State).contained 2 2 = true) ∧
    (Inv (detecting 1 5 (plain 5) 0 2) ∧ (detecting 1 5 (plain 5) 0 2).coreMoves ∧ (detecting 1 5 (plain 5) 0 2).phase = .detect ∧
      ((detecting 1 5 (plain 5) 0 2).pixel 2).getLsbD 25 = false) :=
  ⟨⟨inv_detecting, .inl rfl, rfl, by decide +kernel⟩, ⟨inv_detecting.withInputs _, .inr rfl, rfl, by decide +kernel⟩,
    ⟨inv_of_check (by decide +kernel), by decide⟩, inv_of_check (by decide +kernel), .inl rfl, rfl,
    by decide +kernel⟩

theorem witness_AdvanceDetectVisitsInRasterOrder :
    ((detecting 5 6 plus 3 2).idx.toNat + 1 < (detecting 5 6 plus 3 2).w.toNat ∧
      (detecting 5 6 plus 3 2).row.toNat + 3 ≤ (detecting 5 6 plus 3 2).h.toNat) ∧
    ((detecting 5 6 plus 4 2).idx.toNat + 1 = (detecting 5 6 plus 4 2).w.toNat ∧
      (detecting 5 6 plus 4 2).row.toNat + 4 ≤ (detecting 5 6 plus 4 2).h.toNat) ∧
    ((detecting 5 6 plus 4 3).idx.toNat + 1 = (detecting 5 6 plus 4 3).w.toNat ∧
      (detecting 5 6 plus 4 3).row.toNat + 3 = (detecting 5 6 plus 4 3).h.toNat) := by decide

theorem witness_EdgeColumnsNeverIssueARequest :
    (Inv (detecting 5 5 plus 2 2) ∧ FieldInv (detecting 5 5 plus 2 2) ∧ (detecting 5 5 plus 2 2).coreMoves) ∧
    (Inv (scheduled (detecting 5 5 plus 2 2)) ∧ FieldInv (scheduled (detecting 5 5 plus 2 2)) ∧
      (scheduled (detecting 5 5 plus 2 2)).coreMoves) ∧
    (detecting 5 5 plus 2 2).phase = .detect ∧
    ∃ t, step (scheduled (detecting 5 5 plus 2 2)) = .next t ∧ decide (t.phase = .waitDec) = true :=
  ⟨⟨inv_detecting, fieldInv_detecting, .inl rfl⟩, ⟨inv_detecting.withInputs _, fieldInv_of_check (by decide +kernel), .inr rfl⟩, rfl,
    exists_next (P := fun t => decide (t.phase = .waitDec)) (by decide +kernel)⟩

theorem witness_SymbolTableOnlyGrowsDuringAScan :
    answering.busy = true ∧ ∃ t, step { answering with inputs := [command (.decOk 31)] } = .next t ∧
      (decide (t.phase ≠ .idle) && decide (t.syms.length = 1)) = true :=
  ⟨by decide, exists_next (P := fun t => decide (t.phase ≠ .idle) && decide (t.syms.length = 1)) (by decide +kernel)⟩

theorem witness_DetectPassReachesARequestOrItsEnd :
    Inv (detecting 5 5 plus 2 2) ∧ (detecting 5 5 plus 2 2).inputs = [] ∧ (detecting 5 5 plus 2 2).phase = .detect :=
  ⟨inv_detecting, rfl, rfl⟩

/-- The least and the greatest block. -/
theorem witness_ResetMeetsTheInvariants :
    (⟨1, 1, 0, 0#32⟩ : Params).Legal ∧ (⟨2 ^ 24, 128, 7650, 0xFF000000#32⟩ : Params).Legal := by decide

theorem witness_EveryStepKeepsTheInvariant :
    (Inv stripes ∧ nextHas (step stripes) (fun _ => true) = true) ∧
    (Inv (detecting 5 5 plus 2 2) ∧ nextHas (step (detecting 5 5 plus 2 2)) (fun _ => true) = true) ∧
    Inv { waiting 5 5 plus 2 2 with inputs := [command .decFail] } ∧
      nextHas (step { waiting 5 5 plus 2 2 with inputs := [command .decFail] }) (fun _ => true) = true :=
  ⟨⟨inv_stripes, by decide +kernel⟩, ⟨inv_detecting, by decide +kernel⟩, inv_of_check (by decide +kernel), by decide +kernel⟩

theorem witness_NoStepStops : Inv stripes ∧ Inv (detecting 5 5 plus 2 2) ∧ Inv (loadedImage 5 6) ∧ Inv (loading 89) :=
  ⟨inv_stripes, inv_detecting, inv_of_check (by decide +kernel), inv_of_check (by decide +kernel)⟩

theorem witness_EveryStepKeepsTheThresholdedField :
    Inv (detecting 5 5 plus 2 2) ∧ FieldInv (detecting 5 5 plus 2 2) ∧ nextHas (step (detecting 5 5 plus 2 2)) (fun _ => true) = true :=
  ⟨inv_detecting, fieldInv_detecting, by decide +kernel⟩

/-- SOFT_RESET, ABORT in THRESH, LOAD_RESET, START and the last threshold step. -/
theorem witness_FieldChangesOnlyAsListed :
    Inv { busyState with inputs := [command .abort] } ∧ Inv { loading 0 with inputs := [command .softReset] } ∧
    Inv { small with inputs := [command .loadReset] } ∧ Inv { loadedImage 1 1 with inputs := [command .start] } ∧ Inv busyState ∧
    (nextHas (step { busyState with inputs := [command .abort] }) (fun t => decide (t.field ≠ .inThreshold)) = true ∧
      nextHas (step { loading 0 with inputs := [command .softReset] }) (fun t => decide (t.field ≠ .raw)) = true ∧
      nextHas (step { small with inputs := [command .loadReset] }) (fun t => decide (t.field ≠ .none)) = true ∧
      nextHas (step { loadedImage 1 1 with inputs := [command .start] }) (fun t => decide (t.field ≠ .raw)) = true ∧
      nextHas (step busyState) (fun t => decide (t.field ≠ .inThreshold)) = true) :=
  ⟨inv_of_check (by decide +kernel), inv_of_check (by decide +kernel), inv_of_check (by decide +kernel), inv_of_check (by decide +kernel),
    inv_of_check (by decide +kernel), by decide +kernel⟩

/-- The end of the detect pass, the end of a threshold pass with H < 5, overflow, ABORT and SOFT_RESET. -/
theorem witness_ScanEndsInOneOfFourWays :
    (Inv (detecting 5 5 plus 4 2) ∧ nextHas (step (detecting 5 5 plus 4 2)) (fun t => !t.busy) = true) ∧
    (Inv busyState ∧ nextHas (step busyState) (fun t => !t.busy) = true) ∧
    (Inv { answering with syms := [sym31, sym31], inputs := [command (.decOk 31)] } ∧
      nextHas (step { answering with syms := [sym31, sym31], inputs := [command (.decOk 31)] }) (fun t => !t.busy) = true) ∧
    (Inv { busyState with inputs := [command .abort] } ∧
      nextHas (step { busyState with inputs := [command .abort] }) (fun t => !t.busy) = true) ∧
    (Inv { busyState with inputs := [command .softReset] } ∧
      nextHas (step { busyState with inputs := [command .softReset] }) (fun t => !t.busy) = true) :=
  ⟨⟨inv_of_check (by decide +kernel), by decide +kernel⟩, ⟨inv_of_check (by decide +kernel), by decide +kernel⟩,
    ⟨inv_of_check (by decide +kernel), by decide +kernel⟩, ⟨inv_of_check (by decide +kernel), by decide +kernel⟩,
    inv_of_check (by decide +kernel), by decide +kernel⟩

theorem witness_ParametersNeverChange : nextHas (step { small with inputs := [command .softReset] }) (fun _ => true) = true := by
  decide +kernel

theorem witness_DecoderSeesTheCompleteField :
    (Inv (waiting 5 5 plus 2 2) ∧ FieldInv (waiting 5 5 plus 2 2) ∧ (waiting 5 5 plus 2 2).phase = .waitDec) ∧
    (nextHas (step { waiting 5 5 plus 2 2 with inputs := [command .decFail] }) (fun _ => true) = true ∧
      ({ waiting 5 5 plus 2 2 with inputs := [command .decFail] } : State).inputs.head? ≠ some .reset) :=
  ⟨⟨inv_waiting, fieldInv_waiting, rfl⟩, by decide +kernel⟩

/-- LOAD_RESET is no LOAD_BYTE and no LOAD_PIXEL, whatever byte operands those have. -/
theorem loadReset_stores_nothing : (∀ b ≤ 255, command .loadReset ≠ command (.loadByte b)) ∧
    ∀ r ≤ 255, ∀ g ≤ 255, ∀ b ≤ 255, command .loadReset ≠ command (.loadPixel r g b) := by
  constructor <;> intros <;> intro e <;> simp only [command, cmdWrite, Input.write.injEq, true_and] at e <;>
    replace e := congrArg BitVec.toNat e <;>
    simp [encode, Instr.op, Op.pattern, Instr.payload] at e <;> omega

/-- A finished scan with LOAD_RESET next, which meets the premises of the memory clause too, and with LOAD_BYTE next, which does not. -/
theorem witness_ResultsStayUntilTheNextStart :
    (let s : State := { small with phase := .done, syms := [sym31], inputs := [command .loadReset] }
     s.phase = .done ∧ nextHas (step s) (fun _ => true) = true ∧ s.inputs.head? ≠ some (command .start) ∧
     s.inputs.head? ≠ some (command .softReset) ∧ s.inputs.head? ≠ some .reset ∧
     (∀ b ≤ 255, s.inputs.head? ≠ some (command (.loadByte b))) ∧
     ∀ r ≤ 255, ∀ g ≤ 255, ∀ b ≤ 255, s.inputs.head? ≠ some (command (.loadPixel r g b))) ∧
    (let s : State := { small with phase := .done, syms := [sym31], inputs := [command (.loadByte 255)] }
     s.phase = .done ∧ nextHas (step s) (fun _ => true) = true ∧ s.inputs.head? ≠ some (command .start) ∧
     s.inputs.head? ≠ some (command .softReset) ∧ s.inputs.head? ≠ some .reset) :=
  ⟨⟨rfl, by decide +kernel, by decide +kernel, by decide +kernel, by decide +kernel,
      fun b hb e => loadReset_stores_nothing.1 b hb (Option.some.inj e),
      fun r hr g hg b hb e => loadReset_stores_nothing.2 r hr g hg b hb (Option.some.inj e)⟩,
    rfl, by decide +kernel, by decide +kernel, by decide +kernel, by decide +kernel⟩

theorem witness_StatusLayout : ({ small with inputs := [.read 0x008#32] } : State).inputs = .read 0x008#32 :: [] := by decide

/-- The offsets of 10_state.md R37, as the statement writes them. -/
def offsets : List (BitVec 32 × Reg) :=
  [(0x000#32, .id), (0x004#32, .cmd), (0x008#32, .status), (0x00C#32, .config), (0x010#32, .maxunit), (0x014#32, .loadcnt),
   (0x018#32, .ccount), (0x01C#32, .symcount), (0x020#32, .req), (0x024#32, .respX), (0x028#32, .respY), (0x02C#32, .respUnit),
   (0x030#32, .respOrient), (0x034#32, .irqEn), (0x038#32, .pos), (0x03C#32, .dbgFsm), (0x040#32, .dbgRun), (0x044#32, .dbgB2),
   (0x048#32, .dbgAvg), (0x04C#32, .paramMaxpix), (0x050#32, .paramNsym), (0x054#32, .paramAvginit)]

theorem witness_RegistersReadAsLaidOut :
    (0x000#32, Reg.id) ∈ offsets ∧ (0x054#32, Reg.paramAvginit) ∈ offsets ∧
    ({ small with inputs := [.read 0x054#32] } : State).inputs = .read 0x054#32 :: [] ∧
    nextHas (step { small with inputs := [.read 0x054#32] }) (fun t => t.rdata == some 128#32) = true ∧
    small.syms.length ≤ 128 := by decide

/-- The mapped offsets of `BusReadEffects`. -/
def mapped (off : BitVec 32) : Bool :=
  decide (off.toNat % 4 = 0 ∧ (off.toNat ≤ 0x57 ∨ (0x1000 ≤ off.toNat ∧ off.toNat ≤ 0x1FFF) ∨
    (0x04000000 ≤ off.toNat ∧ off.toNat ≤ 0x04000000 + 4 * small.params.maxPixels - 1)))

/-- The first and last mapped words of each region, and the words just outside. -/
theorem witness_BusReadEffects :
    small.params.Legal ∧
    [0x000#32, 0x054#32, 0x1000#32, 0x1FFC#32, 0x04000000#32, BitVec.ofNat 32 (0x04000000 + 4 * 29)].all mapped = true ∧
    [0x001#32, 0x058#32, 0x0FFC#32, 0x2000#32, 0x03FFFFFC#32, BitVec.ofNat 32 (0x04000000 + 4 * 30), 0xFFFFFFFC#32].all
      (fun off => !mapped off) = true := by decide +kernel

theorem witness_BusWriteEffects :
    [0x004#32, 0x024#32, 0x028#32, 0x02C#32, 0x030#32, 0x034#32].all
      (fun off => ({ small with inputs := [.write off 7#32] } : State).inputs == .write off 7#32 :: []) = true ∧
    0x000#32 ∉ [0x004#32, 0x024#32, 0x028#32, 0x02C#32, 0x030#32, 0x034#32] ∧
    0x005#32 ∉ [0x004#32, 0x024#32, 0x028#32, 0x02C#32, 0x030#32, 0x034#32] := by decide +kernel

/-- An accepted slot, the last slot, and the ends of the window. -/
theorem witness_SymbolWindowReadsAcceptedSymbols :
    small.params.Legal ∧ [sym31].length ≤ small.params.nSym ∧ (0 < 128 ∧ 127 < 128 ∧ 7 < 8 ∧ 0 < [sym31].length ∧ [sym31].length ≤ 127) ∧
    (0x1000 ≤ (0x1000#32).toNat ∧ (0x1FFF#32).toNat ≤ 0x1FFF) := by decide

theorem witness_PixelWindowIsReadOnly :
    small.params.Legal ∧ 29 < small.params.maxPixels ∧ small.params.maxPixels ≤ 30 ∧ 0x04000000 + 4 * 30 < 2 ^ 32 := by decide

theorem witness_InterruptLevelFollowsTheState : small.irqEn = 0#3 := by decide

theorem witness_AnswerOkAppendsTheWrittenSymbol :
    ({ answering with inputs := answerOk 31 5#32 2#32 1#32 0#32 ++ [] } : State).inputs = answerOk 31 5#32 2#32 1#32 0#32 ++ [] ∧
    answering.phase = .waitDec ∧ 31 ≤ 8191 ∧ popcount13 31 = 5 ∧ 1#32 ≠ 0#32 ∧ answering.syms.length < answering.params.nSym := by decide

end Sys2Proof.Tests
end

section
/-! PROOFS. The family of 00_scope.md: who moves (R5) and what the parameters give at reset (R7). -/

namespace Sys2Proof.Machine

/-! ### Every core step of a running pass moves on (41_threshold.md R137; 42_detect.md R161, R165) -/

/-- Where the block stands in a scan: PHASE and the scan position (10_state.md R26, R30). A core step of a running pass never leaves it
as it was, which is why such a step is never idle. -/
def State.scanPoint (s : State) : Phase × BitVec 14 × BitVec 14 := (s.phase, s.row, s.idx)

theorem advanceThreshold_scanPoint_ne {s : State} (hp : s.phase = .thresh) : (advanceThreshold s).scanPoint ≠ s.scanPoint := by
  unfold advanceThreshold
  split_ifs
  · simp [State.scanPoint, hp]
  · simp [State.scanPoint, hp]
  · simp [State.scanPoint]
  · simp [State.scanPoint]

theorem advanceDetect_scanPoint_ne (s : State) : (advanceDetect s).scanPoint ≠ s.scanPoint := by
  by_cases h : s.idx + 1#14 = s.w
  · simp [advanceDetect, State.scanPoint, h]
  · simp [advanceDetect, State.scanPoint, h]

/-- Only the advance at its end touches the scan point: the pixel's classification and the automaton leave it alone. -/
theorem thresholdStep_scanPoint_ne {s t : State} (hp : s.phase = .thresh) (h : thresholdStep s = some t) :
    t.scanPoint ≠ s.scanPoint := by
  simp only [thresholdStep, Option.bind_eq_some_iff, Option.map_eq_some_iff, Prod.exists] at h
  obtain ⟨white, u, hc, v, ha, rfl⟩ := h
  have hv : v.scanPoint = s.scanPoint := by rw [automatonStep_frame ha, classifyPixel_frame hc]; rfl
  have hvp : v.phase = .thresh := (congrArg Prod.fst hv).trans hp
  exact hv ▸ advanceThreshold_scanPoint_ne hvp

/-- A request leaves DETECT for WAIT_DEC; any other detect step advances. -/
theorem detectStep_scanPoint_ne {s t : State} (hp : s.phase = .detect) (h : detectStep s = some t) :
    t.scanPoint ≠ s.scanPoint := by
  simp only [detectStep, Option.map_eq_some_iff] at h
  obtain ⟨q, -, rfl⟩ := h
  split
  · simp [State.scanPoint, hp]
  · exact advanceDetect_scanPoint_ne s

theorem coreStep_scanPoint_ne {s t : State} (hp : s.phase = .thresh ∨ s.phase = .detect) (h : coreStep s = .next t) :
    t.scanPoint ≠ s.scanPoint := by
  rcases coreStep_cases h with ⟨ht, h⟩ | ⟨hd, h⟩ | ⟨ht, hd, -⟩
  · exact thresholdStep_scanPoint_ne ht h
  · exact detectStep_scanPoint_ne hd h
  · exact absurd hp (not_or.mpr ⟨ht, hd⟩)

/-- Outside the two passes the core has no step (10_state.md R26). -/
theorem coreStep_idle {s : State} (ht : s.phase ≠ .thresh) (hd : s.phase ≠ .detect) : coreStep s = .next s := by
  unfold coreStep
  split
  · contradiction
  · contradiction
  · rfl
  · rfl
  · rfl

/-! ### The reset state (70_reset_and_hazards.md R240, R241) -/

/-- The reset values meet the invariant with any well-formed pixel memory, so after both resets, whatever the moves to come. -/
theorem inv_resetOf_withMemory {p : Params} (hp : p.Legal) {m : Memory} (hwf : m.wf = true)
    (hbound : ∀ c ∈ m, c.1 < 4 * p.maxPixels) (i : List Input) (r : Option Word) (n : Nat) :
    Inv { State.resetOf p with mem := m, inputs := i, rdata := r, epoch := n } where
  legal       := hp
  maxUnit     := by simp [State.resetOf]
  bc          := by simp [State.resetOf]
  memWf       := hwf
  memBound    := hbound
  avg         := by simp [State.resetOf]
  symsBound   := by simp [State.resetOf]
  symsValid   := by simp [State.resetOf]
  ccount      := by simp [State.resetOf]
  loaded      := by simp [State.resetOf]
  threshField := by simp [State.resetOf]
  scanField   := by simp [State.resetOf]
  image       := by simp [State.resetOf, State.busy_iff]
  imageRead   := by simp [State.resetOf, State.busy_iff]
  threshPos   := by simp [State.resetOf]
  automaton   := by simp [State.resetOf]
  detectPos   := by simp [State.resetOf]
  request     := by simp [State.resetOf]

theorem inv_resetOf {p : Params} (hp : p.Legal) : Inv (State.resetOf p) :=
  inv_resetOf_withMemory hp Memory.wf_nil (List.forall_mem_nil _) [] none 0

/-- A block that is not scanning claims nothing of its field. -/
theorem fieldInv_of_not_busy {s : State} (h : s.busy = false) : FieldInv s := fun hb => absurd hb (by simp [h])

theorem Params.default_legal : Params.default.Legal := by decide

/-! ### The statements -/

/-- Settles O7: the core's step is never idle in a pass because it moves the scan point, in every state. -/
theorem coreMovesOnlyInThePasses : Obligations.CoreMovesOnlyInThePasses := by
  refine ⟨fun s => step_coreMoves, fun s hi ht hd => ?_, fun s rest hi ht hd => ?_, fun s t hm h hp e => ?_⟩
  · have hs : { s with inputs := s.inputs.tail } = s := by rw [hi, List.tail_nil, ← hi]
    rw [step_coreMoves (.inl hi), hs, coreStep_idle ht hd]
  · have hm : s.coreMoves := .inr (by rw [hi]; rfl)
    rw [step_coreMoves hm, hi, List.tail_cons]
    exact coreStep_idle (s := { s with inputs := rest }) ht hd
  · rw [step_coreMoves hm] at h
    exact coreStep_scanPoint_ne (s := { s with inputs := s.inputs.tail }) hp h (congrArg State.scanPoint e)

/-- Settles O44: the reset values with the empty memory, for every legal block. -/
theorem resetMeetsTheInvariants : Obligations.ResetMeetsTheInvariants :=
  ⟨fun _ hp => ⟨inv_resetOf hp, fieldInv_of_not_busy rfl⟩, Params.default_legal, inv_resetOf Params.default_legal⟩

end Sys2Proof.Machine
end

section
/-! PROOFS. What one command can do, said once (40_load.md, 41_threshold.md, 42_detect.md, 43_control.md): `exec_next`. -/

namespace Sys2Proof.Machine

/-- `ExecNext s i t`: command `i` takes `s` to `t`, one constructor a way it can end, each with its guard. A command that is refused
changes nothing but one error bit. -/
inductive ExecNext (s : State) : Instr → State → Prop
  | refused {i : Instr} {e : Err} (he : e = .busy ∨ e = .proto) : ExecNext s i (s.raise e)
  | nop : ExecNext s .nop s
  | setDims {w h : Nat} (hb : s.busy = false) :
      ExecNext s (.setDims w h) { s with w := BitVec.ofNat 14 w, h := BitVec.ofNat 14 h }
  | setDiameter {d : Nat} (hb : s.busy = false) :
      ExecNext s (.setDiameter d) { s with maxUnit := BitVec.ofNat 16 (ceil8 d) }
  | loadReset (hb : s.busy = false) :
      ExecNext s .loadReset { s with bc := 0#26, stgR := 0#8, stgG := 0#8, loadOvf := false, field := .raw }
  | loadByte {b : Nat} {t : State} (hb : s.busy = false) (hf : s.field = .raw)
      (ht : acceptByte (BitVec.ofNat 8 b) s = some t) : ExecNext s (.loadByte b) t
  | loadPixel {r g b : Nat} {u v t : State} (hb : s.busy = false) (hf : s.field = .raw)
      (hu : acceptByte (BitVec.ofNat 8 r) s = some u) (hv : acceptByte (BitVec.ofNat 8 g) u = some v)
      (ht : acceptByte (BitVec.ofNat 8 b) v = some t) : ExecNext s (.loadPixel r g b) t
  | start (hb : s.busy = false) (hok : s.startOK = true) :
      ExecNext s .start { s with
        syms := [], ccount := 0#32, avg := BitVec.ofNat 24 s.params.avgInit, row := 0#14, idx := 0#14,
        fsm := .seek, b1 := 0#16, w1 := 0#16, b2 := 0#16, field := .inThreshold, phase := .thresh }
  | startFails (hb : s.busy = false) (hok : s.startOK = false) :
      ExecNext s .start (State.raise { s with syms := [], phase := .idle } .input)
  | abort (hb : s.busy = true) :
      ExecNext s .abort (State.raise { s with field := fieldAfterAbort s, phase := .idle, syms := [] } .aborted)
  | abortIdle (hb : s.busy = false) : ExecNext s .abort s
  | decOkDrops {c : Nat} (hp : s.phase = .waitDec) (hc : popcount13 c ≠ 5 ∨ s.respUnit = 0#32) :
      ExecNext s (.decOk c) (advanceDetect (s.raise .resp))
  | decOkOverflows {c : Nat} (hp : s.phase = .waitDec) (hc : popcount13 c = 5 ∧ s.respUnit ≠ 0#32)
      (hl : s.syms.length = s.params.nSym) : ExecNext s (.decOk c) { s.raise .symOvf with phase := .done }
  | decOkAppends {c : Nat} (hp : s.phase = .waitDec) (hc : popcount13 c = 5 ∧ s.respUnit ≠ 0#32)
      (hl : s.syms.length ≠ s.params.nSym) :
      ExecNext s (.decOk c) (advanceDetect { s with syms := s.syms ++ [s.responseSym c] })
  | decFail (hp : s.phase = .waitDec) : ExecNext s .decFail (advanceDetect s)
  | clrErr : ExecNext s .clrErr s.clearErrors
  | softReset : ExecNext s .softReset s.softReset

theorem eq_of_next {u t : State} (h : (.next u : Host.Outcome State Fault Refusal) = .next t) : t = u := by
  cases h; rfl

/-- The BUSY gate of six commands: refused with ERR_BUSY, or run outside a scan (43_control.md R195). -/
theorem gate_cases {s t : State} {o : Host.Outcome State Fault Refusal}
    (h : (if s.busy then .next (s.raise .busy) else o) = .next t) :
    t = s.raise .busy ∨ s.busy = false ∧ o = .next t := by
  split at h
  · exact .inl (eq_of_next h)
  · exact .inr ⟨eq_false_of_ne_true ‹_›, h⟩

/-- A gated command whose arm answers `u`. -/
theorem gate_next {i : Instr} {s t u : State} (hu : s.busy = false → ExecNext s i u)
    (h : (if s.busy then .next (s.raise .busy) else .next u : Host.Outcome State Fault Refusal) = .next t) : ExecNext s i t := by
  rcases gate_cases h with rfl | ⟨hb, h⟩
  · exact .refused (.inl rfl)
  · rw [eq_of_next h]; exact hu hb

/-- The gates of the two commands that accept bytes: refused, or run on an open stream (40_load.md R102, R103). -/
theorem streamGate_cases {s t : State} {o : Option State}
    (h : (if s.busy then .next (s.raise .busy) else if s.field ≠ .raw then .next (s.raise .proto) else outcomeOf o) = .next t) :
    (∃ e, (e = .busy ∨ e = .proto) ∧ t = s.raise e) ∨ s.busy = false ∧ s.field = .raw ∧ o = some t := by
  rcases gate_cases h with rfl | ⟨hb, h⟩
  · exact .inl ⟨_, .inl rfl, rfl⟩
  · split at h
    · exact .inl ⟨_, .inr rfl, eq_of_next h⟩
    · exact .inr ⟨hb, not_not.mp ‹_›, outcomeOf_eq_next.mp h⟩

theorem execStart_next {s t : State} (h : execStart s = .next t) : ExecNext s .start t := by
  rcases gate_cases h with rfl | ⟨hb, h⟩
  · exact .refused (.inl rfl)
  · split at h
    · rw [eq_of_next h]; exact .start hb ‹_›
    · rw [eq_of_next h]; exact .startFails hb (eq_false_of_ne_true ‹_›)

theorem execAbort_next {s t : State} (h : execAbort s = .next t) : ExecNext s .abort t := by
  unfold execAbort at h
  split at h
  · rw [eq_of_next h]; exact .abort ‹_›
  · rw [eq_of_next h]; exact .abortIdle (eq_false_of_ne_true ‹_›)

theorem execDecOk_next {c : Nat} {s t : State} (h : execDecOk c s = .next t) : ExecNext s (.decOk c) t := by
  unfold execDecOk at h
  split at h
  · rw [eq_of_next h]; exact .refused (.inr rfl)
  rename_i hp
  split at h
  · rw [eq_of_next h]; exact .decOkDrops (not_not.mp hp) ‹_›
  rename_i hc
  have hc' : popcount13 c = 5 ∧ s.respUnit ≠ 0#32 := by simpa using hc
  split at h
  · rw [eq_of_next h]; exact .decOkOverflows (not_not.mp hp) hc' ‹_›
  · rw [eq_of_next h]; exact .decOkAppends (not_not.mp hp) hc' ‹_›

theorem execDecFail_next {s t : State} (h : execDecFail s = .next t) : ExecNext s .decFail t := by
  unfold execDecFail at h
  split at h
  · rw [eq_of_next h]; exact .refused (.inr rfl)
  · rw [eq_of_next h]; exact .decFail (not_not.mp ‹_›)

/-- Everything a command that answers a next state can do. -/
theorem exec_next {i : Instr} {s t : State} (h : exec i s = .next t) : ExecNext s i t := by
  cases i with
  | nop => rw [eq_of_next h]; exact .nop
  | setDims => exact gate_next .setDims h
  | setDiameter => exact gate_next .setDiameter h
  | loadReset => exact gate_next .loadReset h
  | loadByte =>
    rcases streamGate_cases h with ⟨e, he, rfl⟩ | ⟨hb, hf, ht⟩
    · exact .refused he
    · exact .loadByte hb hf ht
  | loadPixel =>
    rcases streamGate_cases h with ⟨e, he, rfl⟩ | ⟨hb, hf, h⟩
    · exact .refused he
    · simp only [Option.bind_eq_some_iff] at h
      obtain ⟨v, ⟨u, hu, hv⟩, ht⟩ := h
      exact .loadPixel hb hf hu hv ht
  | start => exact execStart_next h
  | abort => exact execAbort_next h
  | decOk => exact execDecOk_next h
  | decFail => exact execDecFail_next h
  | clrErr => rw [eq_of_next h]; exact .clrErr
  | softReset => rw [eq_of_next h]; exact .softReset

end Sys2Proof.Machine
end

section
/-! PROOFS. The family of 10_state.md: who writes each register (R22 to R35), the error bits (R34), what the core leaves alone (R20), FIELD
(R25) and the parameters (R57). -/

namespace Sys2Proof.Machine

/-! ### What one command leaves alone -/

/-- Settles O24: command by command, each way it can end. -/
theorem eachRegisterHasItsOwnWriters : Obligations.EachRegisterHasItsOwnWriters := by
  intro i s t h
  cases exec_next h with
  | loadByte hb hf ht => rw [acceptByte_frame ht]; simp [Instr.op]
  | loadPixel hb hf hu hv ht =>
    rw [acceptByte_frame ht, acceptByte_frame hv, acceptByte_frame hu]
    simp [Instr.op]
  | decOkDrops => rw [advanceDetect_frame]; simp [Instr.op, State.readByte]
  | decOkAppends => rw [advanceDetect_frame]; simp [Instr.op, State.readByte]
  | decFail => rw [advanceDetect_frame]; simp [Instr.op, State.readByte]
  | refused | nop | setDims | setDiameter | loadReset | start | startFails | abort | abortIdle | decOkOverflows | clrErr | softReset =>
    simp [Instr.op, State.readByte]

/-! ### Words without operands -/

/-- A legal word of a format with no payload is its row's pattern (30_encoding.md R81, R85). -/
theorem eq_pattern_of_legal {c : Word} {op : Op} (h : c &&& op.mask = op.pattern) (h0 : op.payloadBits = 0) : c = op.pattern := by
  rw [legal_iff, h0] at h
  exact BitVec.eq_of_toNat_eq (by simpa using h)

theorem Instr.payload_of_payloadBits {i : Instr} (h0 : i.op.payloadBits = 0) : i.payload = 0 := by
  cases i <;> simp [Instr.op, Op.payloadBits, Instr.payload] at h0 ⊢

/-- The row a decoded word matched is the one of the command's opcode. -/
theorem Op.instr_op (c : Word) (op : Op) : (op.instr c).op = op := by cases op <;> rfl

/-- A bus write to CMD that decodes to a command without operands is the move that delivers it. -/
theorem write_eq_command {c : Word} {i : Instr} (h : decode c = .ok i) (h0 : i.op.payloadBits = 0) :
    Input.write 0x004#32 c = command i := by
  obtain ⟨op, hl, rfl⟩ := decode_eq_ok.mp h
  rw [command, cmdWrite, encode, Instr.payload_of_payloadBits h0, Nat.add_zero]
  rw [Op.instr_op] at h0 ⊢
  rw [eq_pattern_of_legal hl h0]
  simp

/-! ### The error bits -/

theorem err_of_errs_eq {s t : State} (h : t.errs = s.errs) (e : Err) : t.err e = s.err e := by simp only [State.err, h]

/-- A command other than CLR_ERR and SOFT_RESET keeps the error bits or raises one (60_exceptions.md R210). -/
theorem ExecNext.errs {i : Instr} {s t : State} (h : ExecNext s i t) :
    i = .clrErr ∨ i = .softReset ∨ t.errs = s.errs ∨ ∃ e, t.errs = (s.raise e).errs := by
  cases h with
  | clrErr => exact .inl rfl
  | softReset => exact .inr (.inl rfl)
  | refused | startFails | abort | decOkDrops | decOkOverflows => exact .inr (.inr (.inr ⟨_, rfl⟩))
  | nop | setDims | setDiameter | loadReset | start | abortIdle | decOkAppends | decFail => exact .inr (.inr (.inl rfl))
  | loadByte _ _ ht => exact .inr (.inr (.inl (by rw [acceptByte_frame ht])))
  | loadPixel _ _ hu hv ht =>
    exact .inr (.inr (.inl (by rw [acceptByte_frame ht, acceptByte_frame hv, acceptByte_frame hu])))

/-- Raising an error or leaving the bits alone clears none. -/
theorem err_of_kept_or_raised {s t : State} (h : t.errs = s.errs ∨ ∃ e, t.errs = (s.raise e).errs) {e : Err} (hs : s.err e = true) :
    t.err e = true := by
  rcases h with h | ⟨f, h⟩
  · rw [err_of_errs_eq h, hs]
  · rw [err_of_errs_eq h, State.err_raise, hs, Bool.or_true]

/-- What a core step leaves alone in every phase. -/
theorem coreStep_frame {s t : State} (h : coreStep s = .next t) :
    t = { s with mem := t.mem, avg := t.avg, fsm := t.fsm, b1 := t.b1, w1 := t.w1, b2 := t.b2, ccount := t.ccount,
                 field := t.field, phase := t.phase, row := t.row, idx := t.idx, reqX := t.reqX, reqY := t.reqY } := by
  rcases coreStep_cases h with ⟨-, h⟩ | ⟨-, h⟩ | ⟨-, -, rfl⟩
  · rw [thresholdStep_frame h]
  · rw [detectStep_frame h]
  · rfl

theorem Quiet.errs_kept_or_raised {s t : State} (h : Quiet s t) : t.errs = s.errs ∨ ∃ e, t.errs = (s.raise e).errs :=
  h.errs.imp_right fun h => h.elim (⟨_, ·⟩) (⟨_, ·⟩)

/-- Settles O25: every move but those three keeps the bits or raises one. -/
theorem errorBitsAreSticky : Obligations.ErrorBitsAreSticky := by
  intro s t e h hs ht
  have sticky : ¬(t.errs = s.errs ∨ ∃ f, t.errs = (s.raise f).errs) := fun hk => by
    simp [err_of_kept_or_raised hk hs] at ht
  rcases step_next_cases h with ⟨rest, -, hc⟩ | ⟨rest, hi, -⟩ | ⟨rest, c, i, hi, hd, hx⟩ | ⟨m, rest, -, -, -, -, hq⟩
  · exact absurd (.inl (by rw [coreStep_frame hc])) sticky
  · exact .inl (by rw [hi]; rfl)
  · rcases (exec_next hx).errs with rfl | rfl | hk
    · exact .inr (.inl (by rw [hi, write_eq_command hd rfl]; rfl))
    · exact .inr (.inr (by rw [hi, write_eq_command hd rfl]; rfl))
    · exact absurd hk sticky
  · exact absurd hq.errs_kept_or_raised sticky

/-! ### The core's step -/

/-- Settles O27: the frames of the two passes. -/
theorem coreStepFrame : Obligations.CoreStepFrame := by
  intro s t h
  rcases coreStep_cases h with ⟨hp, h⟩ | ⟨hp, h⟩ | ⟨-, -, rfl⟩
  · rw [thresholdStep_frame h]; simp [hp]
  · rw [detectStep_frame h]; simp [hp]
  · simp

/-! ### FIELD -/

/-- The commands that change FIELD (10_state.md R25). -/
theorem ExecNext.field_cases {i : Instr} {s t : State} (h : ExecNext s i t) :
    t.field = s.field ∨ (i = .softReset ∧ t.field = .none) ∨ (i = .abort ∧ s.phase = .thresh ∧ t.field = .none) ∨
    (i = .loadReset ∧ t.field = .raw) ∨ (i = .start ∧ s.startOK = true ∧ t.field = .inThreshold) := by
  cases h with
  | softReset => exact .inr (.inl ⟨rfl, rfl⟩)
  | abort hb =>
    by_cases hp : s.phase = .thresh
    · exact .inr (.inr (.inl ⟨rfl, hp, if_pos hp⟩))
    · exact .inl (if_neg hp)
  | loadReset => exact .inr (.inr (.inr (.inl ⟨rfl, rfl⟩)))
  | start hb hok => exact .inr (.inr (.inr (.inr ⟨rfl, hok, rfl⟩)))
  | loadByte _ _ ht => exact .inl (by rw [acceptByte_frame ht])
  | loadPixel _ _ hu hv ht => exact .inl (by rw [acceptByte_frame ht, acceptByte_frame hv, acceptByte_frame hu])
  | refused | nop | setDims | setDiameter | startFails | abortIdle | decOkDrops | decOkOverflows | decOkAppends | decFail | clrErr =>
    exact .inl rfl

/-- The core changes FIELD at the end of the threshold pass only, to THRESHOLDED (41_threshold.md R137). -/
theorem coreStep_field_cases {s t : State} (h : coreStep s = .next t) :
    t.field = s.field ∨ (t.field = .thresholded ∧ s.phase = .thresh ∧ t.phase ≠ .thresh) := by
  rcases coreStep_cases h with ⟨hp, h⟩ | ⟨-, h⟩ | ⟨-, -, rfl⟩
  · simp only [thresholdStep, Option.bind_eq_some_iff, Option.map_eq_some_iff, Prod.exists] at h
    obtain ⟨white, u, hc, v, ha, rfl⟩ := h
    have hv : v.field = s.field := by rw [automatonStep_frame ha, classifyPixel_frame hc]
    rcases advanceThreshold_phase v with ⟨-, hf⟩ | ⟨hp', hf⟩ | ⟨hp', hf⟩
    · exact .inl (hf.trans hv)
    · exact .inr ⟨hf, hp, by simp [hp']⟩
    · exact .inr ⟨hf, hp, by simp [hp']⟩
  · exact .inl (by rw [detectStep_frame h])
  · exact .inl rfl

/-- Settles O48; the invariant is not needed. -/
theorem fieldChangesOnlyAsListed : Obligations.FieldChangesOnlyAsListed := by
  intro s t _ h hne
  rcases step_next_cases h with ⟨rest, hi, hc⟩ | ⟨rest, hi, rfl⟩ | ⟨rest, c, i, hi, hd, hx⟩ | ⟨m, rest, -, -, -, -, hq⟩
  · obtain ⟨hf, hp, hp'⟩ := (coreStep_field_cases hc).resolve_left hne
    exact .inr (.inr (.inr ⟨hf, hp, hi.imp And.left fun hi => by rw [hi]; rfl, hp'⟩))
  · exact .inl ⟨rfl, .inl (by rw [hi]; rfl)⟩
  · have head : ∀ j : Instr, i = j → j.op.payloadBits = 0 → s.inputs.head? = some (command j) := by
      rintro j rfl h0
      rw [hi, write_eq_command hd h0]; rfl
    rcases (exec_next hx).field_cases.resolve_left hne with ⟨hj, hf⟩ | ⟨hj, hp, hf⟩ | ⟨hj, hf⟩ | ⟨hj, hok, hf⟩
    · exact .inl ⟨hf, .inr (.inl (head _ hj rfl))⟩
    · exact .inl ⟨hf, .inr (.inr ⟨head _ hj rfl, hp⟩)⟩
    · exact .inr (.inl ⟨hf, head _ hj rfl⟩)
    · exact .inr (.inr (.inl ⟨hf, head _ hj rfl, hok⟩))
  · exact absurd hq.field hne

/-! ### The parameters -/

theorem step_params {s t : State} (h : step s = .next t) : t.params = s.params := by
  rcases step_next_cases h with ⟨rest, -, hc⟩ | ⟨rest, -, rfl⟩ | ⟨rest, c, i, -, -, hx⟩ | ⟨m, rest, -, -, -, -, hq⟩
  · rw [coreStep_frame hc]
  · rfl
  · obtain ⟨-, -, -, -, -, -, -, -, -, -, hp, -⟩ := eachRegisterHasItsOwnWriters i _ t hx
    exact hp
  · rw [hq.frame]

/-- Settles O50: no move writes the parameters, and the PARAM registers read them. -/
theorem parametersNeverChange : Obligations.ParametersNeverChange := by
  intro s t h
  have hp := step_params h
  exact ⟨hp, by rw [State.readReg, hp], by rw [State.readReg, hp], by rw [State.readReg, hp]⟩

end Sys2Proof.Machine
end

section
/-! PROOFS. The family of 10_state.md: every move keeps the invariant of the block (R23 to R33). -/

namespace Sys2Proof.Machine

/-! ### The clauses that do not speak of a running scan -/

/-- The part of the invariant that holds of a block at rest and in a scan alike: parameters, configuration, load, memory, table. -/
structure StoreInv (s : State) : Prop where
  legal     : s.params.Legal
  maxUnit   : s.maxUnit.toNat ≤ 8192
  bc        : s.bc.toNat ≤ 3 * s.params.maxPixels
  memWf     : s.mem.wf = true
  memBound  : ∀ c ∈ s.mem, c.1 < 4 * s.params.maxPixels
  avg       : s.avg.toNat ≤ 7650
  symsBound : s.syms.length ≤ s.params.nSym
  symsValid : ∀ e ∈ s.syms, e.valid = true
  ccount    : s.ccount.toNat ≤ s.params.maxPixels
  loaded    : s.field = .raw → ∀ k, k < s.bc.toNat / 3 → s.written k = true

theorem Inv.store {s : State} (h : Inv s) : StoreInv s := { h with }

/-- Outside a scan the rest of the invariant says only that FIELD is not IN_THRESHOLD. -/
theorem StoreInv.inv {s : State} (h : StoreInv s) (hb : s.busy = false) (hf : s.field ≠ .inThreshold) : Inv s := by
  have idle : s.phase ≠ .thresh ∧ s.phase ≠ .detect ∧ s.phase ≠ .waitDec := by
    rcases (State.not_busy_iff s).mp hb with hp | hp <;> simp [hp]
  obtain ⟨ht, hd, hw⟩ := idle
  exact { h with
    threshField := iff_of_false ht hf
    scanField := fun hp => absurd hp (not_or.mpr ⟨hd, hw⟩)
    image := fun hb' => absurd hb' (by simp [hb])
    imageRead := fun hb' => absurd hb' (by simp [hb])
    threshPos := fun hp => absurd hp ht
    automaton := fun hp => absurd hp ht
    detectPos := fun hp => absurd hp (not_or.mpr ⟨hd, hw⟩)
    request := fun hp => absurd hp hw }

theorem Inv.field_of_not_busy {s : State} (h : Inv s) (hb : s.busy = false) : s.field ≠ .inThreshold := fun hf => by
  simp [State.busy_of_thresh (h.threshField.mpr hf)] at hb

/-- The invariant does not look at the error bits, the response registers, the interrupt enables and the model's latches. -/
theorem Inv.of_frame {s t : State} (h : Inv s)
    (e : t = { s with inputs := t.inputs, rdata := t.rdata, errs := t.errs, respX := t.respX, respY := t.respY,
                      respUnit := t.respUnit, respOrient := t.respOrient, irqEn := t.irqEn }) : Inv t := by
  rw [e]; exact { h with }

theorem Inv.raise {s : State} (h : Inv s) (e : Err) : Inv (s.raise e) := h.of_frame rfl

/-! ### Loading and starting -/

/-- One accepted byte keeps every received pixel in memory (40_load.md R105). -/
theorem StoreInv.acceptByte {b : Byte} {s t : State} (h : StoreInv s) (e : acceptByte b s = some t) : StoreInv t := by
  rcases acceptByte_cases e with ⟨-, rfl⟩ | ⟨hn, h3, rfl⟩ | ⟨hn, h3, rfl⟩ | ⟨hn, h3, hk, rfl⟩
  · exact { h with }
  all_goals
    have hlt := lt_of_le_of_ne h.bc hn
    have hbc := bc_succ_toNat h.legal hlt
    have kept : s.bc.toNat % 3 ≠ 2 → s.field = .raw → ∀ k, k < (s.bc + 1).toNat / 3 → s.written k = true :=
      fun h3 hf k hk => h.loaded hf k (by omega)
  · exact { h with bc := hbc ▸ hlt, loaded := kept (by omega) }
  · exact { h with bc := hbc ▸ hlt, loaded := kept (by omega) }
  · exact { h with
      bc := hbc ▸ hlt
      memWf := State.setPixel_wf h.memWf _ _
      memBound := State.setPixel_bound h.memBound hk _
      loaded := fun hf k hk' => by
        show (s.setPixel _ _).written k = true
        rw [State.written_setPixel]
        by_cases hkeq : k = s.bc.toNat / 3
        · simp [hkeq]
        · simp [h.loaded hf k (by rw [hbc] at hk'; omega)] }

theorem acceptByte_busy {b : Byte} {s t : State} (h : acceptByte b s = some t) : t.busy = s.busy := by
  rw [acceptByte_frame h]; rfl

theorem Inv.acceptByte {b : Byte} {s t : State} (h : Inv s) (hb : s.busy = false) (e : acceptByte b s = some t) : Inv t := by
  refine (h.store.acceptByte e).inv (by rw [acceptByte_busy e, hb]) ?_
  rw [acceptByte_frame e]
  exact h.field_of_not_busy hb

/-- What an accepted START checks (41_threshold.md R122). -/
theorem State.startOK_iff {s : State} : s.startOK = true ↔
    s.field = .raw ∧ s.loadOvf = false ∧ 1 ≤ s.w.toNat ∧ 1 ≤ s.h.toNat ∧
    s.w.toNat * s.h.toNat ≤ s.params.maxPixels ∧ s.bc.toNat = 3 * (s.w.toNat * s.h.toNat) := decide_eq_true_iff

/-- The state an accepted START gives (41_threshold.md R121): the image's length says that all of it was received. -/
theorem Inv.started {s : State} (h : Inv s) (hok : s.startOK = true) :
    Inv { s with
      syms := [], ccount := 0#32, avg := BitVec.ofNat 24 s.params.avgInit, row := 0#14, idx := 0#14,
      fsm := .seek, b1 := 0#16, w1 := 0#16, b2 := 0#16, field := .inThreshold, phase := .thresh } := by
  obtain ⟨hf, -, hw, hh, himg, hbc⟩ := State.startOK_iff.mp hok
  exact { h with
    avg := by
      obtain ⟨-, -, -, -, ha, -⟩ := h.legal
      exact (Nat.mod_le _ _).trans ha
    symsBound := Nat.zero_le _
    symsValid := List.forall_mem_nil _
    ccount := Nat.zero_le _
    loaded := nofun
    threshField := iff_of_true rfl rfl
    scanField := nofun
    image := fun _ => ⟨hw, hh, himg⟩
    imageRead := fun _ k hk => h.loaded hf k (by rwa [hbc, Nat.mul_div_cancel_left _ (by decide)])
    threshPos := fun _ => ⟨hh, hw⟩
    automaton := fun _ => by simp [State.automatonFits]
    detectPos := nofun
    request := nofun }

/-! ### The detect pass -/

/-- The advance keeps the detect position in rows 2 .. H-3, or ends the scan (42_detect.md R160, R165). -/
theorem Inv.advanceDetect {s : State} (h : Inv s) (hp : s.phase = .detect ∨ s.phase = .waitDec) : Inv (advanceDetect s) := by
  obtain ⟨h2, h3, hi⟩ := h.detectPos hp
  have hb : s.busy = true := (State.busy_iff s).mpr (.inr hp)
  have hf := h.scanField hp
  by_cases hend : s.idx.toNat + 1 = s.w.toNat ∧ s.row.toNat + 3 = s.h.toNat
  · rw [advanceDetect_last_row hend.1 hend.2]
    refine StoreInv.inv { h with } rfl ?_
    show s.field ≠ _
    simp [hf]
  · suffices ∃ r i, Machine.advanceDetect s = { s with row := r, idx := i, phase := .detect } ∧
        2 ≤ r.toNat ∧ r.toNat + 3 ≤ s.h.toNat ∧ i.toNat < s.w.toNat by
      obtain ⟨r, i, e, hpos⟩ := this
      rw [e]
      exact { h with
        threshField := iff_of_false (by simp) (by simp [hf])
        scanField := fun _ => hf
        image := fun _ => h.image hb
        imageRead := fun _ => h.imageRead hb
        threshPos := nofun
        automaton := nofun
        detectPos := fun _ => hpos
        request := nofun }
    by_cases hw : s.idx.toNat + 1 = s.w.toNat
    · refine ⟨_, _, advanceDetect_next_row hw (by omega), ?_⟩
      rw [idx_succ_toNat (n := s.h.toNat) (by omega) s.h.isLt]
      exact ⟨by omega, by omega, by simp; omega⟩
    · refine ⟨_, _, advanceDetect_within (by omega) h3, h2, h3, ?_⟩
      rw [idx_succ_toNat hi s.w.isLt]
      omega

/-- A request is the scan position (42_detect.md R170). -/
theorem Inv.issueRequest {s : State} (h : Inv s) (hp : s.phase = .detect) : Inv s.issueRequest :=
  have hb : s.busy = true := (State.busy_iff s).mpr (.inr (.inl hp))
  have hf := h.scanField (.inl hp)
  { h with
    threshField := iff_of_false (by simp [State.issueRequest]) (by simp [State.issueRequest, hf])
    scanField := fun _ => hf
    image := fun _ => h.image hb
    imageRead := fun _ => h.imageRead hb
    threshPos := nofun
    automaton := nofun
    detectPos := fun _ => h.detectPos (.inl hp)
    request := fun _ => ⟨rfl, rfl⟩ }

theorem Inv.detectStep {s t : State} (h : Inv s) (hp : s.phase = .detect) (e : detectStep s = some t) : Inv t := by
  rw [detectStep_eq h hp, Option.some.injEq] at e
  subst e
  split
  · exact h.issueRequest hp
  · exact h.advanceDetect (.inl hp)

/-! ### Decode responses -/

/-- The checksum reads the 13 bits that are stored (42_detect.md R173). -/
theorem popcount13_ofNat (c : Nat) : popcount13 (BitVec.ofNat 13 c).toNat = popcount13 c := by
  unfold popcount13
  congr 1
  refine List.filter_congr fun i hi => ?_
  rw [BitVec.toNat_ofNat, Nat.testBit_mod_two_pow, decide_eq_true (List.mem_range.mp hi), Bool.true_and]

theorem State.responseSym_valid {s : State} {c : Nat} (hc : popcount13 c = 5) (hu : s.respUnit ≠ 0#32) :
    (s.responseSym c).valid = true := by
  simp only [Sym.valid, checksum, State.responseSym, popcount13_ofNat, hc, beq_self_eq_true, Bool.true_and]
  exact decide_eq_true hu

/-- An accepted symbol finds room in the table (10_state.md R33). -/
theorem Inv.appendSym {s : State} {e : Sym} (h : Inv s) (hl : s.syms.length ≠ s.params.nSym) (he : e.valid = true) :
    Inv { s with syms := s.syms ++ [e] } :=
  { h with
    symsBound := by
      rw [List.length_append]
      exact lt_of_le_of_ne h.symsBound hl
    symsValid := List.forall_mem_append.mpr ⟨h.symsValid, by simpa using he⟩ }

/-! ### Commands -/

/-- An operand the decoder yields fits its field (30_encoding.md R89). -/
theorem wellFormed_of_decode {c : Word} {i : Instr} (h : decode c = .ok i) : i.wellFormed = true := by
  obtain ⟨op, -, rfl⟩ := decode_eq_ok.mp h
  have le : ∀ lo width, bits c lo width ≤ 2 ^ width - 1 := fun lo width => Nat.le_pred_of_lt (bits_lt c lo width)
  cases op with
  | setDims => simpa [Op.instr, Instr.wellFormed] using ⟨le 0 14, le 14 14⟩
  | setDiameter => simpa [Op.instr, Instr.wellFormed] using le 0 16
  | loadByte => simpa [Op.instr, Instr.wellFormed] using le 0 8
  | loadPixel => simpa [Op.instr, Instr.wellFormed, and_assoc] using ⟨le 16 8, le 8 8, le 0 8⟩
  | decOk => simpa [Op.instr, Instr.wellFormed] using le 0 13
  | nop | loadReset | start | abort | decFail | clrErr | softReset => rfl

/-- MAXUNIT of a 16-bit diameter (10_state.md R23). -/
theorem ceil8_toNat_le {d : Nat} (h : d ≤ 65535) : (BitVec.ofNat 16 (ceil8 d)).toNat ≤ 8192 := by
  refine (Nat.mod_le _ _).trans ?_
  unfold ceil8
  omega

/-- SOFT_RESET keeps the memory, which was well formed (70_reset_and_hazards.md R241). -/
theorem Inv.softReset {s : State} (h : Inv s) : Inv s.softReset := inv_resetOf_withMemory h.legal h.memWf h.memBound _ _ _

theorem Inv.hardwareReset {s : State} (h : Inv s) : Inv s.hardwareReset :=
  inv_resetOf_withMemory h.legal Memory.wf_nil (List.forall_mem_nil _) _ _ _

/-- An ABORT leaves no running scan and no partly thresholded field (43_control.md R191). -/
theorem Inv.aborted {s : State} (h : Inv s) : Inv { s with field := fieldAfterAbort s, phase := .idle, syms := [] } := by
  have hf : fieldAfterAbort s = .none ∨ fieldAfterAbort s = s.field ∧ s.field ≠ .inThreshold := by
    unfold fieldAfterAbort
    split
    · exact .inl rfl
    · exact .inr ⟨rfl, h.threshField.not.mp ‹_›⟩
  refine StoreInv.inv { h with symsBound := Nat.zero_le _, symsValid := List.forall_mem_nil _, loaded := ?_ } rfl ?_
  · show fieldAfterAbort s = .raw → _
    rcases hf with hf | ⟨hf, -⟩
    · simp [hf]
    · rw [hf]; exact h.loaded
  · show fieldAfterAbort s ≠ _
    rcases hf with hf | ⟨hf, hne⟩
    · simp [hf]
    · rw [hf]; exact hne

/-- Every command with operands in range keeps the invariant. -/
theorem Inv.exec {i : Instr} {s t : State} (h : Inv s) (hw : i.wellFormed = true) (e : exec i s = .next t) : Inv t := by
  cases exec_next e with
  | refused => exact h.raise _
  | nop | abortIdle => exact h
  | setDims hb => exact StoreInv.inv { h with } hb (h.field_of_not_busy hb)
  | setDiameter hb => exact { h with maxUnit := ceil8_toNat_le (by simpa [Instr.wellFormed] using hw) }
  | loadReset hb => exact StoreInv.inv { h with bc := Nat.zero_le _, loaded := fun _ _ hk => by simp at hk } hb nofun
  | loadByte hb hf ht => exact h.acceptByte hb ht
  | loadPixel hb hf hu hv ht =>
    have hbu := (acceptByte_busy hu).trans hb
    have hbv := (acceptByte_busy hv).trans hbu
    exact ((h.acceptByte hb hu).acceptByte hbu hv).acceptByte hbv ht
  | start hb hok => exact h.started hok
  | startFails hb hok =>
    exact Inv.raise (s := { s with syms := [], phase := .idle })
      (StoreInv.inv { h with symsBound := Nat.zero_le _, symsValid := List.forall_mem_nil _ } rfl (h.field_of_not_busy hb)) _
  | abort => exact h.aborted.raise _
  | decOkDrops hp => exact (h.raise _).advanceDetect (.inr hp)
  | decOkOverflows hp =>
    have hf := h.scanField (.inr hp)
    exact StoreInv.inv { h with } rfl (by show s.field ≠ _; simp [hf])
  | decOkAppends hp hc hl => exact (h.appendSym hl (State.responseSym_valid hc.1 hc.2)).advanceDetect (.inr hp)
  | decFail hp => exact h.advanceDetect (.inr hp)
  | clrErr => exact h.of_frame rfl
  | softReset => exact h.softReset

/-! ### The threshold pass -/

/-- Between the automaton's step and the advance: the pixel at the scan position is done, and the automaton's counters fit the pixels
up to and including it. -/
structure PixelDone (s : State) : Prop where
  store     : StoreInv s
  phase     : s.phase = .thresh
  field     : s.field = .inThreshold
  image     : 1 ≤ s.w.toNat ∧ 1 ≤ s.h.toNat ∧ s.w.toNat * s.h.toNat ≤ s.params.maxPixels
  imageRead : ∀ k, k < s.w.toNat * s.h.toNat → s.written k = true
  pos       : s.row.toNat < s.h.toNat ∧ s.idx.toNat < s.w.toNat
  fits      : State.automatonFits { s with idx := s.idx + 1 }

section
variable {s : State} (h : Inv s) (hp : s.phase = .thresh)
include h hp

/-- CCOUNT grows by an acceptance only, and by no more than the runs that it closes (41_threshold.md R145, R150): an accepted triple
has a white run and at least two pixels of second black. -/
theorem State.afterAutomaton_ccount_toNat : ∃ n, s.afterAutomaton.ccount.toNat = s.ccount.toNat + n ∧
    n ≤ s.w1.toNat + s.b2.toNat ∧ (n ≠ 0 → s.fsm = .second ∧ s.passWhite = true) := by
  rw [State.afterAutomaton_ccount]
  by_cases ha : s.accepted = true
  · rw [if_pos ha]
    simp only [State.accepted, Bool.and_eq_true, decide_eq_true_eq] at ha
    obtain ⟨⟨hf, hw⟩, ha⟩ := ha
    obtain ⟨-, hb2, -⟩ := accept_bounds ha
    obtain ⟨hrun, -, -⟩ := h.automaton hp
    rw [hf] at hrun
    obtain ⟨-, hw1, -⟩ := hrun
    have hmax := h.ccount
    have hlegal := h.legal.2.1
    exact ⟨3, by simp; omega, by omega, fun _ => ⟨hf, hw⟩⟩
  · rw [if_neg ha]
    exact ⟨0, rfl, Nat.zero_le _, fun h => absurd rfl h⟩

/-- The automaton's step counts the pixel it reads in at most one of its runs, and an acceptance takes its flags out of the runs it
closes (41_threshold.md R149, R150). -/
theorem State.afterAutomaton_fits : State.automatonFits { s.afterAutomaton with idx := s.idx + 1 } := by
  obtain ⟨-, hi⟩ := h.threshPos hp
  obtain ⟨hrun, hrow, hcc⟩ := h.automaton hp
  obtain ⟨n, hc, hn, hn0⟩ := State.afterAutomaton_ccount_toNat h hp
  have hreg := State.afterAutomaton_fsm (s := s)
  have hw : s.afterAutomaton.w = s.w := by rw [State.afterAutomaton_eq]
  have hr : s.afterAutomaton.row = s.row := by rw [State.afterAutomaton_eq]
  have hidx : (s.idx + 1).toNat = s.idx.toNat + 1 := bv14_succ_toNat hi s.w.isLt
  have hmax := s.w.isLt
  unfold State.automatonFits
  dsimp only
  rw [hw, hr, hc, hidx]
  generalize s.afterAutomaton.fsm = f, s.afterAutomaton.b1 = b1, s.afterAutomaton.w1 = w1, s.afterAutomaton.b2 = b2 at hreg ⊢
  -- the eight rows of the automaton's table (41_threshold.md R140); only the last one has `n ≠ 0`
  rcases hf : s.fsm with _ | _ | _ | _ <;> rcases hwh : s.passWhite with _ | _
  all_goals
    simp only [hf, hwh, Prod.mk.injEq] at hrun hreg hn0
    obtain ⟨rfl, rfl, rfl, rfl⟩ := hreg
    simp at hn0 ⊢
    omega

/-- From the invariant, the classification and the automaton's step finish the pixel of the scan position. -/
theorem pixelDone_afterAutomaton : PixelDone s.afterAutomaton := by
  have hb := State.busy_of_thresh hp
  have himg := h.image hb
  have hpos := h.threshPos hp
  have hfits := State.afterAutomaton_fits h hp
  obtain ⟨hwf, hbound⟩ := State.afterAutomaton_memWf h hp
  have hread := fun k hk => State.afterAutomaton_written (h.imageRead hb k hk)
  have hrow := row_end_le (w := s.w.toNat) hpos.1
  have hidx : (s.idx + 1).toNat = s.idx.toNat + 1 := bv14_succ_toNat hpos.2 s.w.isLt
  obtain ⟨m, f, b, w, b', c, e⟩ : ∃ m f b w b' c, s.afterAutomaton =
      { s with mem := m, avg := BitVec.ofNat 24 s.newAvg, fsm := f, b1 := b, w1 := w, b2 := b', ccount := c } :=
    ⟨_, _, _, _, _, _, State.afterAutomaton_eq⟩
  rw [e] at hfits hwf hbound hread ⊢
  have hcc : c.toNat + w.toNat + b'.toNat ≤ s.row.toNat * s.w.toNat + (s.idx + 1).toNat := hfits.2.2
  have hc : c.toNat ≤ s.params.maxPixels := by
    rw [Nat.mul_comm s.h.toNat] at hrow
    omega
  have hf : s.field = .inThreshold := h.threshField.mp hp
  exact
    { store := { h with
        memWf := hwf
        memBound := hbound
        avg := by rw [State.newAvg_toNat h]; exact State.newAvg_le h
        ccount := hc
        loaded := by simp [hf] }
      phase := hp
      field := hf
      image := himg
      imageRead := hread
      pos := hpos
      fits := hfits }
end

/-- The advance out of a finished pixel: along the row, to the next row, to the detect pass or to the end (41_threshold.md R137). -/
theorem PixelDone.inv_advance {s : State} (h : PixelDone s) : Inv (advanceThreshold s) := by
  obtain ⟨hj, hi⟩ := h.pos
  obtain ⟨-, -, (hcc : s.ccount.toNat + s.w1.toNat + s.b2.toNat ≤ s.row.toNat * s.w.toNat + (s.idx + 1).toNat)⟩ := h.fits
  have hidx : (s.idx + 1).toNat = s.idx.toNat + 1 := bv14_succ_toNat hi s.w.isLt
  by_cases hw : s.idx.toNat + 1 = s.w.toNat
  swap
  · rw [advanceThreshold_within (by omega)]
    exact { h.store with
      threshField := iff_of_true h.phase h.field
      scanField := by simp [h.phase]
      image := fun _ => h.image
      imageRead := fun _ => h.imageRead
      threshPos := fun _ => ⟨hj, by dsimp only; omega⟩
      automaton := fun _ => h.fits
      detectPos := by simp [h.phase]
      request := by simp [h.phase] }
  by_cases hr : s.row.toNat + 1 = s.h.toNat
  swap
  · have hrow : (s.row + 1).toNat = s.row.toNat + 1 := bv14_succ_toNat hj s.h.isLt
    rw [advanceThreshold_next_row hw (by omega)]
    exact { h.store with
      threshField := iff_of_true h.phase h.field
      scanField := by simp [h.phase]
      image := fun _ => h.image
      imageRead := fun _ => h.imageRead
      threshPos := fun _ => ⟨by dsimp only; omega, h.image.1⟩
      automaton := fun _ => by
        refine ⟨⟨rfl, rfl, rfl⟩, Nat.zero_le _, ?_⟩
        show s.ccount.toNat ≤ (s.row + 1).toNat * s.w.toNat
        rw [hrow, Nat.succ_mul]
        omega
      detectPos := by simp [h.phase]
      request := by simp [h.phase] }
  by_cases hh : 5 ≤ s.h.toNat
  · rw [advanceThreshold_to_detect hw hr hh]
    exact { h.store with
      loaded := nofun
      threshField := iff_of_false nofun nofun
      scanField := fun _ => rfl
      image := fun _ => h.image
      imageRead := fun _ => h.imageRead
      threshPos := nofun
      automaton := nofun
      detectPos := fun _ => ⟨le_rfl, hh, h.image.1⟩
      request := nofun }
  · rw [advanceThreshold_to_done hw hr (by omega)]
    exact StoreInv.inv { h.store with loaded := nofun } rfl nofun

theorem Inv.thresholdStep {s t : State} (h : Inv s) (hp : s.phase = .thresh) (e : thresholdStep s = some t) : Inv t := by
  rw [thresholdStep_eq h hp, Option.some.injEq] at e
  exact e ▸ (pixelDone_afterAutomaton h hp).inv_advance

theorem Inv.coreStep {s t : State} (h : Inv s) (e : coreStep s = .next t) : Inv t := by
  rcases coreStep_cases e with ⟨hp, e⟩ | ⟨hp, e⟩ | ⟨-, -, rfl⟩
  · exact h.thresholdStep hp e
  · exact h.detectStep hp e
  · exact h

/-- Settles O45: by the kind of the move, each kind keeping the invariant. -/
theorem everyStepKeepsTheInvariant : Obligations.EveryStepKeepsTheInvariant := by
  intro s t h e
  rcases step_next_cases e with ⟨rest, -, hc⟩ | ⟨rest, -, rfl⟩ | ⟨rest, c, i, -, hd, hx⟩ | ⟨m, rest, -, -, -, -, hq⟩
  · exact (h.withInputs rest).coreStep hc
  · exact (h.withInputs rest).hardwareReset
  · exact (h.withInputs rest).exec (wellFormed_of_decode hd) hx
  · exact h.of_frame hq.frame

end Sys2Proof.Machine
end

section
/-! PROOFS. The family of 10_state.md: what the bus reads and writes, STATUS (R40), the registers (R37 to R57) and the symbol window
(R58). -/

namespace Sys2Proof.Machine

/-! ### Reads and writes of the bus -/

/-- A read of a mapped offset latches its word and changes nothing else (20_memory.md R64). -/
theorem step_read {s : State} {rest : List Input} {off : BitVec 32} {x : Target} (hi : s.inputs = .read off :: rest)
    (hx : target s.params off = some x) : step s = .next { s with inputs := rest, rdata := some (s.readTarget x) } := by
  unfold step
  rw [hi]
  show Host.Outcome.next (busRead off { s with inputs := rest }) = _
  have hx' : target ({ s with inputs := rest } : State).params off = some x := hx
  rw [busRead, State.busData, hx']
  cases x <;> rfl

theorem step_read_reg {s : State} {rest : List Input} {off : Nat} {r : Reg} (hr : (off, r) ∈ regMap)
    (hi : s.inputs = .read (BitVec.ofNat 32 off) :: rest) :
    step s = .next { s with inputs := rest, rdata := some (s.readReg r) } := step_read hi (target_reg hr)

/-- Settles O5: CMD is the register at 0x004, and the decoder is the one `decodeTableWord` runs. -/
theorem stepExecutesTheDecodedCommand : Obligations.StepExecutesTheDecodedCommand := by
  have atCmd : ∀ (s : State) (rest : List Input) (c : Word) (i : Instr),
      s.inputs = .write 0x004#32 c :: rest → decode c = .ok i → step s = exec i { s with inputs := rest } := by
    intro s rest c i hi hd
    rw [step_write hi]
    show execWord c _ = _
    rw [execWord, hd]
  refine ⟨atCmd, fun s nbits w i h => ?_⟩
  refine atCmd (s.withFetchWord nbits w) s.inputs _ i rfl ?_
  unfold decodeTableWord at h
  split at h
  · cases h; assumption
  · cases h

/-! ### STATUS and the registers -/

theorem State.status_high (s : State) : s.status.extractLsb' 17 15 = 0#15 := by
  apply BitVec.eq_of_getLsbD_eq
  intro i hi
  rw [BitVec.getLsbD_extractLsb', State.status_getLsbD]
  interval_cases i <;> simp

/-- STATUS reads 0 at reset, whatever the parameters (70_reset_and_hazards.md R240). -/
theorem State.status_resetOf (p : Params) : (State.resetOf p).status = 0#32 := by
  have hirq : (State.resetOf p).irq = false := by simp [State.irq, State.enDone, State.enReq, State.enErr, State.resetOf]
  rw [State.status, hirq]
  show 0#15 ++ 0#1 ++ 0#8 ++ 0#1 ++ 0#1 ++ 0#2 ++ 0#1 ++ 0#3 = 0#32
  decide

/-- Settles O53: STATUS bit by bit, and its address. -/
theorem statusLayout : Obligations.StatusLayout := by
  intro s
  have bit := s.status_getLsbD
  refine ⟨?_, ?_, ?_, bit 6, bit 7, bit 8, bit 9, bit 10, bit 11, bit 12, bit 13, bit 14, bit 15, bit 16, ?_, State.status_resetOf,
    fun rest hi => step_read_reg (off := 0x008) (r := .status) (by decide) hi⟩
  · rw [bits, State.status_phase]
    cases s.phase <;> rfl
  · refine (bit 3).trans ?_
    cases hp : s.phase <;> simp [State.busy, Phase.busy, hp]
  · rw [bits, State.status_field]
    cases s.field <;> rfl
  · rw [bits, State.status_high]
    rfl

/-- Settles O54: each register's offset, then each word of the list. -/
theorem registersReadAsLaidOut : Obligations.RegistersReadAsLaidOut := by
  refine ⟨fun s rest off r hr hi => ?_, fun s => ?_⟩
  · refine step_read_reg (off := off.toNat) ?_ (by simpa using hi)
    exact List.mem_map_of_mem (f := fun c : BitVec 32 × Reg => (c.1.toNat, c.2)) hr
  · have wide : ∀ {n : Nat} (v : BitVec n), n ≤ 32 → (v.setWidth 32).toNat = v.toNat := fun v hn => BitVec.toNat_setWidth_of_le hn
    refine ⟨rfl, rfl, rfl, rfl, rfl, rfl, pair14_toNat _ _, wide s.maxUnit (by decide), wide s.bc (by decide), rfl, fun hl => ?_,
      pair14_toNat _ _, rfl, rfl, rfl, rfl, wide s.irqEn (by decide), pair14_toNat _ _, ?_, ?_, wide s.b2 (by decide),
      wide s.avg (by decide)⟩
    · refine (wide s.symcount (by decide)).trans ?_
      simp [State.symcount]
      omega
    · refine (wide s.fsm.code (by decide)).trans ?_
      cases s.fsm <;> rfl
    · show (s.w1 ++ s.b1).toNat = _
      rw [BitVec.toNat_append, ← Nat.shiftLeft_add_eq_or_of_lt s.b1.isLt, Nat.shiftLeft_eq]

/-! ### The symbol window -/

/-- The words of an accepted symbol (10_state.md R58). -/
theorem Sym.word_flags (e : Sym) : e.word 0 = 0x80000000#32 ||| e.code.setWidth 32 := by
  apply BitVec.eq_of_getLsbD_eq
  intro i hi
  simp only [Sym.word, BitVec.getLsbD_append]
  interval_cases i <;> simp

theorem Sym.word_reserved (e : Sym) {j : Nat} (h : 5 ≤ j) : e.word j = 0#32 := by
  unfold Sym.word
  split <;> first | omega | rfl

theorem State.symWord_of_lt {s : State} {i : Nat} (h : i < s.syms.length) (j : Nat) : s.symWord i j = s.syms[i].word j := by
  rw [State.symWord, List.getElem?_eq_getElem h]

theorem State.symWord_of_ge {s : State} {i : Nat} (h : s.syms.length ≤ i) (j : Nat) : s.symWord i j = 0#32 := by
  rw [State.symWord, List.getElem?_eq_none h]

/-- Settles O57: the address of word `j` of slot `i` names that word, and no offset of the window is writable. -/
theorem symbolWindowReadsAcceptedSymbols : Obligations.SymbolWindowReadsAcceptedSymbols := by
  refine ⟨fun s rest i j _ _ hi hj hr => ⟨s.symWord i j, ?_, fun h => ?_, fun h => State.symWord_of_ge h j⟩,
    fun s rest off v h1 _ hw => ?_⟩
  · have hoff : (BitVec.ofNat 32 (0x1000 + 0x20 * i + 4 * j)).toNat = 0x1000 + 0x20 * i + 4 * j := by simp; omega
    refine step_read (x := .symtab i j) hr ?_
    rw [target_symtab (by omega) (by omega) (by omega), hoff]
    congr 2 <;> omega
  · rw [State.symWord_of_lt h]
    refine ⟨?_, ?_, ?_, ?_, ?_, Sym.word_reserved _⟩
    · rintro rfl; exact Sym.word_flags _
    all_goals rintro rfl; rfl
  · rw [step_write hw]
    rcases busWrite_cases off v { s with inputs := rest } with
      ⟨rfl, -⟩ | ⟨rfl, -⟩ | ⟨rfl, -⟩ | ⟨rfl, -⟩ | ⟨rfl, -⟩ | ⟨rfl, -⟩ | ⟨-, e⟩
    rotate_right
    · exact e
    all_goals exact absurd h1 (by decide)

end Sys2Proof.Machine
end

section
/-! PROOFS. The family of 20_memory.md: every move keeps the thresholded field of a running scan (R62; 41_threshold.md R149, R151). -/

namespace Sys2Proof.Machine

/-! ### Thresholded words -/

/-- The word the pass writes is thresholded in every column: its flag is clear (41_threshold.md R135, R151). -/
theorem wordThresholded_thresholdedWord {w x : Nat} {white : Bool} {a : BitVec 24} (ha : a.toNat ≤ 7650) :
    wordThresholded w x (thresholdedWord white a) := by
  refine ⟨?_, ?_, fun hf => ?_⟩
  · rw [thresholdedWord_toNat]
    split <;> omega
  · exact (storedAvg_thresholdedWord white a).le.trans ha
  · exact absurd hf (by rw [← flagBit, flagBit_thresholdedWord]; simp)

/-- A flag in columns 1 .. W-2 keeps the word thresholded (41_threshold.md R148, R149). -/
theorem wordThresholded.setFlag {w x : Nat} {v : Word} (h : wordThresholded w x v) (hx : 1 ≤ x ∧ x + 2 ≤ w) :
    wordThresholded w x (setFlag v) := by
  obtain ⟨hlt, havg, -⟩ := h
  exact ⟨setFlag_toNat_lt hlt, (storedAvg_setFlag v).le.trans havg, fun _ => hx⟩

/-- A word strictly inside row `j` belongs to a pixel in columns 1 .. W-2. -/
theorem column_inside_row {w x y j : Nat} (hx : x < w) (h1 : j * w + 1 ≤ y * w + x) (h2 : y * w + x + 2 ≤ j * w + w) :
    1 ≤ x ∧ x + 2 ≤ w := by
  rcases lt_trichotomy y j with hy | rfl | hy
  · have := row_end_le (w := w) hy
    omega
  · omega
  · have := row_end_le (w := w) hy
    omega

/-! ### Moves that leave the image alone -/

/-- What the claim on the field reads besides the scan position: the dimensions and the words of memory. -/
def State.image (s : State) : BitVec 14 × BitVec 14 × Memory × Nat := (s.w, s.h, s.mem, s.epoch)

theorem State.pixel_of_image {s t : State} (h : t.image = s.image) (k : Nat) : t.pixel k = s.pixel k := by
  simp only [State.image, Prod.mk.injEq] at h
  obtain ⟨-, -, hm, he⟩ := h
  simp only [State.pixel, State.readByte, hm, he]

theorem State.processed_of_phase_ne {s : State} (hp : s.phase ≠ .thresh) (x y : Nat) : s.processed x y := fun h => absurd h hp

/-- The claim on the field carries over to a state with the same image and no pixel newly processed. -/
theorem FieldInv.of_image {s t : State} (h : FieldInv s) (hi : t.image = s.image) (hb : t.busy = true → s.busy = true)
    (hproc : ∀ x y, t.processed x y → s.processed x y) : FieldInv t := by
  intro htb x y hx hy hxy
  have hpix := State.pixel_of_image hi
  simp only [State.image, Prod.mk.injEq] at hi
  obtain ⟨hw, hh, -, -⟩ := hi
  rw [hw] at hx ⊢
  rw [hh] at hy
  rw [hpix]
  exact h (hb htb) x y hx hy (hproc x y hxy)

/-- Past the threshold pass every pixel is processed, so only the image matters (42_detect.md R176). -/
theorem FieldInv.of_detecting {s t : State} (h : FieldInv s) (hp : s.phase = .detect ∨ s.phase = .waitDec)
    (hi : t.image = s.image) : FieldInv t :=
  have hne : s.phase ≠ .thresh := by rcases hp with hp | hp <;> simp [hp]
  h.of_image hi (fun _ => (State.busy_iff s).mpr (.inr hp)) fun x y _ => State.processed_of_phase_ne hne x y

theorem FieldInv.detectStep {s t : State} (h : FieldInv s) (hp : s.phase = .detect) (e : detectStep s = some t) : FieldInv t :=
  h.of_detecting (.inl hp) (by rw [detectStep_frame e]; rfl)

/-- No pixel of a scan that has just started is processed. -/
theorem fieldInv_of_first_pixel {s : State} (hp : s.phase = .thresh) (hr : s.row = 0#14) (hi : s.idx = 0#14) : FieldInv s := by
  intro _ x y _ _ hxy
  have := hxy hp
  simp [hr, hi] at this

/-- Every command keeps the thresholded field: outside a scan there is none, and in a scan no command touches it. -/
theorem FieldInv.exec {i : Instr} {s t : State} (h : FieldInv s) (e : exec i s = .next t) : FieldInv t := by
  cases exec_next e with
  | refused | clrErr => exact h.of_image rfl id fun _ _ => id
  | nop | abortIdle => exact h
  | setDims hb | setDiameter hb | loadReset hb => exact fieldInv_of_not_busy hb
  | loadByte hb _ ht => exact fieldInv_of_not_busy ((acceptByte_busy ht).trans hb)
  | loadPixel hb _ hu hv ht =>
    exact fieldInv_of_not_busy ((acceptByte_busy ht).trans ((acceptByte_busy hv).trans ((acceptByte_busy hu).trans hb)))
  | start => exact fieldInv_of_first_pixel rfl rfl rfl
  | startFails | abort | decOkOverflows | softReset => exact fieldInv_of_not_busy rfl
  | decOkDrops hp | decOkAppends hp | decFail hp => exact h.of_detecting (.inr hp) rfl

theorem FieldInv.quiet {s t : State} (h : FieldInv s) (hq : Quiet s t) : FieldInv t := by
  rw [hq.frame]
  exact h.of_image rfl id fun _ _ => id

/-! ### The threshold pass -/

/-- Between the automaton's step and the advance: the processed pixels and the one at the scan position hold thresholded words. -/
def FieldDone (s : State) : Prop :=
  ∀ x y, x < s.w.toNat → y < s.h.toNat → s.processed x y ∨ y * s.w.toNat + x = s.passWord →
    wordThresholded s.w.toNat x (s.pixel (y * s.w.toNat + x))

/-- The step writes the word of the scan position, and flags, on an acceptance, words of the current row in columns 1 .. W-2
(41_threshold.md R135, R149). -/
theorem FieldInv.fieldDone_afterAutomaton {s : State} (hf : FieldInv s) (h : Inv s) (hp : s.phase = .thresh) :
    FieldDone s.afterAutomaton := by
  intro x y hx hy hxy
  have hframe : s.afterAutomaton.w = s.w ∧ s.afterAutomaton.h = s.h ∧ s.afterAutomaton.passWord = s.passWord ∧
      (s.afterAutomaton.processed x y ↔ s.processed x y) := by
    rw [State.afterAutomaton_eq]
    exact ⟨rfl, rfl, rfl, Iff.rfl⟩
  obtain ⟨ew, eh, ek, ep⟩ := hframe
  rw [ew, ek, ep] at hxy
  rw [ew] at hx ⊢
  rw [eh] at hy
  rw [State.afterAutomaton_pixel h hp]
  by_cases hk : y * s.w.toNat + x = s.passWord
  · rw [if_pos hk]
    exact wordThresholded_thresholdedWord ((State.newAvg_toNat h).le.trans (State.newAvg_le h))
  · have hold := hf (State.busy_of_thresh hp) x y hx hy (hxy.resolve_right hk)
    rw [if_neg hk]
    split
    · rename_i hwin
      obtain ⟨ha, hwin⟩ := hwin
      obtain ⟨h1, h2, -⟩ := State.accepted_window h hp ha
      exact hold.setFlag (column_inside_row (y := y) (j := s.row.toNat) hx (by omega) (by omega))
    · exact hold

/-- The pixels processed after the advance are those processed before it and the one it leaves (41_threshold.md R131, R137). -/
theorem processed_of_advance {s : State} {x y : Nat} (hp : s.phase = .thresh) (hj : s.row.toNat < s.h.toNat)
    (hi : s.idx.toNat < s.w.toNat) (hx : x < s.w.toNat) (hy : y < s.h.toNat)
    (hxy : (advanceThreshold s).processed x y) : s.processed x y ∨ y * s.w.toNat + x = s.passWord := by
  -- how far the serpentine has come in row `y`
  generalize hc : (if y % 2 = 0 then x else s.w.toNat - 1 - x) = c
  suffices y < s.row.toNat ∨ y = s.row.toNat ∧ c ≤ s.idx.toNat by
    rw [State.eq_passWord_iff hi hx, State.processed, hc]
    rcases this with h | ⟨h, hle⟩
    · exact .inl fun _ => .inl h
    · rcases hle.lt_or_eq with hlt | heq
      · exact .inl fun _ => .inr ⟨h, hlt⟩
      · exact .inr ⟨h, heq⟩
  have hcw : c < s.w.toNat := by
    rw [← hc]
    split <;> omega
  by_cases hw : s.idx.toNat + 1 = s.w.toNat
  swap
  · have hidx : (s.idx + 1).toNat = s.idx.toNat + 1 := bv14_succ_toNat hi s.w.isLt
    rw [advanceThreshold_within (by omega)] at hxy
    have := hxy hp
    dsimp only at this
    rw [hidx, hc] at this
    omega
  by_cases hr : s.row.toNat + 1 = s.h.toNat
  · omega
  · have hrow : (s.row + 1).toNat = s.row.toNat + 1 := bv14_succ_toNat hj s.h.isLt
    rw [advanceThreshold_next_row hw (by omega)] at hxy
    have := hxy hp
    dsimp only at this
    rw [hrow] at this
    simp at this
    omega

theorem FieldDone.fieldInv_advance {s : State} (hf : FieldDone s) (h : PixelDone s) : FieldInv (advanceThreshold s) := by
  intro _ x y hx hy hxy
  obtain ⟨hj, hi⟩ := h.pos
  have himg : (advanceThreshold s).image = s.image := by rw [advanceThreshold_frame]; rfl
  have ew : (advanceThreshold s).w = s.w := by rw [advanceThreshold_frame]
  have eh : (advanceThreshold s).h = s.h := by rw [advanceThreshold_frame]
  rw [ew] at hx ⊢
  rw [eh] at hy
  rw [State.pixel_of_image himg]
  exact hf x y hx hy (processed_of_advance h.phase hj hi hx hy hxy)

theorem FieldInv.thresholdStep {s t : State} (hf : FieldInv s) (h : Inv s) (hp : s.phase = .thresh)
    (e : thresholdStep s = some t) : FieldInv t := by
  rw [thresholdStep_eq h hp, Option.some.injEq] at e
  exact e ▸ (hf.fieldDone_afterAutomaton h hp).fieldInv_advance (pixelDone_afterAutomaton h hp)

theorem FieldInv.coreStep {s t : State} (hf : FieldInv s) (h : Inv s) (e : coreStep s = .next t) : FieldInv t := by
  rcases coreStep_cases e with ⟨hp, e⟩ | ⟨hp, e⟩ | ⟨-, -, rfl⟩
  · exact hf.thresholdStep h hp e
  · exact hf.detectStep hp e
  · exact hf

theorem FieldInv.withInputs {s : State} (h : FieldInv s) (i : List Input) : FieldInv { s with inputs := i } :=
  h.of_image rfl id fun _ _ => id

/-- Settles O47: by the kind of the move; only the threshold pass needs the invariant of the block. -/
theorem everyStepKeepsTheThresholdedField : Obligations.EveryStepKeepsTheThresholdedField := by
  intro s t h hf e
  rcases step_next_cases e with ⟨rest, -, hc⟩ | ⟨rest, -, rfl⟩ | ⟨rest, c, i, -, -, hx⟩ | ⟨m, rest, -, -, -, -, hq⟩
  · exact (hf.withInputs rest).coreStep (h.withInputs rest) hc
  · exact fieldInv_of_not_busy rfl
  · exact (hf.withInputs rest).exec hx
  · exact hf.quiet hq

end Sys2Proof.Machine
end

section
/-! PROOFS. The family of 20_memory.md: the bus transactions (R64, R65) and the pixel window (R63). -/

namespace Sys2Proof.Machine

/-! ### Reads and writes the bus answers with ERR_BUS -/

/-- A read of a misaligned or unmapped offset latches 0 and raises ERR_BUS (20_memory.md R64, R68). -/
theorem step_read_refused {s : State} {rest : List Input} {off : BitVec 32} (hi : s.inputs = .read off :: rest)
    (hx : target s.params off = none) :
    step s = .next { s with inputs := rest, rdata := some 0#32, errs := s.errs ||| 0x40#8 } := by
  unfold step
  rw [hi]
  show Host.Outcome.next (busRead off { s with inputs := rest }) = _
  have hx' : target ({ s with inputs := rest } : State).params off = none := hx
  rw [busRead, State.busData, hx']
  rfl

/-- A write away from CMD and the RW registers raises ERR_BUS and changes nothing else (20_memory.md R65). -/
theorem step_write_refused {s : State} {rest : List Input} {off : BitVec 32} {v : Word} (hi : s.inputs = .write off v :: rest)
    (ho : off ∉ [0x004#32, 0x024#32, 0x028#32, 0x02C#32, 0x030#32, 0x034#32]) :
    step s = .next { s with inputs := rest, errs := s.errs ||| 0x40#8 } := by
  rw [step_write hi]
  rcases busWrite_cases off v { s with inputs := rest } with
    ⟨rfl, -⟩ | ⟨rfl, -⟩ | ⟨rfl, -⟩ | ⟨rfl, -⟩ | ⟨rfl, -⟩ | ⟨rfl, -⟩ | ⟨-, e⟩
  rotate_right
  · exact e
  all_goals exact absurd ho (by decide)

/-- The writable offsets are those of registers, below 0x58 (10_state.md R37). -/
theorem not_writable_of_le {off : BitVec 32} (h : 0x58 ≤ off.toNat) :
    off ∉ [0x004#32, 0x024#32, 0x028#32, 0x02C#32, 0x030#32, 0x034#32] := by
  have below : ∀ c ∈ [0x004#32, 0x024#32, 0x028#32, 0x02C#32, 0x030#32, 0x034#32], c.toNat < 0x58 := by simp
  intro hm
  have := below off hm
  omega

theorem State.busData_of_target {s : State} {off : BitVec 32} {x : Target} (hx : target s.params off = some x) :
    s.busData off = s.readTarget x := by rw [State.busData, hx]

/-- Settles O55: an offset of the address map has a target, whose word is read; any other has none. -/
theorem busReadEffects : Obligations.BusReadEffects := by
  intro s rest off hl hi
  have hmap := target_isSome_iff (off := off) hl.1
  refine ⟨fun hm => ?_, fun hm => ?_⟩
  · obtain ⟨x, hx⟩ := Option.isSome_iff_exists.mp (hmap.mpr hm)
    rw [State.busData_of_target hx]
    exact step_read hi hx
  · exact step_read_refused hi (Option.not_isSome_iff_eq_none.mp (hmap.not.mpr hm))

/-- Settles O56: the six writable offsets name their registers, and every other write is refused. -/
theorem busWriteEffects : Obligations.BusWriteEffects := by
  intro s rest off v hi
  refine ⟨?_, ?_, ?_, ?_, ?_, ?_, step_write_refused hi⟩
  all_goals
    rintro rfl
    rw [step_write hi]
    rfl

/-! ### The pixel window -/

theorem pixelOffset_toNat {k : Nat} (h : 0x04000000 + 4 * k < 2 ^ 32) :
    (BitVec.ofNat 32 (0x04000000 + 4 * k)).toNat = 0x04000000 + 4 * k := by
  rw [BitVec.toNat_ofNat, Nat.mod_eq_of_lt h]

/-- The offsets of the window name the words of pixel memory in order (20_memory.md R63). -/
theorem target_pixelOffset {p : Params} {k : Nat} (hp : p.Legal) (hk : k < p.maxPixels) :
    target p (BitVec.ofNat 32 (0x04000000 + 4 * k)) = some (.pixel k) := by
  obtain ⟨-, hmax, -⟩ := hp
  have hoff := pixelOffset_toNat (k := k) (by omega)
  rw [target_pixel (by omega) (by omega) (by omega), hoff]
  congr 2
  omega

/-- Past the memory the window is unmapped (20_memory.md R71). -/
theorem target_pixelOffset_past {p : Params} {k : Nat} (hp : p.Legal) (hk : p.maxPixels ≤ k) (h32 : 0x04000000 + 4 * k < 2 ^ 32) :
    target p (BitVec.ofNat 32 (0x04000000 + 4 * k)) = none := by
  have hoff := pixelOffset_toNat h32
  obtain ⟨hpos, -⟩ := hp
  rw [← Option.not_isSome_iff_eq_none, target_isSome_iff hpos, hoff]
  omega

/-- Settles O58: the window's offsets and the refusals on either side. -/
theorem pixelWindowIsReadOnly : Obligations.PixelWindowIsReadOnly := by
  refine ⟨fun s rest k hl hk hi => step_read hi (target_pixelOffset hl hk), fun s rest k v hl hk hi => ?_,
    fun s rest k hl hk h32 hi => step_read_refused hi (target_pixelOffset_past hl hk h32)⟩
  obtain ⟨-, hmax, -⟩ := hl
  refine step_write_refused hi (not_writable_of_le ?_)
  rw [pixelOffset_toNat (by omega)]
  omega

end Sys2Proof.Machine
end

section
/-! PROOFS. The family of 30_encoding.md: the decoder and the encoder are inverse (R81 to R83, R89), the table's rows (R87), the
illegal words (R84, R85) and ANSWER_OK (R90). -/

namespace Sys2Proof.Machine

/-! ### The encoder against the decoder -/

/-- The fields of a well-formed command's word are its operands (30_encoding.md R82). -/
theorem instr_encode {i : Instr} (h : i.wellFormed = true) : i.op.instr (encode i) = i := by
  have hc := encode_toNat h
  cases i with
  | setDims | setDiameter | loadByte | loadPixel | decOk =>
    simp only [Instr.wellFormed, Bool.and_eq_true, decide_eq_true_eq] at h
    simp only [Instr.op, Op.pattern, BitVec.toNat_ofNat, Instr.payload] at hc
    simp only [Instr.op, Op.instr, bits_eq, hc, Instr.setDims.injEq, Instr.setDiameter.injEq, Instr.loadByte.injEq,
      Instr.loadPixel.injEq, Instr.decOk.injEq]
    omega
  | nop | loadReset | start | abort | decFail | clrErr | softReset => rfl

/-- The operands of a row, put back into a payload, are the row's free low bits of the word (30_encoding.md R81, R89). -/
theorem payload_instr (c : Word) (op : Op) : (op.instr c).payload = c.toNat % 2 ^ op.payloadBits := by
  cases op with
  | setDims | setDiameter | loadByte | loadPixel | decOk =>
    simp only [Op.instr, Instr.payload, Op.payloadBits, bits_eq]
    omega
  | nop | loadReset | start | abort | decFail | clrErr | softReset => simp [Op.instr, Instr.payload, Op.payloadBits, Nat.mod_one]

/-- A word that matches a row is the row's pattern with the payload below it. -/
theorem encode_instr_of_legal {c : Word} {op : Op} (h : c &&& op.mask = op.pattern) : encode (op.instr c) = c := by
  rw [legal_iff] at h
  rw [encode, Op.instr_op, payload_instr, ← h, Nat.div_add_mod', BitVec.ofNat_toNat, BitVec.setWidth_eq]

/-- Settles O1: the word of a well-formed command matches the command's row, and the row's fields are its operands. -/
theorem encodeThenDecodeGivesTheCommand : Obligations.EncodeThenDecodeGivesTheCommand := fun i h =>
  decode_eq_ok.mpr ⟨i.op, Laws.TableRow.of_wellFormed i h, (instr_encode h).symm⟩

/-- Settles O2: a decoded word matches a row, whose fields are in range and make up the whole word. -/
theorem decodedWordReencodes : Obligations.DecodedWordReencodes := by
  intro c i h
  refine ⟨wellFormed_of_decode h, ?_⟩
  obtain ⟨op, hl, rfl⟩ := decode_eq_ok.mp h
  exact encode_instr_of_legal hl

/-! ### The rows of the table -/

/-- The opcode of a row's pattern names the row (30_encoding.md R83). -/
theorem ofCode_pattern (op : Op) : Op.ofCode (bits op.pattern 28 4) = some op := by cases op <;> rfl

/-- No row has an opcode from 0xC on (30_encoding.md R84). -/
theorem ofCode_reserved {n : Nat} (h : 12 ≤ n) : Op.ofCode n = none := by
  obtain ⟨k, rfl⟩ := Nat.exists_eq_add_of_le' h
  rfl

/-- The table's list leaves no opcode out. -/
theorem Op.mem_all (op : Op) : op ∈ Op.all := by cases op <;> decide

/-- A word matches at most one row: its opcode names the row (30_encoding.md R87). -/
theorem rows_disjoint {c : Word} {a b : Op} (ha : c &&& a.mask = a.pattern) (hb : c &&& b.mask = b.pattern) : a = b :=
  Option.some.inj ((ofCode_of_legal ha).symm.trans (ofCode_of_legal hb))

/-- Settles O3: a word decodes exactly by the rows it matches, and its opcode allows one of the twelve. -/
theorem decodingFollowsTheDisjointTableRows : Obligations.DecodingFollowsTheDisjointTableRows := by
  refine ⟨fun c op h => decode_eq_ok.mpr ⟨op, h, rfl⟩, fun c hno => ?_, Op.mem_all, fun c a b => rows_disjoint⟩
  cases hd : decode c with
  | error r => exact ⟨r, rfl⟩
  | ok i =>
    obtain ⟨op, hl, -⟩ := decode_eq_ok.mp hd
    exact absurd hl (hno op (Op.mem_all op))

/-! ### Illegal words -/

/-- A word with a reserved opcode, or with a 1 in a reserved bit of its opcode's format, matches no row (30_encoding.md R84, R85). -/
theorem decode_ne_ok_of_reserved {c : Word}
    (h : 12 ≤ bits c 28 4 ∨ ∃ op : Op, bits c 28 4 = bits op.pattern 28 4 ∧ c &&& op.mask ≠ op.pattern) (i : Instr) :
    decode c ≠ .ok i := by
  intro hd
  obtain ⟨row, hl, -⟩ := decode_eq_ok.mp hd
  have hrow := ofCode_of_legal hl
  rcases h with hr | ⟨op, hop, hne⟩
  · rw [ofCode_reserved hr] at hrow
    cases hrow
  · rw [hop, ofCode_pattern] at hrow
    cases hrow
    exact hne hl

/-- Settles O6: such a word does not decode, so its execution raises ERR_ILLEGAL, whatever the phase. -/
theorem illegalWordOnlySetsErrIllegal : Obligations.IllegalWordOnlySetsErrIllegal := by
  intro s rest c hi h
  obtain ⟨atCmd, -⟩ := busWriteEffects s rest 0x004#32 c hi
  rw [atCmd rfl]
  rcases execWord_cases c { s with inputs := rest } with ⟨i, hd, -⟩ | ⟨r, -, he⟩
  · exact absurd hd (decode_ne_ok_of_reserved h i)
  · exact he

/-! ### ANSWER_OK -/

/-- A pending write that the bus answers is the first of the steps to run. -/
theorem steps_write {n : Nat} {s t : State} {rest : List Input} {off : BitVec 32} {v : Word} (hi : s.inputs = .write off v :: rest)
    (ht : busWrite off v { s with inputs := rest } = .next t) : steps (n + 1) s = steps n t := by
  rw [steps, step_write hi, ht, andThen_next]

/-- The four response writes fill the response registers (30_encoding.md R90). -/
theorem steps_responseWrites {n : Nat} {s : State} {rest : List Input} {x y u o : Word}
    (hi : s.inputs = .write 0x024#32 x :: .write 0x028#32 y :: .write 0x02C#32 u :: .write 0x030#32 o :: rest) :
    steps (n + 4) s = steps n { s with inputs := rest, respX := x, respY := y, respUnit := u, respOrient := o } :=
  calc steps (n + 4) s
    _ = steps (n + 3) { s with
          inputs := .write 0x028#32 y :: .write 0x02C#32 u :: .write 0x030#32 o :: rest, respX := x } := steps_write hi rfl
    _ = steps (n + 2) { s with inputs := .write 0x02C#32 u :: .write 0x030#32 o :: rest, respX := x, respY := y } :=
          steps_write rfl rfl
    _ = steps (n + 1) { s with inputs := .write 0x030#32 o :: rest, respX := x, respY := y, respUnit := u } := steps_write rfl rfl
    _ = _ := steps_write rfl rfl

/-- DEC_OK answering a request with a valid code, a non-zero unit and room in the table (42_detect.md R171). -/
theorem execDecOk_appends {c : Nat} {s : State} (hp : s.phase = .waitDec) (hc : popcount13 c = 5) (hu : s.respUnit ≠ 0#32)
    (hl : s.syms.length < s.params.nSym) :
    execDecOk c s = .next (advanceDetect { s with syms := s.syms ++ [s.responseSym c] }) := by
  rw [execDecOk, if_neg (not_not.mpr hp), if_neg (by simp [hc, hu]), if_neg hl.ne]

/-- Delivering a well-formed command executes it (10_state.md R39, 30_encoding.md R89). -/
theorem step_command {s : State} {rest : List Input} {i : Instr} (hw : i.wellFormed = true) (hi : s.inputs = command i :: rest) :
    step s = exec i { s with inputs := rest } :=
  stepExecutesTheDecodedCommand.1 s rest (encode i) i hi (encodeThenDecodeGivesTheCommand i hw)

theorem steps_one (s : State) : steps 1 s = step s := by
  rw [steps]
  cases step s <;> rfl

/-- Settles O60: four writes fill the response registers, and the DEC_OK that follows reads them. -/
theorem answerOkAppendsTheWrittenSymbol : Obligations.AnswerOkAppendsTheWrittenSymbol := by
  intro s rest c x y u o hp hi hc hpop hu hl
  have hw : (Instr.decOk c).wellFormed = true := decide_eq_true hc
  calc steps 5 s
    _ = steps 1 { s with
          inputs := command (.decOk c) :: rest, respX := x, respY := y, respUnit := u, respOrient := o } :=
          steps_responseWrites (n := 1) hi
    _ = execDecOk c { s with inputs := rest, respX := x, respY := y, respUnit := u, respOrient := o } :=
          (steps_one _).trans (step_command hw rfl)
    _ = _ := execDecOk_appends hp hpop hu hl

end Sys2Proof.Machine
end

section
/-! PROOFS. The family of 40_load.md: the dimensions (R100), the stream's opening (R101), its bytes (R102) and pixels (R103), and the
image a stream leaves in memory (R104, R105). -/

namespace Sys2Proof.Machine

/-! ### The gates of the load commands (R100 to R103) -/

theorem execLoadByte_closed {b : Nat} {s : State} (hb : s.busy = false) (hf : s.field ≠ .raw) :
    exec (.loadByte b) s = .next (s.raise .proto) := by simp [exec, execLoadByte, hb, hf]

theorem execLoadPixel_closed {r g b : Nat} {s : State} (hb : s.busy = false) (hf : s.field ≠ .raw) :
    exec (.loadPixel r g b) s = .next (s.raise .proto) := by simp [exec, execLoadPixel, hb, hf]

/-- The state in which LOAD_RESET leaves an idle block (40_load.md R101). -/
def State.streamOpened (s : State) : State :=
  { s with bc := 0#26, stgR := 0#8, stgG := 0#8, loadOvf := false, field := .raw }

theorem execLoadReset_idle {s : State} (hb : s.busy = false) : exec .loadReset s = .next s.streamOpened := by
  simp [exec, execLoadReset, hb, State.streamOpened]

theorem execSetDims_idle {w h : Nat} {s : State} (hb : s.busy = false) :
    exec (.setDims w h) s = .next { s with w := BitVec.ofNat 14 w, h := BitVec.ofNat 14 h } := by
  simp [exec, execSetDims, hb]

/-! ### SET_DIMS and LOAD_RESET -/

/-- SET_DIMS has no reserved bit: its opcode alone makes a word match its row (30_encoding.md R81, R85). -/
theorem setDims_legal {c : Word} (h : bits c 28 4 = 1) : c &&& Op.setDims.mask = Op.setDims.pattern := by
  rw [bits_eq] at h
  rw [legal_iff]
  simp only [Op.payloadBits, Op.pattern, BitVec.toNat_ofNat]
  omega

/-- Settles O9: the word's fields, the BUSY gate and the one arm past it. -/
theorem setDimsStoresTheDimensions : Obligations.SetDimsStoresTheDimensions := by
  refine ⟨fun c h => ?_, fun w h s hb => if_pos hb, fun w h s hb => execSetDims_idle hb, by decide, fun s hb => ?_⟩
  · exact decode_eq_ok.mpr ⟨.setDims, setDims_legal h, rfl⟩
  · refine ⟨_, execSetDims_idle hb, ?_⟩
    show pair14 12#14 8#14 = 0x0002000C#32
    decide

/-- Settles O11: the BUSY gate and the one arm past it. -/
theorem loadResetOpensAStream : Obligations.LoadResetOpensAStream :=
  ⟨rfl, fun _ hb => if_pos hb, fun _ hb => execLoadReset_idle hb, _, execLoadReset_idle rfl, by decide⟩

/-! ### One byte -/

/-- LOAD_BYTE and LOAD_PIXEL pass their gates (40_load.md R102, R103). -/
abbrev State.streamOpen (s : State) : Prop := s.busy = false ∧ s.field = .raw

/-- Settles O12: the gates, then the four cases of `acceptByte`. -/
theorem loadByteAcceptsOneByte : Obligations.LoadByteAcceptsOneByte := by
  refine ⟨fun c h => decode_eq_ok.mpr ⟨.loadByte, h, rfl⟩, fun b s hb => if_pos hb, fun b s hb hf => execLoadByte_closed hb hf,
    fun b s hb hf => ?_⟩
  rw [execLoadByte_open hb hf]
  refine ⟨fun hfull => ?_, fun hlt h3 => ?_, fun hlt h3 => ?_, fun hlt h3 => ?_⟩
  · rw [acceptByte_full _ hfull, outcomeOf_some]
  · rw [acceptByte_red _ hlt h3, outcomeOf_some]
  · rw [acceptByte_green _ hlt h3, outcomeOf_some]
  · rw [acceptByte_blue _ hlt h3, outcomeOf_some]
    exact ⟨_, rfl, rfl, State.pixel_setPixel_same .., fun a ha => State.readByte_setPixel_ne _ _ ha⟩

/-- LOAD_BYTE after a partial result that leaves the stream open: the next byte of that result. -/
theorem andThen_execLoadByte {b : Nat} {o : Option State} (ho : ∀ t, o = some t → t.streamOpen) :
    andThen (outcomeOf o) (exec (.loadByte b)) = outcomeOf (o.bind (acceptByte (BitVec.ofNat 8 b))) := by
  cases o with
  | none => rfl
  | some t => exact execLoadByte_open (ho t rfl).1 (ho t rfl).2

/-- Accepting a byte keeps the stream open. -/
theorem acceptByte_keeps_open {b : Byte} {s t : State} (h : acceptByte b s = some t) (hs : s.streamOpen) :
    t.streamOpen := by
  rw [acceptByte_frame h]
  exact hs

/-- Settles O13: each accepted byte keeps the stream open, so the next LOAD_BYTE passes the gates that LOAD_PIXEL passed once. -/
theorem loadPixelIsThreeLoadBytes : Obligations.LoadPixelIsThreeLoadBytes := by
  refine ⟨fun c h => decode_eq_ok.mpr ⟨.loadPixel, h, rfl⟩, fun r g b s hb => if_pos hb,
    fun r g b s hb hf => execLoadPixel_closed hb hf, fun r g b s hb hf => ?_⟩
  have hred : ∀ t, acceptByte (BitVec.ofNat 8 r) s = some t → t.streamOpen :=
    fun t h => acceptByte_keeps_open h ⟨hb, hf⟩
  have hgreen : ∀ t, (acceptByte (BitVec.ofNat 8 r) s).bind (acceptByte (BitVec.ofNat 8 g)) = some t →
      t.streamOpen := fun t h => by
    obtain ⟨u, hu, ht⟩ := Option.bind_eq_some_iff.mp h
    exact acceptByte_keeps_open ht (hred u hu)
  rw [execLoadPixel_open hb hf, execLoadByte_open hb hf, andThen_execLoadByte hred, andThen_execLoadByte hgreen]

/-! ### A stream of bytes: what it counts and what it leaves alone -/

/-- `Accepted s n t`: `n` more bytes of an open stream take `s` to `t`. Past the capacity they only set LOAD_OVF; the words that may
change are those whose third byte is among them. -/
structure Accepted (s : State) (n : Nat) (t : State) : Prop where
  frame   : t = { s with bc := t.bc, stgR := t.stgR, stgG := t.stgG, loadOvf := t.loadOvf, mem := t.mem }
  bc      : t.bc.toNat = min (s.bc.toNat + n) (3 * s.params.maxPixels)
  loadOvf : t.loadOvf = true ↔ s.loadOvf = true ∨ 3 * s.params.maxPixels < s.bc.toNat + n
  other   : ∀ a : Nat, a / 4 < s.bc.toNat / 3 ∨ (s.bc.toNat + n) / 3 ≤ a / 4 → t.readByte a = s.readByte a

theorem Accepted.refl {s : State} (h : s.bc.toNat ≤ 3 * s.params.maxPixels) : Accepted s 0 s where
  frame   := rfl
  bc      := by omega
  loadOvf := by simp [h]
  other   := fun _ _ => rfl

theorem Accepted.params {s t : State} {n : Nat} (h : Accepted s n t) : t.params = s.params := by rw [h.frame]

theorem Accepted.streamOpen {s t : State} {n : Nat} (h : Accepted s n t) (hs : s.streamOpen) :
    t.streamOpen := by
  rw [h.frame]
  exact hs

/-- Bytes that fit are counted and overflow nothing. -/
theorem Accepted.within_capacity {s t : State} {n : Nat} (h : Accepted s n t) (hroom : s.bc.toNat + n ≤ 3 * s.params.maxPixels) :
    t.bc.toNat = s.bc.toNat + n ∧ t.loadOvf = s.loadOvf := by
  refine ⟨h.bc.trans (Nat.min_eq_left hroom), Bool.eq_iff_iff.mpr (h.loadOvf.trans ?_)⟩
  exact or_iff_left (Nat.not_lt.mpr hroom)

/-- Only the third byte of a pixel is stored, in the pixel's word (40_load.md R102). -/
theorem acceptByte_readByte {b : Byte} {s t : State} (h : acceptByte b s = some t) {a : Nat}
    (ha : s.bc.toNat % 3 = 2 → a / 4 ≠ s.bc.toNat / 3) : t.readByte a = s.readByte a := by
  rcases acceptByte_cases h with ⟨-, rfl⟩ | ⟨-, -, rfl⟩ | ⟨-, -, rfl⟩ | ⟨-, h3, -, rfl⟩
  · rfl
  · rfl
  · rfl
  · exact State.readByte_setPixel_ne s _ (ha h3)

/-- One more byte. -/
theorem Accepted.byte {s t : State} {n : Nat} (h : Accepted s n t) (hl : s.params.Legal) (b : Byte) :
    ∃ u, acceptByte b t = some u ∧ Accepted s (n + 1) u := by
  have hp := h.params
  have hbc := h.bc
  obtain ⟨u, hu, hframe, hcount, hovf, -⟩ := acceptByte_next b (hp ▸ hl) (by rw [hp]; omega : t.bc.toNat ≤ 3 * t.params.maxPixels)
  rw [hp] at hcount hovf
  refine ⟨u, hu, ?_, by omega, ?_, fun a ha => ?_⟩
  · rw [hframe, h.frame]
  · rw [hovf, h.loadOvf, or_assoc]
    exact or_congr_right (by omega)
  · rw [acceptByte_readByte hu (by omega), h.other a (by omega)]

/-- The last byte of a stream comes after the others. -/
theorem loadBytes_concat (bytes : List Nat) (b : Nat) (s : State) :
    loadBytes (bytes ++ [b]) s = andThen (loadBytes bytes s) (exec (.loadByte b)) := by
  induction bytes generalizing s with
  | nil => simp only [List.nil_append, loadBytes, andThen_next]; cases exec (.loadByte b) s <;> rfl
  | cons c bytes ih =>
    simp only [List.cons_append, loadBytes]
    cases exec (.loadByte c) s with
    | next t => exact ih t
    | fault => rfl
    | refused => rfl

/-- Every stream that starts within the capacity is accepted, to its end. -/
theorem loadBytes_accepted {s : State} (hl : s.params.Legal) (hs : s.streamOpen)
    (h : s.bc.toNat ≤ 3 * s.params.maxPixels) (bytes : List Nat) :
    ∃ t, loadBytes bytes s = .next t ∧ Accepted s bytes.length t := by
  induction bytes using List.reverseRecOn with
  | nil => exact ⟨s, rfl, .refl h⟩
  | append_singleton bytes b ih =>
    obtain ⟨t, ht, hacc⟩ := ih
    obtain ⟨u, hu, hacc'⟩ := hacc.byte hl (BitVec.ofNat 8 b)
    obtain ⟨hb, hf⟩ := hacc.streamOpen hs
    refine ⟨u, ?_, by simpa using hacc'⟩
    rw [loadBytes_concat, ht, andThen_next, execLoadByte_open hb hf, hu, outcomeOf_some]

/-! ### A stream of bytes: what it packs -/

/-- `Packed s bytes t`: `bytes`, delivered from `s` on, stand in `t`: each complete pixel in its word, and the bytes of the last,
incomplete one in the staging registers (40_load.md R102). -/
structure Packed (s : State) (bytes : List Nat) (t : State) : Prop where
  red   : ∀ r, bytes[3 * (bytes.length / 3)]? = some r → t.stgR = BitVec.ofNat 8 r
  green : ∀ g, bytes[3 * (bytes.length / 3) + 1]? = some g → t.stgG = BitVec.ofNat 8 g
  pixel : ∀ i r g b, bytes[3 * i]? = some r → bytes[3 * i + 1]? = some g → bytes[3 * i + 2]? = some b →
    t.written (s.bc.toNat / 3 + i) = true ∧ t.pixel (s.bc.toNat / 3 + i) =
      rawWord s.params.opaqueMark (BitVec.ofNat 8 r) (BitVec.ofNat 8 g) (BitVec.ofNat 8 b)

theorem Packed.nil (s : State) : Packed s [] s where
  red   := by simp
  green := by simp
  pixel := by simp

section
variable {bytes : List Nat} {b i x : Nat}

theorem le_length_of_concat (h : (bytes ++ [b])[i]? = some x) : i ≤ bytes.length := by
  have hlt := (List.getElem?_eq_some_iff.mp h).1
  rw [List.length_append, List.length_singleton] at hlt
  omega

theorem eq_last_of_concat (h : (bytes ++ [b])[i]? = some x) (hi : i = bytes.length) : x = b := by
  subst hi
  simpa using h.symm

theorem getElem?_of_concat (h : (bytes ++ [b])[i]? = some x) (hi : i < bytes.length) : bytes[i]? = some x := by
  rwa [List.getElem?_append_left hi] at h

end

section
variable {s t u : State} {bytes : List Nat} {b : Nat}

/-- A pixel that was complete before the last byte. -/
theorem Packed.pixel_of_concat (h : Packed s bytes t) {i r g c : Nat} (hi : 3 * i + 2 < bytes.length)
    (hr : (bytes ++ [b])[3 * i]? = some r) (hg : (bytes ++ [b])[3 * i + 1]? = some g) (hc : (bytes ++ [b])[3 * i + 2]? = some c) :
    t.written (s.bc.toNat / 3 + i) = true ∧ t.pixel (s.bc.toNat / 3 + i) =
      rawWord s.params.opaqueMark (BitVec.ofNat 8 r) (BitVec.ofNat 8 g) (BitVec.ofNat 8 c) :=
  h.pixel i r g c (getElem?_of_concat hr (by omega)) (getElem?_of_concat hg (by omega)) (getElem?_of_concat hc hi)

/-- The pixel that the last byte completes: the staging registers hold its first two bytes. -/
theorem Packed.staging_of_concat (h : Packed s bytes t) {i r g c : Nat} (hi : 3 * i + 2 = bytes.length)
    (hr : (bytes ++ [b])[3 * i]? = some r) (hg : (bytes ++ [b])[3 * i + 1]? = some g) (hc : (bytes ++ [b])[3 * i + 2]? = some c) :
    t.stgR = BitVec.ofNat 8 r ∧ t.stgG = BitVec.ofNat 8 g ∧ b = c := by
  have hr := getElem?_of_concat hr (by omega)
  have hg := getElem?_of_concat hg (by omega)
  rw [show i = bytes.length / 3 by omega] at hr hg
  exact ⟨h.red r hr, h.green g hg, (eq_last_of_concat hc hi).symm⟩

/-- One more byte of a stream that starts between two pixels and has room for it. -/
theorem Packed.byte (h : Packed s bytes t) (hacc : Accepted s bytes.length t) (h3 : s.bc.toNat % 3 = 0)
    (hroom : s.bc.toNat + bytes.length < 3 * s.params.maxPixels) (hu : acceptByte (BitVec.ofNat 8 b) t = some u) :
    Packed s (bytes ++ [b]) u := by
  have hp := hacc.params
  obtain ⟨hbc, -⟩ := hacc.within_capacity hroom.le
  have hlen : (bytes ++ [b]).length = bytes.length + 1 := List.length_append
  rcases acceptByte_cases hu with ⟨hfull, -⟩ | ⟨-, hm, rfl⟩ | ⟨-, hm, rfl⟩ | ⟨-, hm, -, rfl⟩
  · rw [hp] at hfull
    omega
  · refine ⟨fun r hr => ?_, fun g hg => ?_, fun i r g c hr hg hc => ?_⟩
    · rw [eq_last_of_concat hr (by omega)]
    · have := le_length_of_concat hg
      omega
    · have := le_length_of_concat hc
      exact h.pixel_of_concat (by omega) hr hg hc
  · refine ⟨fun r hr => ?_, fun g hg => ?_, fun i r g c hr hg hc => ?_⟩
    · rw [show (bytes ++ [b]).length / 3 = bytes.length / 3 by omega] at hr
      exact h.red r (getElem?_of_concat hr (by omega))
    · rw [eq_last_of_concat hg (by omega)]
    · have := le_length_of_concat hc
      exact h.pixel_of_concat (by omega) hr hg hc
  · refine ⟨fun r hr => ?_, fun g hg => ?_, fun i r g c hr hg hc => ?_⟩
    · have := le_length_of_concat hr
      omega
    · have := le_length_of_concat hg
      omega
    · show (t.setPixel _ _).written _ = true ∧ (t.setPixel _ _).pixel _ = _
      rw [State.written_setPixel, State.pixel_setPixel]
      rcases (le_length_of_concat hc).lt_or_eq with hi | hi
      · obtain ⟨hw, hv⟩ := h.pixel_of_concat hi hr hg hc
        rw [if_neg (by omega), hw, hv, Bool.or_true]
        exact ⟨rfl, rfl⟩
      · obtain ⟨hr, hg, rfl⟩ := h.staging_of_concat hi hr hg hc
        have hk : s.bc.toNat / 3 + i = t.bc.toNat / 3 := by omega
        rw [if_pos hk, decide_eq_true hk, hp, hr, hg]
        exact ⟨rfl, rfl⟩

end

/-- Every stream that starts between two pixels and fits is packed. -/
theorem loadBytes_packed {s t : State} {bytes : List Nat} (hl : s.params.Legal) (hs : s.streamOpen)
    (h3 : s.bc.toNat % 3 = 0) (hroom : s.bc.toNat + bytes.length ≤ 3 * s.params.maxPixels) (ht : loadBytes bytes s = .next t) :
    Packed s bytes t := by
  induction bytes using List.reverseRecOn generalizing t with
  | nil => rw [eq_of_next ht]; exact .nil s
  | append_singleton bytes b ih =>
    rw [List.length_append, List.length_singleton] at hroom
    obtain ⟨v, hv, hacc⟩ := loadBytes_accepted hl hs (by omega) bytes
    obtain ⟨hb, hf⟩ := hacc.streamOpen hs
    rw [loadBytes_concat, hv, andThen_next, execLoadByte_open hb hf, outcomeOf_eq_next] at ht
    exact (ih (by omega) hv).byte hacc h3 (by omega) ht

/-! ### Pixels and whole images -/

/-- LOAD_PIXEL on an open stream delivers its three bytes (40_load.md R103). -/
theorem execLoadPixel_eq_loadBytes {r g b : Nat} {s : State} (hb : s.busy = false) (hf : s.field = .raw) :
    exec (.loadPixel r g b) s = loadBytes [r, g, b] s := by
  obtain ⟨-, -, -, hopen⟩ := loadPixelIsThreeLoadBytes
  show _ = loadBytes ([] ++ [r] ++ [g] ++ [b]) s
  rw [hopen r g b s hb hf, loadBytes_concat, loadBytes_concat, loadBytes_concat]
  rfl

/-- Settles O14: LOAD_PIXEL is a stream of three bytes, of which one is the third of its pixel. -/
theorem loadPixelCompletes : Obligations.LoadPixelCompletes := by
  intro r g b s hl hb hf hbc
  obtain ⟨t, ht, hacc⟩ := loadBytes_accepted hl ⟨hb, hf⟩ hbc [r, g, b]
  refine ⟨t, (execLoadPixel_eq_loadBytes hb hf).trans ht, hacc.frame, hacc.bc, hacc.loadOvf, fun a ha => ?_, fun hroom h3 => ?_⟩
  · have hother := hacc.other a
    simp only [List.length_cons, List.length_nil] at hother
    exact hother (by omega)
  · have hpk : Packed s [r, g, b] t := loadBytes_packed hl ⟨hb, hf⟩ h3 hroom ht
    exact (hpk.pixel 0 r g b rfl rfl rfl).2

/-- START accepts the image of a stream that overflowed nothing exactly if its length is that of the dimensions (40_load.md R104): the
capacity of the memory bounds the stream. -/
theorem startOK_iff_of_fits {s : State} (hf : s.field = .raw) (ho : s.loadOvf = false) (hbc : s.bc.toNat ≤ 3 * s.params.maxPixels) :
    s.startOK = true ↔ 1 ≤ s.w.toNat ∧ 1 ≤ s.h.toNat ∧ s.bc.toNat = 3 * (s.w.toNat * s.h.toNat) := by
  rw [State.startOK_iff]
  constructor
  · rintro ⟨-, -, hw, hh, -, hlen⟩
    exact ⟨hw, hh, hlen⟩
  · rintro ⟨hw, hh, hlen⟩
    exact ⟨hf, ho, hw, hh, by omega, hlen⟩

/-- Settles O15: the stream that LOAD_RESET opens starts at byte 0, so pixel `i` is word `i`. -/
theorem loadedStreamPacksTheImage : Obligations.LoadedStreamPacksTheImage := by
  intro s bytes hl hb hlen
  have hl' : s.streamOpened.params.Legal := hl
  have hopen : s.streamOpened.streamOpen := ⟨hb, rfl⟩
  have h0 : s.streamOpened.bc.toNat = 0 := rfl
  have hroom : s.streamOpened.bc.toNat + bytes.length ≤ 3 * s.streamOpened.params.maxPixels := by rw [h0, Nat.zero_add]; exact hlen
  obtain ⟨t, ht, hacc⟩ := loadBytes_accepted hl' hopen (Nat.zero_le _) bytes
  have hpk := loadBytes_packed hl' hopen (Nat.zero_mod 3) hroom ht
  obtain ⟨hbc, hovf⟩ := hacc.within_capacity hroom
  rw [h0, Nat.zero_add] at hbc
  have hovf : t.loadOvf = false := hovf
  have hfield := (hacc.streamOpen hopen).2
  refine ⟨t, by rw [execLoadReset_idle hb, andThen_next, ht], hfield, hovf, hbc, fun i hi => ?_, ?_⟩
  · have h := hpk.pixel i _ _ _ (List.getElem?_eq_getElem (by omega)) (List.getElem?_eq_getElem (by omega))
      (List.getElem?_eq_getElem hi)
    rwa [h0, Nat.zero_div, Nat.zero_add] at h
  · have hw : t.w = s.w := by rw [hacc.frame]; rfl
    have hh : t.h = s.h := by rw [hacc.frame]; rfl
    have hp : t.params = s.params := hacc.params
    rw [startOK_iff_of_fits hfield hovf (by rw [hbc, hp]; exact hlen), hw, hh, hbc]

end Sys2Proof.Machine
end

section
/-! PROOFS. The family of 41_threshold.md: SET_DIAMETER (R120), START (R121, R122), the threshold step (R130 to R137), the length of
the pass (R138), its determinism (R139), the ring automaton (R140 to R149), and the arithmetic the spec derives (R151 to R153). -/

namespace Sys2Proof.Machine

/-! ### The arithmetic of the pass (R146, R151, R152) -/

/-- Settles O32: what the decay takes off grows by at most one where the accumulator grows by thirty. -/
theorem accumulatorStaysInRange : Obligations.AccumulatorStaysInRange := by
  refine ⟨fun a i => accumulate_le, fun a b i k hab hik => ?_, by decide, by decide, by decide⟩
  have hdecay : b / 30 - a / 30 ≤ b - a := by omega
  unfold accumulate
  omega

/-- Settles O33: each absolute difference is at most a minimum exactly when either side is at most twice the other. -/
theorem acceptanceTestIsTheComparatorForm : Obligations.AcceptanceTestIsTheComparatorForm := by
  intro b1 w1 b2 m
  have hring : ((b1 + b2 : Int) - w1).natAbs ≤ min (b1 + b2) w1 ↔ b1 + b2 ≤ 2 * w1 ∧ w1 ≤ 2 * (b1 + b2) := by omega
  have hcore : ((b1 : Int) - b2).natAbs ≤ min b1 b2 ↔ b1 ≤ 2 * b2 ∧ b2 ≤ 2 * b1 := by omega
  rw [accept, decide_eq_true_eq, hring, hcore]
  tauto

/-! ### SET_DIAMETER and START (R120 to R122) -/

theorem execSetDiameter_idle {d : Nat} {s : State} (hb : s.busy = false) :
    exec (.setDiameter d) s = .next { s with maxUnit := BitVec.ofNat 16 (ceil8 d) } := by
  simp [exec, execSetDiameter, hb]

/-- MAXUNIT holds the quotient of a 16-bit diameter without wrapping. -/
theorem ceil8_toNat {d : Nat} (h : d ≤ 65535) : (BitVec.ofNat 16 (ceil8 d)).toNat = (d + 7) / 8 := by
  rw [BitVec.toNat_ofNat, ceil8]
  omega

/-- A run has at least two pixels and at most maxUnit, so below 2 there is none (R146). -/
theorem accept_eq_false_of_lt {b1 w1 b2 m : Nat} (h : m < 2) : accept b1 w1 b2 m = false :=
  eq_false_of_ne_true fun ha => by
    obtain ⟨h2, -, hm, -⟩ := accept_bounds ha
    omega

/-- Settles O10: the word's field, the BUSY gate and the one arm past it. -/
theorem setDiameterSetsMaxUnit : Obligations.SetDiameterSetsMaxUnit := by
  refine ⟨fun c h => decode_eq_ok.mpr ⟨.setDiameter, h, rfl⟩, fun d s hb => if_pos hb, fun d s hb hd => ?_,
    fun b1 w1 b2 m => accept_eq_false_of_lt, by decide⟩
  exact ⟨_, execSetDiameter_idle hb, rfl, ceil8_toNat hd, ceil8_toNat_le hd⟩

/-- The state an accepted START leaves (R121). -/
def State.scanStarted (s : State) : State :=
  { s with
    syms := [], ccount := 0#32, avg := BitVec.ofNat 24 s.params.avgInit, row := 0#14, idx := 0#14,
    fsm := .seek, b1 := 0#16, w1 := 0#16, b2 := 0#16, field := .inThreshold, phase := .thresh }

theorem execStart_accepted {s : State} (hb : s.busy = false) (hok : s.startOK = true) : exec .start s = .next s.scanStarted := by
  simp [exec, execStart, hb, hok, State.scanStarted]

theorem execStart_refused {s : State} (hb : s.busy = false) (hok : s.startOK = false) :
    exec .start s = .next (State.raise { s with syms := [], phase := .idle } .input) := by
  simp [exec, execStart, hb, hok]

/-- PHASE, BUSY and FIELD of a running threshold pass in STATUS[5:0] (10_state.md R40). -/
theorem State.status_of_thresh {s : State} (hp : s.phase = .thresh) (hf : s.field = .inThreshold) : bits s.status 0 6 = 0x29 := by
  have hs : s.status.extractLsb' 0 6 = 0x29#6 := by
    apply BitVec.eq_of_getLsbD_eq
    intro i hi
    rw [BitVec.getLsbD_extractLsb', State.status_getLsbD, State.busy_of_thresh hp, hp, hf]
    interval_cases i <;> rfl
  rw [bits, hs]
  rfl

/-- Settles O16: the BUSY gate and the two arms past it. -/
theorem startAcceptsALoadedImageOnly : Obligations.StartAcceptsALoadedImageOnly := by
  refine ⟨rfl, fun s hb => if_pos hb, fun s hb hok => ?_, fun s hb hok => ?_⟩
  · exact ⟨_, execStart_accepted hb (State.startOK_iff.mpr hok), rfl, State.status_of_thresh rfl rfl⟩
  · exact execStart_refused hb (eq_false_of_ne_true (State.startOK_iff.not.mpr hok))

/-! ### One threshold step, alone or scheduled (R130) -/

/-- The state a threshold step leaves: the pixel classified, the automaton moved, the position advanced. -/
def State.afterPixel (s : State) : State := advanceThreshold s.afterAutomaton

theorem advanceThreshold_withInputs (s : State) (i : List Input) :
    advanceThreshold { s with inputs := i } = { advanceThreshold s with inputs := i } := by
  unfold advanceThreshold
  split_ifs <;> rfl

theorem State.afterAutomaton_withInputs (s : State) (i : List Input) :
    State.afterAutomaton { s with inputs := i } = { s.afterAutomaton with inputs := i } := by
  have hc : State.afterClassify { s with inputs := i } = { s.afterClassify with inputs := i } := rfl
  have hf : State.fsm { s with inputs := i } = s.fsm := rfl
  have hw : State.passWhite { s with inputs := i } = s.passWhite := rfl
  have ha : State.accepts { s with inputs := i } = s.accepts := rfl
  unfold State.afterAutomaton
  rw [hc, hf, hw, ha]
  cases s.fsm <;> cases s.passWhite
  case second.true => dsimp only; split <;> rfl
  all_goals rfl

theorem State.afterPixel_withInputs (s : State) (i : List Input) :
    State.afterPixel { s with inputs := i } = { s.afterPixel with inputs := i } := by
  rw [State.afterPixel, State.afterAutomaton_withInputs, advanceThreshold_withInputs]
  rfl

theorem coreStep_threshold {s : State} (h : Inv s) (hp : s.phase = .thresh) : coreStep s = .next s.afterPixel := by
  unfold coreStep
  rw [hp]
  exact congrArg outcomeOf (thresholdStep_eq h hp)

/-- The core's step in THRESH; the schedule's word, if there is one, is consumed. -/
theorem step_threshold {s : State} (h : Inv s) (hm : s.coreMoves) (hp : s.phase = .thresh) :
    step s = .next { s.afterPixel with inputs := s.inputs.tail } := by
  rw [step_coreMoves hm, coreStep_threshold (h.withInputs s.inputs.tail) hp, State.afterPixel_withInputs]

/-! ### What the step writes (R132 to R135, R147 to R149) -/

theorem State.afterPixel_eq (s : State) : s.afterPixel =
    { s.afterAutomaton with fsm := s.afterPixel.fsm, b1 := s.afterPixel.b1, w1 := s.afterPixel.w1, b2 := s.afterPixel.b2,
                            field := s.afterPixel.field, phase := s.afterPixel.phase, row := s.afterPixel.row,
                            idx := s.afterPixel.idx } := advanceThreshold_frame _

theorem State.afterPixel_ccount (s : State) : s.afterPixel.ccount = if s.accepted then s.ccount + 3 else s.ccount := by
  rw [State.afterPixel_eq, ← State.afterAutomaton_ccount]

/-- The written word as a number (R135). -/
theorem thresholdedWord_eq_ofNat (white : Bool) (a : BitVec 24) :
    thresholdedWord white a = BitVec.ofNat 32 ((if white then 2 ^ 24 else 0) + a.toNat) := by
  rw [← thresholdedWord_toNat, BitVec.ofNat_toNat, BitVec.setWidth_eq]

section
variable {s : State} (h : Inv s) (hp : s.phase = .thresh)
include h hp

omit hp in
theorem State.afterPixel_avg : s.afterPixel.avg.toNat = s.newAvg := by
  rw [State.afterPixel_eq, State.afterAutomaton_eq]
  exact State.newAvg_toNat h

/-- The image after the step, word by word: the advance writes no memory. -/
theorem State.afterPixel_pixel (k : Nat) : s.afterPixel.pixel k =
    if k = s.passWord then thresholdedWord s.passWhite (BitVec.ofNat 24 s.newAvg)
    else if s.accepted = true ∧ (k = s.windowWord - 1 ∨ k = s.windowWord ∨ k = s.windowWord + 1) then setFlag (s.pixel k)
    else s.pixel k := by
  rw [← State.afterAutomaton_pixel h hp]
  exact State.pixel_of_image (by rw [State.afterPixel_eq]; rfl) k

/-- Bit 24 of the word just written is the class the automaton read (R135, R140). -/
theorem State.afterPixel_class : (s.afterPixel.pixel s.passWord).getLsbD 24 = s.passWhite := by
  rw [State.afterPixel_pixel h hp, if_pos rfl]
  exact classBit_thresholdedWord ..

/-- The word of the scan position after the step, as a number (R135). -/
theorem State.afterPixel_passWord : s.afterPixel.pixel s.passWord =
    BitVec.ofNat 32 ((if 39 * s.passThreshold ≤ 40 * intensity (s.pixel s.passWord) then 2 ^ 24 else 0) + s.newAvg) := by
  rw [State.afterPixel_pixel h hp, if_pos rfl, thresholdedWord_eq_ofNat, State.newAvg_toNat h]
  simp only [State.passWhite, isWhite, decide_eq_true_eq]

omit hp in
/-- The candidate counter has room for the three flags (10_state.md R29). -/
theorem State.ccount_add_three : (s.ccount + 3).toNat = s.ccount.toNat + 3 := by
  have hcc := h.ccount
  obtain ⟨-, hmax, -⟩ := h.legal
  rw [BitVec.toNat_add]
  simp
  omega

end

/-- Settles O28: the step's accumulator, threshold and class are the ones the statement writes out. -/
theorem thresholdStepClassifiesThePixel : Obligations.ThresholdStepClassifiesThePixel := by
  intro s h hm hp
  exact ⟨_, step_threshold h hm hp, State.afterPixel_avg h, State.newAvg_le h, State.afterPixel_passWord h hp⟩

/-- Settles O29: the statement's acceptance is `accepted` and its centre is `windowWord`, whose bounds hold by the invariant. -/
theorem acceptanceFlagsExactlyTheWindow : Obligations.AcceptanceFlagsExactlyTheWindow := by
  intro s h hm hp
  refine ⟨_, step_threshold h hm hp, ?_⟩
  intro d c accepted
  have hacc : accepted ↔ s.accepted = true := by
    show s.fsm = .second ∧ (s.afterPixel.pixel s.passWord).getLsbD 24 = true ∧ s.accepts = true ↔ s.accepted = true
    rw [State.afterPixel_class h hp]
    simp [State.accepted, and_assoc]
  refine ⟨fun ha => ?_, fun ha => ?_⟩
  · rw [hacc] at ha
    obtain ⟨hlow, hhigh, hbehind⟩ := State.accepted_window h hp ha
    refine ⟨?_, Nat.le_sub_of_add_le hlow, hhigh, hbehind, fun k hk => ?_⟩
    · show s.afterPixel.ccount.toNat = _
      rw [State.afterPixel_ccount, if_pos ha, State.ccount_add_three h]
    · refine (State.afterPixel_pixel h hp k).trans ?_
      rw [if_neg hk]
      simp only [ha, true_and]
      rfl
  · rw [hacc] at ha
    refine ⟨?_, fun k hk => ?_⟩
    · show s.afterPixel.ccount = _
      rw [State.afterPixel_ccount, if_neg ha]
    · refine (State.afterPixel_pixel h hp k).trans ?_
      rw [if_neg hk, if_neg fun hw => ha hw.1]

/-! ### The automaton and the advance (R137, R140 to R145) -/

/-- Classification and the automaton leave the dimensions, the position, PHASE and FIELD alone. -/
theorem State.afterAutomaton_position (s : State) :
    s.afterAutomaton.w = s.w ∧ s.afterAutomaton.h = s.h ∧ s.afterAutomaton.row = s.row ∧ s.afterAutomaton.idx = s.idx ∧
      s.afterAutomaton.phase = s.phase ∧ s.afterAutomaton.field = s.field := by
  rw [State.afterAutomaton_eq]
  exact ⟨rfl, rfl, rfl, rfl, rfl, rfl⟩

/-- Inside a row the step moves on by one pixel and leaves the automaton as its table says. -/
theorem State.afterPixel_within {s : State} (hi : s.idx.toNat + 1 < s.w.toNat) :
    s.afterPixel = { s.afterAutomaton with idx := s.idx + 1 } := by
  obtain ⟨hw, -, -, hidx, -, -⟩ := s.afterAutomaton_position
  rw [State.afterPixel, advanceThreshold_within (by rw [hw, hidx]; exact hi), hidx]

/-- Settles O30: the table is `afterAutomaton_fsm`; the counters of runs not yet begun are zero and none wraps, by the invariant. -/
theorem automatonFollowsItsTable : Obligations.AutomatonFollowsItsTable := by
  intro s h hm hp hi
  refine ⟨_, step_threshold h hm hp, ?_⟩
  rw [show (State.pixel { s.afterPixel with inputs := s.inputs.tail } s.passWord).getLsbD 24 = s.passWhite from
    State.afterPixel_class h hp, State.afterPixel_within hi]
  obtain ⟨hrun, hrow, -⟩ := h.automaton hp
  have hw := s.w.isLt
  have no_wrap : s.b1.toNat + 1 < 65536 ∧ s.w1.toNat + 1 < 65536 ∧ s.b2.toNat + 1 < 65536 := by omega
  have hreg := State.afterAutomaton_fsm (s := s)
  dsimp only
  generalize s.afterAutomaton.fsm = f, s.afterAutomaton.b1 = b1, s.afterAutomaton.w1 = w1, s.afterAutomaton.b2 = b2 at hreg ⊢
  -- the eight entries of the table
  cases hf : s.fsm <;> cases hwh : s.passWhite
  all_goals
    simp only [hf, hwh, Prod.mk.injEq] at hrun hreg
    obtain ⟨rfl, rfl, rfl, rfl⟩ := hreg
    simp [hrun, no_wrap]

/-- At a row's end the automaton restarts and the position returns to the first pixel, whatever follows (R137). -/
theorem State.afterPixel_row_end {s : State} (hi : s.idx.toNat + 1 = s.w.toNat) :
    s.afterPixel.fsm = .seek ∧ s.afterPixel.b1 = 0#16 ∧ s.afterPixel.w1 = 0#16 ∧ s.afterPixel.b2 = 0#16 ∧
      s.afterPixel.idx = 0#14 := by
  obtain ⟨hw, -, -, hidx, -, -⟩ := s.afterAutomaton_position
  rw [State.afterPixel, advanceThreshold, if_pos (by rw [hw, hidx]; exact bv14_succ_eq hi)]
  split_ifs <;> exact ⟨rfl, rfl, rfl, rfl, rfl⟩

/-- Settles O31: the four cases of the advance, none of which touches AVG. -/
theorem thresholdStepAdvancesThePosition : Obligations.ThresholdStepAdvancesThePosition := by
  refine ⟨fun s => by rw [advanceThreshold_frame], fun s h hm hp => ⟨_, step_threshold h hm hp, ?_⟩⟩
  dsimp only
  have hf := h.threshField.mp hp
  obtain ⟨hw, hh, hrow, hidx, hphase, hfield⟩ := s.afterAutomaton_position
  refine ⟨fun hi => ?_, State.afterPixel_row_end, fun hi hr => ?_, fun hi hr h5 => ?_, fun hi hr h5 => ?_⟩
  · rw [State.afterPixel_within hi]
    exact ⟨bv14_succ_toNat (Nat.lt_of_succ_lt hi) s.w.isLt, hrow, hphase.trans hp, hfield.trans hf⟩
  · rw [State.afterPixel, advanceThreshold_next_row (by rwa [hidx, hw]) (by rwa [hrow, hh])]
    exact ⟨by rw [hrow]; exact bv14_succ_toNat (Nat.lt_of_succ_lt hr) s.h.isLt, hphase.trans hp, hfield.trans hf⟩
  · rw [State.afterPixel, advanceThreshold_to_detect (by rwa [hidx, hw]) (by rwa [hrow, hh]) (by rwa [hh])]
    exact ⟨rfl, rfl, rfl⟩
  · rw [State.afterPixel, advanceThreshold_to_done (by rwa [hidx, hw]) (by rwa [hrow, hh]) (by rwa [hh])]
    exact ⟨by rw [hrow]; exact bv14_succ_eq hr, rfl, rfl⟩

/-! ### The length and the order of the pass (R131, R138) -/

/-- The word of the `n`-th pixel of the pass in an image of width `w`: even rows left to right, odd rows right to left (R131). -/
def serpentineWord (w n : Nat) : Nat := n / w * w + if n / w % 2 = 0 then n % w else w - 1 - n % w

theorem serpentineWord_column_lt {w : Nat} (hw : 0 < w) (n : Nat) : (if n / w % 2 = 0 then n % w else w - 1 - n % w) < w := by
  have := Nat.mod_lt n hw
  split <;> omega

/-- The serpentine order stays in its row. -/
theorem serpentineWord_div {w : Nat} (hw : 0 < w) (n : Nat) : serpentineWord w n / w = n / w := by
  rw [serpentineWord, Nat.mul_comm, Nat.mul_add_div hw, Nat.div_eq_of_lt (serpentineWord_column_lt hw n), Nat.add_zero]

theorem serpentineWord_mod {w : Nat} (hw : 0 < w) (n : Nat) :
    serpentineWord w n % w = if n / w % 2 = 0 then n % w else w - 1 - n % w := by
  rw [serpentineWord, Nat.mul_comm, Nat.mul_add_mod, Nat.mod_eq_of_lt (serpentineWord_column_lt hw n)]

/-- Reversing the odd rows twice changes nothing, so every word has its place in the order. -/
theorem serpentineWord_involutive {w : Nat} (hw : 0 < w) (n : Nat) : serpentineWord w (serpentineWord w n) = n := by
  have hn := Nat.div_add_mod' n w
  have hlt := Nat.mod_lt n hw
  rw [serpentineWord, serpentineWord_div hw, serpentineWord_mod hw]
  split <;> omega

theorem serpentineWord_lt {w h n : Nat} (hw : 0 < w) (hn : n < w * h) : serpentineWord w n < w * h := by
  rw [Nat.mul_comm] at hn ⊢
  rwa [← Nat.div_lt_iff_lt_mul hw, serpentineWord_div hw, Nat.div_lt_iff_lt_mul hw]

/-- `n` pixels of the pass over a `w` by `h` image are done and no move is pending. -/
structure PassAt (w h n : Nat) (t : State) : Prop where
  inv    : Inv t
  alone  : t.inputs = []
  phase  : t.phase = .thresh
  width  : t.w.toNat = w
  height : t.h.toNat = h
  pos    : t.row.toNat * w + t.idx.toNat = n

theorem PassAt.passWord {w h n : Nat} {t : State} (p : PassAt w h n t) : t.passWord = serpentineWord w n := by
  obtain ⟨hinv, -, hphase, rfl, rfl, rfl⟩ := p
  obtain ⟨-, hi⟩ := hinv.threshPos hphase
  have hw : 0 < t.w.toNat := Nat.zero_lt_of_lt hi
  rw [State.passWord, serpentineWord, Nat.mul_comm, Nat.mul_add_div hw, Nat.mul_add_mod, Nat.div_eq_of_lt hi,
    Nat.mod_eq_of_lt hi, Nat.add_zero, Nat.mul_comm]

/-- One more pixel, inside a row or at a row's end. -/
theorem PassAt.advance {w h n : Nat} {t : State} (p : PassAt w h n t) (hn : n + 1 < w * h) :
    ∃ u, step t = .next u ∧ PassAt w h (n + 1) u := by
  obtain ⟨hinv, halone, hphase, rfl, rfl, rfl⟩ := p
  obtain ⟨u, hs, hin, hend, hnext, -, -⟩ := thresholdStepAdvancesThePosition.2 t hinv (.inl halone) hphase
  have hinvu := everyStepKeepsTheInvariant t u hinv hs
  obtain ⟨hj, hi⟩ := hinv.threshPos hphase
  have hframe : u.w = t.w ∧ u.h = t.h ∧ u.inputs = [] := by
    rw [step_coreMoves (.inl halone), halone] at hs
    rw [coreStep_frame hs]
    exact ⟨rfl, rfl, rfl⟩
  obtain ⟨hw, hh, hu⟩ := hframe
  refine ⟨u, hs, ?_⟩
  by_cases he : t.idx.toNat + 1 = t.w.toNat
  · have hlast : t.row.toNat + 1 < t.h.toNat := by
      refine lt_of_le_of_ne hj fun hr => ?_
      rw [← hr, Nat.mul_succ, Nat.mul_comm t.w.toNat] at hn
      omega
    obtain ⟨hrow, hphaseu, -⟩ := hnext he hlast
    obtain ⟨-, -, -, -, hidx⟩ := hend he
    refine ⟨hinvu, hu, hphaseu, by rw [hw], by rw [hh], ?_⟩
    rw [hrow, hidx, Nat.succ_mul, BitVec.toNat_zero]
    omega
  · obtain ⟨hidx, hrow, hphaseu, -⟩ := hin (by omega)
    refine ⟨hinvu, hu, hphaseu, by rw [hw], by rw [hh], ?_⟩
    rw [hidx, hrow]
    omega

/-- The last pixel of the image ends the pass (R137). -/
theorem PassAt.last {w h n : Nat} {t : State} (p : PassAt w h n t) (hn : n + 1 = w * h) :
    ∃ u, step t = .next u ∧ u.field = .thresholded ∧ u.phase = if 5 ≤ h then .detect else .done := by
  obtain ⟨hinv, halone, hphase, rfl, rfl, rfl⟩ := p
  obtain ⟨u, hs, -, -, -, hdetect, hdone⟩ := thresholdStepAdvancesThePosition.2 t hinv (.inl halone) hphase
  obtain ⟨hj, hi⟩ := hinv.threshPos hphase
  have hr : t.row.toNat + 1 = t.h.toNat := by
    refine le_antisymm hj (not_lt.mp fun hr => ?_)
    have := row_end_le (w := t.w.toNat) hr
    rw [Nat.succ_mul] at this
    rw [Nat.mul_comm t.w.toNat] at hn
    omega
  have he : t.idx.toNat + 1 = t.w.toNat := by
    rw [← hr, Nat.mul_succ, Nat.mul_comm t.w.toNat] at hn
    omega
  refine ⟨u, hs, ?_⟩
  split
  · obtain ⟨-, hphaseu, hf⟩ := hdetect he hr ‹_›
    exact ⟨hf, hphaseu⟩
  · obtain ⟨-, hphaseu, hf⟩ := hdone he hr (not_le.mp ‹_›)
    exact ⟨hf, hphaseu⟩

/-- One more step after `n` that all answered. -/
theorem steps_succ_of_next {n : Nat} {s t : State} (h : steps n s = .next t) : steps (n + 1) s = step t := by
  induction n generalizing s with
  | zero => rw [eq_of_next h, steps_one]
  | succ n ih =>
    rw [steps] at h ⊢
    cases hs : step s with
    | next u => rw [hs] at h; exact ih h
    | fault | refused => rw [hs] at h; cases h

theorem PassAt.after {w h : Nat} {u : State} (p : PassAt w h 0 u) {n : Nat} (hn : n < w * h) :
    ∃ t, steps n u = .next t ∧ PassAt w h n t := by
  induction n with
  | zero => exact ⟨u, rfl, p⟩
  | succ n ih =>
    obtain ⟨t, ht, pt⟩ := ih (Nat.lt_of_succ_lt hn)
    obtain ⟨v, hv, pv⟩ := pt.advance hn
    exact ⟨v, (steps_succ_of_next ht).trans hv, pv⟩

/-- Settles O34: the pass advances by one pixel a step, the order is its own inverse, and the last pixel ends the pass. -/
theorem thresholdPassTakesWidthTimesHeightSteps : Obligations.ThresholdPassTakesWidthTimesHeightSteps := by
  intro s u h hb hok hin he
  rw [execStart_accepted hb hok] at he
  obtain ⟨-, -, hw, hh, -, -⟩ := State.startOK_iff.mp hok
  have p : PassAt s.w.toNat s.h.toNat 0 u := by
    rw [eq_of_next he]
    exact ⟨h.started hok, hin, rfl, rfl, rfl, by simp [State.scanStarted]⟩
  refine ⟨fun n hn => ?_, fun k hk => ?_, ?_⟩
  · obtain ⟨t, ht, pt⟩ := p.after hn
    exact ⟨t, ht, pt.phase, pt.passWord⟩
  · exact ⟨serpentineWord s.w.toNat k, serpentineWord_lt hw hk, (serpentineWord_involutive hw k).symm⟩
  · obtain ⟨n, hn⟩ : ∃ n, n + 1 = s.w.toNat * s.h.toNat := ⟨_, Nat.sub_add_cancel (Nat.mul_pos hw hh)⟩
    obtain ⟨t, ht, pt⟩ := p.after (n := n) (by omega)
    obtain ⟨v, hv, hend⟩ := pt.last hn
    exact ⟨v, by rw [← hn, steps_succ_of_next ht, hv], hend⟩

/-! ### Processed pixels (R148, R153) -/

/-- What later steps of a scan leave of a processed pixel's word `v`: the class, the stored accumulator, and the flag once set. -/
def KeepsFlagAndClass (v v' : Word) : Prop := bits v' 0 25 = bits v 0 25 ∧ (v.getLsbD 25 = true → v'.getLsbD 25 = true)

theorem KeepsFlagAndClass.refl (v : Word) : KeepsFlagAndClass v v := ⟨rfl, id⟩

theorem keepsFlagAndClass_setFlag (v : Word) : KeepsFlagAndClass v (setFlag v) := by
  refine ⟨congrArg BitVec.toNat (BitVec.eq_of_getLsbD_eq fun i hi => ?_), fun _ => flagBit_setFlag v⟩
  rw [BitVec.getLsbD_extractLsb', BitVec.getLsbD_extractLsb', setFlag_getLsbD]
  simp [show i ≠ 25 by omega]

/-- The pixel at the scan position is not processed yet (R131). -/
theorem State.processed.ne_passWord {s : State} {x y : Nat} (hxy : s.processed x y) (hp : s.phase = .thresh)
    (hi : s.idx.toNat < s.w.toNat) (hx : x < s.w.toNat) : y * s.w.toNat + x ≠ s.passWord := by
  rw [Ne, State.eq_passWord_iff hi hx]
  have := hxy hp
  omega

/-- The core changes a processed pixel by a flag write only. -/
theorem keepsFlagAndClass_coreStep {s t : State} (h : Inv s) (e : coreStep s = .next t) {x y : Nat} (hx : x < s.w.toNat)
    (hxy : s.processed x y) : KeepsFlagAndClass (s.pixel (y * s.w.toNat + x)) (t.pixel (y * s.w.toNat + x)) := by
  rcases coreStep_cases e with ⟨hp, e⟩ | ⟨-, e⟩ | ⟨-, -, rfl⟩
  · rw [thresholdStep_eq h hp, Option.some.injEq] at e
    obtain ⟨-, hi⟩ := h.threshPos hp
    rw [← e, ← State.afterPixel, State.afterPixel_pixel h hp, if_neg (hxy.ne_passWord hp hi hx)]
    split
    · exact keepsFlagAndClass_setFlag _
    · exact .refl _
  · rw [State.pixel_of_image (t := t) (s := s) (by rw [detectStep_frame e]; rfl)]
    exact .refl _
  · exact .refl _

/-- A command that neither starts nor ends a scan leaves the image of a running one alone (20_memory.md R75). -/
theorem ExecNext.image_of_running {i : Instr} {s t : State} (h : ExecNext s i t) (hs : s.busy = true) (ht : t.busy = true) :
    t.image = s.image := by
  cases h with
  | setDims hb | setDiameter hb | loadReset hb | loadByte hb | loadPixel hb | start hb | startFails hb | abortIdle hb =>
    exact absurd hs (by simp [hb])
  | softReset => cases ht
  | refused | nop | abort | decOkDrops | decOkOverflows | decOkAppends | decFail | clrErr => rfl

/-- Settles O35: the core sets flags in the image of a running scan, and no other move that keeps it running writes it. -/
theorem processedPixelsKeepFlagAndClass : Obligations.ProcessedPixelsKeepFlagAndClass := by
  intro s t x y h hs e ht hx hy hxy
  show KeepsFlagAndClass (s.pixel (y * s.w.toNat + x)) (t.pixel (y * s.w.toNat + x))
  rcases step_next_cases e with ⟨rest, -, hc⟩ | ⟨rest, -, rfl⟩ | ⟨rest, c, i, -, -, hx'⟩ | ⟨m, rest, -, -, -, -, hq⟩
  · exact keepsFlagAndClass_coreStep (h.withInputs rest) hc hx hxy
  · cases ht
  · rw [State.pixel_of_image (s := s) ((exec_next hx').image_of_running hs ht)]
    exact .refl _
  · rw [State.pixel_of_image (s := s) (t := t) (by rw [hq.frame]; rfl)]
    exact .refl _

/-! ### Determinism (R139) -/

/-- A command given during the threshold pass is refused, changes nothing the pass depends on, or ends the scan. -/
theorem ExecNext.passData_of_thresh {i : Instr} {s t : State} (h : ExecNext s i t) (hp : s.phase = .thresh) :
    t.passData = s.passData ∨ t.phase = .idle ∧ (i = .abort ∨ i = .softReset) := by
  have hs := State.busy_of_thresh hp
  cases h with
  | setDims hb | setDiameter hb | loadReset hb | loadByte hb | loadPixel hb | start hb | startFails hb | abortIdle hb =>
    exact absurd hs (by simp [hb])
  | decOkDrops hw | decOkOverflows hw | decOkAppends hw | decFail hw => exact absurd (hp.symm.trans hw) nofun
  | refused | nop | clrErr => exact .inl rfl
  | abort => exact .inr ⟨rfl, .inl rfl⟩
  | softReset => exact .inr ⟨rfl, .inr rfl⟩

/-- Settles O36: by the kind of the move. -/
theorem busCannotDisturbTheThresholdPass : Obligations.BusCannotDisturbTheThresholdPass := by
  intro s t e rest hi hcore hp h
  rcases step_next_cases h with ⟨_, hc, -⟩ | ⟨_, hr, rfl⟩ | ⟨_, c, i, hc, hd, hx⟩ | ⟨_, _, -, -, -, -, hq⟩
  · exact absurd hc (by simp [hi, hcore])
  · rw [hi, List.cons.injEq] at hr
    exact .inr ⟨rfl, .inr (.inr hr.1)⟩
  · rw [hi, List.cons.injEq] at hc
    refine ((exec_next hx).passData_of_thresh hp).imp_right fun ⟨hidle, hend⟩ => ⟨hidle, ?_⟩
    rcases hend with rfl | rfl
    · exact .inl (hc.1.trans (write_eq_command hd rfl))
    · exact .inr (.inl (hc.1.trans (write_eq_command hd rfl)))
  · exact .inl hq.passData

/-- The state with pass data `p` and every other register at its reset value. -/
def PassData.state (p : PassData) : State :=
  { State.resetOf p.params with
    w := p.w, h := p.h, maxUnit := p.maxUnit, mem := p.mem, field := p.field, phase := p.phase, avg := p.avg, fsm := p.fsm,
    b1 := p.b1, w1 := p.w1, b2 := p.b2, ccount := p.ccount, row := p.row, idx := p.idx }

/-- A flag window in written words writes the same bytes whatever the free values (20_memory.md R77). -/
theorem State.windowFlagged_mem_congr {s t : State} {c : Nat} (hm : s.mem = t.mem)
    (hw : ∀ k, c - 1 ≤ k → k ≤ c + 1 → s.written k = true) : (s.windowFlagged c).mem = (t.windowFlagged c).mem := by
  have hpix : ∀ k, c - 1 ≤ k → k ≤ c + 1 → s.pixel k = t.pixel k := fun k h1 h2 => State.pixel_congr hm (hw k h1 h2)
  simp only [State.windowFlagged, State.setPixel, hm, hpix (c - 1) le_rfl (by omega), hpix c (by omega) (by omega),
    hpix (c + 1) (by omega) le_rfl]

theorem State.afterClassify_written {s : State} {k : Nat} (hk : s.written k = true) : s.afterClassify.written k = true := by
  rw [State.afterClassify, State.written_setPixel, Bool.or_eq_true]
  exact .inr hk

theorem advanceThreshold_passData (s : State) : (advanceThreshold s).passData = (advanceThreshold s.passData.state).passData := by
  have hw : s.passData.state.w = s.w := rfl
  have hh : s.passData.state.h = s.h := rfl
  have hrow : s.passData.state.row = s.row := rfl
  have hidx : s.passData.state.idx = s.idx := rfl
  unfold advanceThreshold
  rw [hw, hh, hrow, hidx]
  split_ifs <;> rfl

section
variable {s : State} (h : Inv s) (hp : s.phase = .thresh)
include h hp

/-- The words of the image are read from the pass data alone: each has been written since reset (20_memory.md R77). -/
theorem State.pixel_passData_state {k : Nat} (hk : k < s.w.toNat * s.h.toNat) : s.pixel k = s.passData.state.pixel k :=
  State.pixel_congr rfl (h.imageRead (State.busy_of_thresh hp) k hk)

theorem State.newAvg_passData_state : s.passData.state.newAvg = s.newAvg := by
  obtain ⟨hj, hi⟩ := h.threshPos hp
  unfold State.newAvg
  rw [State.pixel_passData_state h hp (State.passWord_lt hi hj)]
  rfl

theorem State.passWhite_passData_state : s.passData.state.passWhite = s.passWhite := by
  obtain ⟨hj, hi⟩ := h.threshPos hp
  have hk := State.passWord_lt hi hj
  unfold State.passWhite State.passThreshold
  rw [State.newAvg_passData_state h hp, State.pixel_passData_state h hp hk,
    State.pixel_passData_state h hp (k := s.passWord - s.w.toNat) (by omega)]
  rfl

theorem State.afterClassify_mem_passData_state : s.passData.state.afterClassify.mem = s.afterClassify.mem := by
  unfold State.afterClassify
  rw [State.newAvg_passData_state h hp, State.passWhite_passData_state h hp]
  rfl

theorem State.accepted_passData_state : s.passData.state.accepted = s.accepted := by
  unfold State.accepted
  rw [State.passWhite_passData_state h hp]
  rfl

/-- The flags of an acceptance fall on words of the image, which are written before the step and after it. -/
theorem State.afterAutomaton_mem_passData_state : s.passData.state.afterAutomaton.mem = s.afterAutomaton.mem := by
  have hmem := State.afterClassify_mem_passData_state h hp
  have hwin : s.passData.state.windowWord = s.windowWord := rfl
  rw [State.afterAutomaton_mem, State.afterAutomaton_mem, State.accepted_passData_state h hp, hwin]
  by_cases ha : s.accepted = true
  · rw [if_pos ha, if_pos ha]
    obtain ⟨hlow, hhigh, -⟩ := State.accepted_window h hp ha
    obtain ⟨hj, -⟩ := h.threshPos hp
    have hrow := row_end_le (w := s.w.toNat) hj
    refine (State.windowFlagged_mem_congr hmem.symm fun k h1 h2 => State.afterClassify_written ?_).symm
    refine h.imageRead (State.busy_of_thresh hp) k ?_
    rw [Nat.mul_comm]
    omega
  · rw [if_neg ha, if_neg ha, hmem]

omit h hp in
theorem State.afterAutomaton_passData : s.afterAutomaton.passData =
    { s.passData with
      mem := s.afterAutomaton.mem, avg := BitVec.ofNat 24 s.newAvg, fsm := s.afterAutomaton.fsm, b1 := s.afterAutomaton.b1,
      w1 := s.afterAutomaton.w1, b2 := s.afterAutomaton.b2, ccount := s.afterAutomaton.ccount } := by
  rw [State.afterAutomaton_eq]
  rfl

theorem State.afterAutomaton_passData_state : s.passData.state.afterAutomaton.passData = s.afterAutomaton.passData := by
  have hreg : (s.passData.state.afterAutomaton.fsm, s.passData.state.afterAutomaton.b1, s.passData.state.afterAutomaton.w1,
      s.passData.state.afterAutomaton.b2) =
      (s.afterAutomaton.fsm, s.afterAutomaton.b1, s.afterAutomaton.w1, s.afterAutomaton.b2) := by
    rw [State.afterAutomaton_fsm, State.afterAutomaton_fsm, State.passWhite_passData_state h hp]
    rfl
  have hcc : s.passData.state.afterAutomaton.ccount = s.afterAutomaton.ccount := by
    rw [State.afterAutomaton_ccount, State.afterAutomaton_ccount, State.accepted_passData_state h hp]
    rfl
  simp only [Prod.mk.injEq] at hreg
  obtain ⟨hfsm, hb1, hw1, hb2⟩ := hreg
  rw [State.afterAutomaton_passData, State.afterAutomaton_passData, State.afterAutomaton_mem_passData_state h hp,
    State.newAvg_passData_state h hp, hfsm, hb1, hw1, hb2, hcc]
  rfl

/-- The pass data after a step are those of a step from the pass data alone. -/
theorem State.afterPixel_passData_state : s.passData.state.afterPixel.passData = s.afterPixel.passData := by
  rw [State.afterPixel, State.afterPixel, advanceThreshold_passData, advanceThreshold_passData s.afterAutomaton,
    State.afterAutomaton_passData_state h hp]

end

/-- Settles O37: both steps end in the pass data of the step from the common pass data alone. -/
theorem thresholdStepDependsOnPassDataOnly : Obligations.ThresholdStepDependsOnPassDataOnly := by
  intro s s' t t' h h' hd hp e e'
  have hp' : s'.phase = .thresh := (congrArg PassData.phase hd).symm.trans hp
  have ended : ∀ {u v : State}, Inv u → u.phase = .thresh → coreStep u = .next v →
      v.passData = u.passData.state.afterPixel.passData := fun hu hpu eu => by
    rw [coreStep_threshold hu hpu] at eu
    rw [eq_of_next eu, State.afterPixel_passData_state hu hpu]
  rw [ended h hp e, ended h' hp' e', hd]

end Sys2Proof.Machine
end

section
/-! PROOFS. The family of 42_detect.md: the detect step (R161 to R164), its advance (R165), the edge columns (R166), the length of the
pass (R160, R167), the decode responses (R171 to R174) and the field the decoder sees (R176). -/

namespace Sys2Proof.Machine

/-! ### The checksum (R173) -/

/-- The places of the 1 bits of a 13-bit symbol code (10_state.md R33). -/
def codeBits (c : Nat) : Finset Nat := (Finset.range 13).filter fun i => c.testBit i = true

theorem length_filter_range (p : Nat → Bool) (n : Nat) :
    ((List.range n).filter p).length = ((Finset.range n).filter fun i => p i = true).card := by
  rw [← List.toFinset_range, ← List.toFinset_filter, List.toFinset_card_of_nodup (List.nodup_range.filter _)]

theorem popcount13_eq_card (c : Nat) : popcount13 c = (codeBits c).card := length_filter_range c.testBit 13

theorem codeBits_inj_of_lt {a b : Nat} (ha : a < 2 ^ 13) (hb : b < 2 ^ 13) (h : codeBits a = codeBits b) : a = b := by
  apply Nat.eq_of_testBit_eq
  intro i
  by_cases hi : i < 13
  · have := Finset.ext_iff.mp h i
    simpa [codeBits, hi] using this
  · have hpow : 2 ^ 13 ≤ 2 ^ i := Nat.pow_le_pow_right (by decide) (not_lt.mp hi)
    rw [Nat.testBit_lt_two_pow (ha.trans_le hpow), Nat.testBit_lt_two_pow (hb.trans_le hpow)]

/-- Every set of places below 13 is the set of 1 bits of a code. -/
theorem exists_codeBits_eq {places : Finset Nat} (h : places ⊆ Finset.range 13) : ∃ c < 2 ^ 13, codeBits c = places := by
  refine ⟨Nat.ofBits fun i : Fin 13 => decide (i.val ∈ places), Nat.ofBits_lt_two_pow _, Finset.ext fun i => ?_⟩
  by_cases hi : i < 13
  · simp [codeBits, hi]
  · have hm : i ∉ places := fun hm => hi (Finset.mem_range.mp (h hm))
    simp [codeBits, hi, hm]

/-- The codes with a valid checksum correspond to the choices of 5 of the 13 bits. -/
theorem checksum_count : ((List.range 8192).filter checksum).length = Nat.choose 13 5 := by
  have hchoices : Nat.choose 13 5 = ((Finset.range 13).powersetCard 5).card := by
    rw [Finset.card_powersetCard, Finset.card_range]
  rw [length_filter_range, hchoices]
  refine Finset.card_bij (fun c _ => codeBits c) (fun c hc => ?_) (fun a ha b hb => ?_) (fun places hp => ?_)
  · simp only [Finset.mem_filter, checksum, popcount13_eq_card, beq_iff_eq] at hc
    exact Finset.mem_powersetCard.mpr ⟨Finset.filter_subset _ _, hc.2⟩
  · exact codeBits_inj_of_lt (Finset.mem_range.mp (Finset.mem_filter.mp ha).1) (Finset.mem_range.mp (Finset.mem_filter.mp hb).1)
  · obtain ⟨hsub, hfive⟩ := Finset.mem_powersetCard.mp hp
    obtain ⟨c, hc, rfl⟩ := exists_codeBits_eq hsub
    refine ⟨c, Finset.mem_filter.mpr ⟨Finset.mem_range.mpr hc, ?_⟩, rfl⟩
    simpa [checksum, popcount13_eq_card] using hfive

/-! ### Decode responses (R171, R172) -/

/-- Settles O18: the count of bits, then the arms of DEC_OK in their order. -/
theorem decOkAppendsOrDropsTheCandidate : Obligations.DecOkAppendsOrDropsTheCandidate := by
  refine ⟨fun c => ?_, fun c h => decode_eq_ok.mpr ⟨.decOk, h, rfl⟩, fun c s hp => if_pos hp, fun c s hp hc => ?_,
    fun c s hp hc hu hl => ?_, fun c s hp hc hu hl => ?_⟩
  · rw [popcount13_eq_card, codeBits]
    simp only [Nat.testBit_eq_decide_div_mod_eq, decide_eq_true_eq]
  · show execDecOk c s = _
    rw [execDecOk, if_neg (not_not.mpr hp), if_pos hc]
    rfl
  · show execDecOk c s = _
    rw [execDecOk, if_neg (not_not.mpr hp), if_neg (by simp [hc, hu]), if_pos hl]
    rfl
  · show execDecOk c s = _
    rw [execDecOk, if_neg (not_not.mpr hp), if_neg (by simp [hc, hu]), if_neg hl]
    rfl

/-- Settles O19: the two arms of DEC_FAIL. -/
theorem decFailDropsTheCandidate : Obligations.DecFailDropsTheCandidate :=
  ⟨rfl, fun _ hp => if_pos hp, fun _ hp => ⟨if_neg (not_not.mpr hp), rfl⟩, State.reset.raise .proto, rfl, by decide⟩

/-! ### The symbol table of a running scan (R174) -/

theorem Sym.valid_iff {e : Sym} : e.valid = true ↔
    ((Finset.range 13).filter fun i => e.code.getLsbD i = true).card = 5 ∧ e.unit ≠ 0#32 := by
  rw [Sym.valid, Bool.and_eq_true, checksum, beq_iff_eq, popcount13_eq_card, decide_eq_true_eq]
  rfl

/-- A command that does not end a running scan in IDLE keeps the symbol table or, answering a request, appends a valid symbol. -/
theorem ExecNext.syms_of_running {i : Instr} {s t : State} (h : ExecNext s i t) (hs : s.busy = true) (ht : t.phase ≠ .idle) :
    t.syms = s.syms ∨ ∃ e : Sym, t.syms = s.syms ++ [e] ∧ s.phase = .waitDec ∧ e.valid = true := by
  cases h with
  | decOkAppends hp hc hl => exact .inr ⟨_, rfl, hp, State.responseSym_valid hc.1 hc.2⟩
  | loadByte hb | loadPixel hb | start hb => exact absurd hs (by simp [hb])
  | startFails | abort | softReset => exact absurd rfl ht
  | refused | nop | setDims | setDiameter | loadReset | abortIdle | decOkDrops | decOkOverflows | decFail | clrErr =>
    exact .inl rfl

/-- Settles O42: only a response appends, and the responses the checksum lets through are choices of 5 of 13 bits. -/
theorem symbolTableOnlyGrowsDuringAScan : Obligations.SymbolTableOnlyGrowsDuringAScan := by
  refine ⟨fun s t hs e ht => ?_, checksum_count.trans (by decide)⟩
  simp only [← Sym.valid_iff]
  rcases step_next_cases e with ⟨rest, -, hc⟩ | ⟨rest, -, rfl⟩ | ⟨rest, c, i, -, -, hx⟩ | ⟨m, rest, -, -, -, -, hq⟩
  · exact .inl (by rw [coreStep_frame hc])
  · exact absurd rfl ht
  · exact (exec_next hx).syms_of_running hs ht
  · exact .inl hq.syms

/-! ### The field of an outstanding request (R176) -/

/-- No command writes pixel memory during a scan (20_memory.md R75). -/
theorem ExecNext.mem_of_running {i : Instr} {s t : State} (h : ExecNext s i t) (hs : s.busy = true) : t.mem = s.mem := by
  cases h with
  | loadByte hb | loadPixel hb => exact absurd hs (by simp [hb])
  | refused | nop | setDims | setDiameter | loadReset | start | startFails | abort | abortIdle | decOkDrops | decOkOverflows
  | decOkAppends | decFail | clrErr | softReset => rfl

/-- After the threshold pass every pixel of the image holds a thresholded word. -/
theorem FieldInv.complete {s : State} (h : FieldInv s) (hp : s.phase = .detect ∨ s.phase = .waitDec) {x y : Nat}
    (hx : x < s.w.toNat) (hy : y < s.h.toNat) : wordThresholded s.w.toNat x (s.pixel (y * s.w.toNat + x)) := by
  have hne : s.phase ≠ .thresh := by rcases hp with hp | hp <;> simp [hp]
  exact h ((State.busy_iff s).mpr (.inr hp)) x y hx hy (State.processed_of_phase_ne hne x y)

/-- Settles O51: the pass that writes the field is over, and no move but a reset writes memory past it. -/
theorem decoderSeesTheCompleteField : Obligations.DecoderSeesTheCompleteField := by
  refine ⟨fun s h hf hp => ⟨h.scanField (.inr hp), fun x y => hf.complete (.inr hp)⟩, fun s t hp e hr => ?_⟩
  rcases step_next_cases e with ⟨rest, -, hc⟩ | ⟨rest, hi, -⟩ | ⟨rest, c, i, -, -, hx⟩ | ⟨m, rest, -, -, -, -, hq⟩
  · rcases coreStep_cases hc with ⟨ht, -⟩ | ⟨-, hd⟩ | ⟨-, -, rfl⟩
    · have ht : s.phase = .thresh := ht
      simp [ht] at hp
    · rw [detectStep_frame hd]
    · rfl
  · exact absurd (by rw [hi]; rfl) hr
  · exact (exec_next hx).mem_of_running ((State.busy_iff s).mpr (.inr hp))
  · exact hq.mem

/-! ### Containment (R164) -/

/-- Settles O41: both sides are scaled by 2^32, the square of the fields' common denominator. -/
theorem containmentIsExact : Obligations.ContainmentIsExact := by
  intro e x y
  have coord : ∀ a b : ℚ, a - b / 2 ^ 16 = (a * 2 ^ 16 - b) / 2 ^ 16 := fun a b => by ring
  rw [Sym.inBullseye_iff, coord, coord, div_pow, div_pow, div_pow, ← add_div, div_le_div_iff_of_pos_right (by positivity)]
  exact_mod_cast Iff.rfl

/-! ### The detect step (R161 to R163) -/

/-- The pixel at the scan position gets a decode request. -/
def State.requests (s : State) : Bool :=
  s.qualifiesAt s.idx.toNat s.row.toNat && !s.contained s.idx.toNat s.row.toNat

theorem State.requests_withInputs (s : State) (i : List Input) : State.requests { s with inputs := i } = s.requests := rfl

theorem coreStep_detect {s : State} (h : Inv s) (hp : s.phase = .detect) :
    coreStep s = .next (if s.requests then s.issueRequest else advanceDetect s) := by
  unfold coreStep
  rw [hp]
  exact congrArg outcomeOf (detectStep_eq h hp)

theorem step_detect {s : State} (h : Inv s) (hm : s.coreMoves) (hp : s.phase = .detect) :
    step s = .next (if s.requests then State.issueRequest { s with inputs := s.inputs.tail }
      else advanceDetect { s with inputs := s.inputs.tail }) := by
  rw [step_coreMoves hm, coreStep_detect (h.withInputs s.inputs.tail) hp, State.requests_withInputs]

/-- Settles O38: the condition, written out, is that of a request. -/
theorem detectStepRequestsOrAdvances : Obligations.DetectStepRequestsOrAdvances := by
  intro s h hm hp x y flagged qualifies contained
  have hreq : s.requests = true ↔ qualifies ∧ ¬contained := by
    rw [State.requests, Bool.and_eq_true, Bool.not_eq_true', ← Bool.not_eq_true, State.contained_iff]
    simp only [Sym.inBullseye_iff]
    refine and_congr ?_ Iff.rfl
    simp [State.qualifiesAt, State.flagAt, flagBit, qualifies, flagged, x, y, and_assoc]
  rw [step_detect h hm hp]
  exact ⟨fun hq => by rw [if_pos (hreq.mpr hq)]; rfl, fun hq => by rw [if_neg (hreq.not.mpr hq)]⟩

/-- A flag in a field the detect pass reads stands in columns 1 to W-2 (41_threshold.md R149). -/
theorem column_of_flagAt {s : State} (h : FieldInv s) (hp : s.phase = .detect) {x y : Nat} (hx : x < s.w.toNat)
    (hy : y < s.h.toNat) (hf : s.flagAt x y = true) : 1 ≤ x ∧ x + 2 ≤ s.w.toNat := by
  obtain ⟨-, -, hcol⟩ := h.complete (.inl hp) hx hy
  exact hcol hf

/-- Settles O40: a request needs flags on both sides of its column, and a flag stands in columns 1 to W-2. -/
theorem edgeColumnsNeverIssueARequest : Obligations.EdgeColumnsNeverIssueARequest := by
  intro s t h hf hm hp e ht
  obtain ⟨-, hrow, hi⟩ := h.detectPos (.inl hp)
  rw [step_detect h hm hp] at e
  have hreq : s.requests = true := by
    by_contra hn
    rw [if_neg hn] at e
    rw [eq_of_next e] at ht
    rcases advanceDetect_phase { s with inputs := s.inputs.tail } with hd | hd <;> simp [hd] at ht
  simp only [State.requests, State.qualifiesAt, Bool.and_eq_true, decide_eq_true_eq] at hreq
  obtain ⟨⟨⟨⟨⟨-, hx1, hleft⟩, hx2, hright⟩, -⟩, -⟩, -⟩ := hreq
  have hl := column_of_flagAt hf hp (by omega) (by omega) hleft
  have hr := column_of_flagAt hf hp hx2 (by omega) hright
  omega

/-! ### The length of the pass (R160, R165, R167) -/

/-- Settles O39: the three cases of the advance. -/
theorem advanceDetectVisitsInRasterOrder : Obligations.AdvanceDetectVisitsInRasterOrder := by
  intro s hi hr
  refine ⟨fun hw => advanceDetect_within hw hr, fun hw => advanceDetect_next_row hw, fun hw hrow => ?_⟩
  have e := advanceDetect_last_row hw hrow
  refine ⟨e, ?_⟩
  rw [e]
  show (s.row + 1).toNat + 2 = s.h.toNat
  rw [idx_succ_toNat (n := s.h.toNat) (by omega) s.h.isLt]
  omega

/-- The pixels of rows ROW to H-3 that the detect pass has not examined yet. -/
def State.pixelsLeft (s : State) : Nat := (s.h.toNat - 2 - s.row.toNat) * s.w.toNat - s.idx.toNat

/-- The detect position is one of those pixels (42_detect.md R160). -/
theorem Inv.idx_lt_of_detect {s : State} (h : Inv s) (hp : s.phase = .detect) :
    s.idx.toNat < (s.h.toNat - 2 - s.row.toNat) * s.w.toNat := by
  obtain ⟨-, hrow, hi⟩ := h.detectPos (.inl hp)
  exact hi.trans_le (Nat.le_mul_of_pos_left _ (by omega))

/-- The advance ends the pass or leaves one pixel less. -/
theorem pixelsLeft_advanceDetect {s : State} (h : Inv s) (hp : s.phase = .detect) :
    (advanceDetect s).phase = .done ∨ (advanceDetect s).phase = .detect ∧ (advanceDetect s).pixelsLeft + 1 = s.pixelsLeft := by
  obtain ⟨-, hrow, hi⟩ := h.detectPos (.inl hp)
  have hlt := h.idx_lt_of_detect hp
  by_cases hw : s.idx.toNat + 1 < s.w.toNat
  · have hidx : (s.idx + 1).toNat = s.idx.toNat + 1 := idx_succ_toNat hi s.w.isLt
    rw [advanceDetect_within hw hrow]
    refine .inr ⟨rfl, ?_⟩
    simp only [State.pixelsLeft, hidx]
    omega
  by_cases hr : s.row.toNat + 3 = s.h.toNat
  · exact .inl (by rw [advanceDetect_last_row (by omega) hr])
  · have hnext : (s.row + 1).toNat = s.row.toNat + 1 := idx_succ_toNat (n := s.h.toNat) (by omega) s.h.isLt
    rw [advanceDetect_next_row (by omega) (by omega)]
    refine .inr ⟨rfl, ?_⟩
    simp only [State.pixelsLeft, hnext, ← Nat.sub_sub, Nat.sub_one_mul, BitVec.toNat_ofNat, Nat.zero_mod]
    omega

/-- Left alone, the detect pass stops within the pixels left: a step issues a request, ends the pass or leaves one pixel less. -/
theorem detectPass_stops {n : Nat} {s : State} (h : Inv s) (hin : s.inputs = []) (hp : s.phase = .detect)
    (hn : s.pixelsLeft ≤ n) : ∃ m ≤ n, ∃ t, steps m s = .next t ∧ (t.phase = .waitDec ∨ t.phase = .done) := by
  induction n generalizing s with
  | zero => exact absurd (h.idx_lt_of_detect hp) (Nat.not_lt.mpr (Nat.le_of_sub_eq_zero (Nat.le_zero.mp hn)))
  | succ n ih =>
    have hstep : step s = .next (if s.requests then s.issueRequest else advanceDetect s) := by
      rw [← coreStep_detect h hp, step, hin]
    by_cases hq : s.requests = true
    · rw [if_pos hq] at hstep
      exact ⟨1, by omega, _, (steps_one s).trans hstep, .inl rfl⟩
    rw [if_neg hq] at hstep
    rcases pixelsLeft_advanceDetect h hp with hd | ⟨hd, hleft⟩
    · exact ⟨1, by omega, _, (steps_one s).trans hstep, .inr hd⟩
    · obtain ⟨m, hm, t, ht, hend⟩ := ih (h.advanceDetect (.inl hp)) hin hd (by omega)
      exact ⟨m + 1, by omega, t, by rw [steps, hstep, andThen_next, ht], hend⟩

/-- Settles O43: by the number of pixels left. -/
theorem detectPassReachesARequestOrItsEnd : Obligations.DetectPassReachesARequestOrItsEnd := by
  intro s h hin hp
  obtain ⟨m, hm, t, ht, hend⟩ := detectPass_stops h hin hp le_rfl
  have hlt := h.idx_lt_of_detect hp
  exact ⟨m, t, by unfold State.pixelsLeft at hm; omega, ht, hend⟩

end Sys2Proof.Machine
end

section
/-! PROOFS. The family of 43_control.md: NOP (R190), ABORT (R191), CLR_ERR (R192), SOFT_RESET (R193), and the BUSY gate of a running scan
(R195). -/

namespace Sys2Proof.Machine

/-! ### A running scan (R195) -/

/-- While BUSY the test that stands first in each gated command's rule raises ERR_BUSY and nothing runs past it. -/
theorem exec_gated_of_busy {i : Instr} {s : State} (hb : s.busy = true)
    (hi : i.op ∈ [Op.setDims, Op.setDiameter, Op.loadReset, Op.loadByte, Op.loadPixel, Op.start]) :
    exec i s = .next (s.raise .busy) := by
  cases i with
  | setDims | setDiameter | loadReset | loadByte | loadPixel | start => exact if_pos hb
  | nop | abort | decOk | decFail | clrErr | softReset => simp [Instr.op] at hi

/-- A command that keeps a scan running is refused at the gate or is not one of the two that write MAXUNIT (10_state.md R23). -/
theorem maxUnit_of_running {i : Instr} {s t : State} (h : exec i s = .next t) (hs : s.busy = true) (ht : t.busy = true) :
    t.maxUnit = s.maxUnit := by
  obtain ⟨-, hkept, -⟩ := eachRegisterHasItsOwnWriters i s t h
  cases exec_next h with
  | setDiameter hb => exact absurd hs (by simp [hb])
  | softReset => cases ht
  | refused => rfl
  | nop | setDims | loadReset | loadByte | loadPixel | start | startFails | abort | abortIdle | decOkDrops | decOkOverflows
  | decOkAppends | decFail | clrErr => exact hkept (by simp [Instr.op])

/-- Settles O23: the gate, then the kinds of moves that keep a scan running. -/
theorem runningScanIsNotReconfigured : Obligations.RunningScanIsNotReconfigured := by
  refine ⟨fun i s hb hi => exec_gated_of_busy hb hi, fun s t hs e ht => ?_⟩
  rcases step_next_cases e with ⟨rest, hi, hc⟩ | ⟨rest, -, rfl⟩ | ⟨rest, c, i, -, -, hx⟩ | ⟨m, rest, -, -, -, -, hq⟩
  · obtain ⟨⟨hw, hh, hm, -⟩, -⟩ := coreStepFrame _ t hc
    refine ⟨hw, hh, hm, fun hne hcore => ?_⟩
    rcases hi with ⟨hnil, -⟩ | hi
    · exact absurd hnil hne
    · exact absurd (by rw [hi]; rfl) hcore
  · cases ht
  · have hm := maxUnit_of_running hx hs ht
    have himage := (exec_next hx).image_of_running hs ht
    simp only [State.image, Prod.mk.injEq] at himage
    obtain ⟨hw, hh, hmem, -⟩ := himage
    exact ⟨hw, hh, hm, fun _ _ => hmem⟩
  · rw [hq.frame]
    exact ⟨rfl, rfl, rfl, fun _ _ => rfl⟩

/-! ### NOP and its illegal neighbours (R190) -/

/-- A word of opcode 0 with any payload bit set is illegal: NOP's format has no payload (30_encoding.md R81, R85). -/
theorem decode_nop_payload {c : Word} (h1 : 1 ≤ c.toNat) (h2 : c.toNat < 2 ^ 28) : decode c = .error (.reservedPayload .nop) := by
  have hop : bits c 28 4 = 0 := by rw [bits_eq]; omega
  have hreserved : c &&& Op.nop.mask ≠ Op.nop.pattern := fun hl => by
    rw [eq_pattern_of_legal hl rfl] at h1
    exact absurd h1 (by decide)
  rw [decode, hop]
  exact if_neg hreserved

/-- Settles O8: the word 1 is the reset state's example of an illegal neighbour. -/
theorem nopChangesNothing : Obligations.NopChangesNothing := by
  refine ⟨rfl, fun s => rfl, fun c => decode_nop_payload, ?_, State.status_resetOf _, State.reset.raise .illegal, ?_, by decide⟩
  · exact stepExecutesTheDecodedCommand.2 State.reset 32 0 .nop rfl
  · exact illegalWordOnlySetsErrIllegal (State.reset.withFetchWord 32 1) [] 1#32 rfl (.inr ⟨.nop, by decide, by decide⟩)

/-! ### ABORT, CLR_ERR and SOFT_RESET (R191 to R193) -/

/-- Settles O17: the two arms of ABORT. -/
theorem abortEndsARunningScan : Obligations.AbortEndsARunningScan :=
  ⟨rfl, fun _ hb => if_pos hb, fun _ hb => if_neg (by simp [hb])⟩

/-- Settles O20: STATUS[15:8] is the error bits, all of them cleared. -/
theorem clrErrClearsTheErrorBits : Obligations.ClrErrClearsTheErrorBits := by
  refine ⟨rfl, fun s => ⟨s.clearErrors, rfl, rfl, s.err_clearErrors, ?_⟩⟩
  rw [bits, State.status_errs, State.clearErrors_errs]
  rfl

theorem pair14_zero : pair14 0#14 0#14 = 0#32 := by decide

/-- The reset values meet the reset table with any pixel memory, so after both resets (70_reset_and_hazards.md R240, R241). -/
theorem resetTable_resetOf_withMemory (p : Params) (m : Memory) (i : List Input) (r : Option Word) (n : Nat) :
    ResetTable { State.resetOf p with mem := m, inputs := i, rdata := r, epoch := n } where
  dims    := ⟨rfl, rfl, pair14_zero⟩
  maxUnit := ⟨rfl, rfl⟩
  load    := ⟨rfl, rfl, rfl, rfl⟩
  field   := rfl
  phase   := ⟨rfl, rfl⟩
  avg     := rfl
  fsm     := ⟨rfl, rfl, rfl, rfl⟩
  ccount  := rfl
  pos     := ⟨rfl, rfl, pair14_zero⟩
  req     := ⟨rfl, rfl, pair14_zero⟩
  resp    := ⟨rfl, rfl, rfl, rfl⟩
  syms    := ⟨rfl, fun _ _ => rfl⟩
  errs    := (State.resetOf p).err_clearErrors
  irq     := ⟨rfl, by simp [State.irq, State.enDone, State.enReq, State.enErr, State.resetOf]⟩
  status  := State.status_resetOf p

/-- Settles O21: memory and its epoch stay, so every byte reads as before. -/
theorem softResetKeepsOnlyPixelMemory : Obligations.SoftResetKeepsOnlyPixelMemory :=
  ⟨rfl, fun s => ⟨s.softReset, rfl, resetTable_resetOf_withMemory .., rfl, fun _ => rfl, rfl⟩⟩

end Sys2Proof.Machine
end

section
/-! PROOFS. The family of 60_exceptions.md: no step stops (R213), one error bit a transaction (R214), how a scan ends (R217), and the
interrupt output (R218). -/

namespace Sys2Proof.Machine

/-! ### Every move is answered (R213) -/

/-- The outcome is a next state. -/
def Answers (o : Host.Outcome State Fault Refusal) : Prop := ∃ t, o = .next t

theorem Answers.next (t : State) : Answers (.next t) := ⟨t, rfl⟩

theorem Answers.ite {c : Prop} [Decidable c] {o o' : Host.Outcome State Fault Refusal} (h : Answers o) (h' : Answers o') :
    Answers (if c then o else o') := by
  split
  · exact h
  · exact h'

/-- The word a received byte completes exists, and the bounds that say so hold again after it (40_load.md R102). -/
theorem StoreInv.acceptByte_some {s : State} (h : StoreInv s) (b : Byte) : ∃ t, Machine.acceptByte b s = some t ∧ StoreInv t := by
  obtain ⟨t, ht, -⟩ := acceptByte_next b h.legal h.bc
  exact ⟨t, ht, h.acceptByte ht⟩

theorem execLoadByte_answers {s : State} (h : StoreInv s) (b : Nat) : Answers (execLoadByte b s) := by
  obtain ⟨t, ht, -⟩ := h.acceptByte_some (BitVec.ofNat 8 b)
  have haccept : Answers (outcomeOf (acceptByte (BitVec.ofNat 8 b) s)) := ⟨t, outcomeOf_eq_next.mpr ht⟩
  exact .ite (.next _) (.ite (.next _) haccept)

theorem execLoadPixel_answers {s : State} (h : StoreInv s) (r g b : Nat) : Answers (execLoadPixel r g b s) := by
  obtain ⟨u, hu, hi⟩ := h.acceptByte_some (BitVec.ofNat 8 r)
  obtain ⟨v, hv, hi⟩ := hi.acceptByte_some (BitVec.ofNat 8 g)
  obtain ⟨t, ht, -⟩ := hi.acceptByte_some (BitVec.ofNat 8 b)
  have haccept : Answers (outcomeOf
      (((acceptByte (BitVec.ofNat 8 r) s).bind (acceptByte (BitVec.ofNat 8 g))).bind (acceptByte (BitVec.ofNat 8 b)))) := by
    rw [hu, Option.bind_some, hv, Option.bind_some, ht]
    exact .next t
  exact .ite (.next _) (.ite (.next _) haccept)

/-- Every command is answered: only the two that store pixels address memory. -/
theorem exec_answers {s : State} (h : StoreInv s) (i : Instr) : Answers (exec i s) := by
  cases i with
  | nop | clrErr | softReset => exact .next _
  | setDims | setDiameter | loadReset | abort | decFail => exact .ite (.next _) (.next _)
  | start => exact .ite (.next _) (.ite (.next _) (.next _))
  | decOk => exact .ite (.next _) (.ite (.next _) (.ite (.next _) (.next _)))
  | loadByte b => exact execLoadByte_answers h b
  | loadPixel r g b => exact execLoadPixel_answers h r g b

theorem execWord_answers {s : State} (h : StoreInv s) (c : Word) : Answers (execWord c s) := by
  rcases execWord_cases c s with ⟨i, -, e⟩ | ⟨r, -, e⟩
  · rw [e]; exact exec_answers h i
  · rw [e]; exact .next _

theorem busWrite_answers {s : State} (h : StoreInv s) (off : BitVec 32) (v : Word) : Answers (busWrite off v s) := by
  rcases busWrite_cases off v s with ⟨-, e⟩ | ⟨-, e⟩ | ⟨-, e⟩ | ⟨-, e⟩ | ⟨-, e⟩ | ⟨-, e⟩ | ⟨-, e⟩
  · rw [e]; exact execWord_answers h v
  all_goals exact ⟨_, e⟩

theorem coreStep_answers {s : State} (h : Inv s) : Answers (coreStep s) := by
  by_cases ht : s.phase = .thresh
  · exact ⟨_, coreStep_threshold h ht⟩
  by_cases hd : s.phase = .detect
  · exact ⟨_, coreStep_detect h hd⟩
  · exact ⟨_, coreStep_idle ht hd⟩

/-- Settles O46: by the kind of the move, the pass's word and the stream's word existing under the invariant. -/
theorem noStepStops : Obligations.NoStepStops := by
  intro s h
  change Answers (step s)
  rcases step_cases s with ⟨-, e⟩ | ⟨rest, -, e⟩ | ⟨rest, -, e⟩ | ⟨rest, off, -, e⟩ | ⟨rest, off, v, -, e⟩
  · rw [e]; exact coreStep_answers h
  · rw [e]; exact coreStep_answers (h.withInputs rest)
  · exact ⟨_, e⟩
  · exact ⟨_, e⟩
  · rw [e]; exact busWrite_answers (h.withInputs rest).store off v

/-! ### One error bit a transaction (R214) -/

/-- A step clears all the error bits, keeps them, or raises one. -/
theorem step_errs_cases {s t : State} (h : step s = .next t) :
    t.errs = 0#8 ∨ t.errs = s.errs ∨ ∃ e, t.errs = (s.raise e).errs := by
  rcases step_next_cases h with ⟨rest, -, hc⟩ | ⟨rest, -, rfl⟩ | ⟨rest, c, i, -, -, hx⟩ | ⟨m, rest, -, -, -, -, hq⟩
  · exact .inr (.inl (by rw [coreStep_frame hc]))
  · exact .inl rfl
  · rcases (exec_next hx).errs with rfl | rfl | hk
    · exact .inl (by rw [eq_of_next hx]; rfl)
    · exact .inl (by rw [eq_of_next hx]; rfl)
    · exact .inr hk
  · exact .inr hq.errs_kept_or_raised

/-- A step that raises a bit does nothing else to the error bits. -/
theorem step_errs_of_raised {s t : State} {e : Err} (h : step s = .next t) (hs : s.err e = false) (ht : t.err e = true) :
    t.errs = (s.raise e).errs := by
  rcases step_errs_cases h with hz | hk | ⟨g, hg⟩
  · simp [State.err, hz] at ht
  · simp [err_of_errs_eq hk, hs] at ht
  · rw [err_of_errs_eq hg, State.err_raise, hs, Bool.or_false, decide_eq_true_eq] at ht
    rw [hg, ht]

/-- Settles O26: after a step that raises `e`, a bit that was 0 is 1 only if it is `e`. -/
theorem atMostOneErrorPerTransaction : Obligations.AtMostOneErrorPerTransaction := by
  refine ⟨fun s t e f h hse hte hsf htf => ?_, fun s t hc => by rw [coreStep_frame hc]⟩
  rw [err_of_errs_eq (step_errs_of_raised h hse hte), State.err_raise, hsf, Bool.or_false, decide_eq_true_eq] at htf
  exact htf.symm

/-! ### How a scan ends (R217) -/

/-- A bus write to CMD that decodes is the move that delivers the command. -/
theorem write_eq_command_of_decode {c : Word} {i : Instr} (h : decode c = .ok i) : Input.write 0x004#32 c = command i := by
  obtain ⟨-, he⟩ := decodedWordReencodes c i h
  rw [command, he, cmdWrite]

/-- The normal completion: the detect pass past row H-3, the last response perhaps dropped with ERR_RESP, or the threshold pass of an
image too low for a detect pass (42_detect.md R165, 41_threshold.md R137). -/
def ScanCompletes (s t : State) : Prop :=
  t.phase = .done ∧ (t.errs = s.errs ∨ (t.errs = s.errs ||| 0x10#8 ∧ s.phase = .waitDec)) ∧ t.idx = 0#14 ∧
    ((t.row.toNat + 2 = s.h.toNat ∧ s.phase ≠ .thresh) ∨ (t.row = s.h ∧ s.h.toNat < 5 ∧ s.phase = .thresh))

/-- A symbol-table overflow: DONE at the position of the request, with ERR_SYM_OVF (42_detect.md R171). -/
def ScanOverflows (s t : State) : Prop :=
  t.phase = .done ∧ t.errs = s.errs ||| 0x20#8 ∧ t.syms = s.syms ∧ s.syms.length = s.params.nSym ∧ t.row = s.row ∧ t.idx = s.idx ∧
    s.phase = .waitDec

/-- The advance out of the threshold pass ends a scan after the last row of an image lower than 5. -/
theorem advanceThreshold_not_busy {s : State} (hp : s.phase = .thresh) (h : (advanceThreshold s).busy = false) :
    (advanceThreshold s).phase = .done ∧ (advanceThreshold s).idx = 0#14 ∧ (advanceThreshold s).row = s.h ∧ s.h.toNat < 5 := by
  unfold advanceThreshold at h ⊢
  split_ifs at h ⊢ with hw hr hh
  · cases h
  · exact ⟨rfl, rfl, hr, Nat.lt_of_not_le hh⟩
  · cases (State.busy_of_thresh hp).symm.trans h
  · cases (State.busy_of_thresh hp).symm.trans h

/-- The detect pass's advance ends a scan at the last column of row H-3. -/
theorem advanceDetect_not_busy {s : State} (hr : s.row.toNat + 3 ≤ s.h.toNat) (hi : s.idx.toNat < s.w.toNat)
    (h : (advanceDetect s).busy = false) :
    (advanceDetect s).phase = .done ∧ (advanceDetect s).idx = 0#14 ∧ (advanceDetect s).row.toNat + 2 = s.h.toNat := by
  by_cases hw : s.idx.toNat + 1 = s.w.toNat
  swap
  · rw [advanceDetect_within (by omega) hr] at h
    cases h
  by_cases hend : s.row.toNat + 3 = s.h.toNat
  · rw [advanceDetect_last_row hw hend]
    refine ⟨rfl, rfl, ?_⟩
    show (s.row + 1).toNat + 2 = s.h.toNat
    rw [idx_succ_toNat (n := s.h.toNat) (by omega) s.h.isLt]
    omega
  · rw [advanceDetect_next_row hw (by omega)] at h
    cases h

/-- A core step that ends a scan completes it. -/
theorem Inv.coreStep_completes {s t : State} (h : Inv s) (hs : s.busy = true) (e : Machine.coreStep s = .next t)
    (ht : t.busy = false) : ScanCompletes s t := by
  have herrs : t.errs = s.errs := by rw [coreStep_frame e]
  rcases coreStep_cases e with ⟨hp, -⟩ | ⟨hp, -⟩ | ⟨-, -, rfl⟩
  · rw [coreStep_threshold h hp] at e
    rw [eq_of_next e] at ht herrs ⊢
    have hp' : s.afterAutomaton.phase = .thresh := by rw [State.afterAutomaton_eq]; exact hp
    have hh : s.afterAutomaton.h = s.h := by rw [State.afterAutomaton_eq]
    obtain ⟨hdone, hidx, hrow, hlow⟩ := advanceThreshold_not_busy hp' ht
    rw [hh] at hrow hlow
    exact ⟨hdone, .inl herrs, hidx, .inr ⟨hrow, hlow, hp⟩⟩
  · obtain ⟨-, hr, hi⟩ := h.detectPos (.inl hp)
    rw [coreStep_detect h hp] at e
    rw [eq_of_next e] at ht herrs ⊢
    split at ht
    · cases ht
    · rename_i hq
      obtain ⟨hdone, hidx, hrow⟩ := advanceDetect_not_busy hr hi ht
      rw [if_neg hq] at herrs ⊢
      exact ⟨hdone, .inl herrs, hidx, .inl ⟨hrow, by simp [hp]⟩⟩
  · simp [hs] at ht

/-- A response that advances out of the scan completes it. -/
theorem Inv.response_completes {s u : State} (h : Inv s) (hp : s.phase = .waitDec)
    (hu : u.row = s.row ∧ u.idx = s.idx ∧ u.w = s.w ∧ u.h = s.h) (herrs : u.errs = s.errs ∨ u.errs = s.errs ||| 0x10#8)
    (ht : (Machine.advanceDetect u).busy = false) : ScanCompletes s (Machine.advanceDetect u) := by
  obtain ⟨hrow, hidx, hw, hh⟩ := hu
  obtain ⟨-, hr, hi⟩ := h.detectPos (.inr hp)
  rw [← hrow, ← hh] at hr
  rw [← hidx, ← hw] at hi
  obtain ⟨hdone, hidx', hrow'⟩ := advanceDetect_not_busy hr hi ht
  rw [hh] at hrow'
  exact ⟨hdone, herrs.imp_right (⟨·, hp⟩), hidx', .inl ⟨hrow', by simp [hp]⟩⟩

/-- The commands that end a running scan. -/
theorem ExecNext.scan_end_cases {i : Instr} {s t : State} (e : ExecNext s i t) (h : Inv s) (hs : s.busy = true)
    (ht : t.busy = false) :
    ScanCompletes s t ∨ (ScanOverflows s t ∧ ∃ c, i = .decOk c ∧ popcount13 c = 5) ∨
    (i = .abort ∧ t.phase = .idle ∧ t.errs = s.errs ||| 0x80#8 ∧ t.syms = []) ∨
    (i = .softReset ∧ t.phase = .idle ∧ t.syms = []) := by
  cases e with
  | decOkDrops hp => exact .inl (h.response_completes hp ⟨rfl, rfl, rfl, rfl⟩ (.inr rfl) ht)
  | decOkAppends hp | decFail hp => exact .inl (h.response_completes hp ⟨rfl, rfl, rfl, rfl⟩ (.inl rfl) ht)
  | decOkOverflows hp hc hl => exact .inr (.inl ⟨⟨rfl, rfl, rfl, hl, rfl, rfl, hp⟩, _, rfl, hc.1⟩)
  | abort => exact .inr (.inr (.inl ⟨rfl, rfl, rfl, rfl⟩))
  | softReset => exact .inr (.inr (.inr ⟨rfl, rfl, rfl⟩))
  | setDims hb | setDiameter hb | loadReset hb | loadByte hb | loadPixel hb | start hb | startFails hb | abortIdle hb =>
    exact absurd hs (by simp [hb])
  | refused | nop | clrErr => cases hs.symm.trans ht

/-- Settles O49: by the kind of the move; a word at CMD is the one of the command it decodes to. -/
theorem scanEndsInOneOfFourWays : Obligations.ScanEndsInOneOfFourWays := by
  intro s t h hs e ht
  rcases step_next_cases e with ⟨rest, -, hc⟩ | ⟨rest, hi, rfl⟩ | ⟨rest, c, i, hi, hd, hx⟩ | ⟨m, rest, -, -, -, -, hq⟩
  · exact .inl ((h.withInputs rest).coreStep_completes hs hc ht)
  · exact .inr (.inr (.inr ⟨rfl, rfl, .inl (by rw [hi]; rfl)⟩))
  · have head : s.inputs.head? = some (command i) := by rw [hi, write_eq_command_of_decode hd]; rfl
    rcases (exec_next hx).scan_end_cases (h.withInputs rest) hs ht with
      hend | ⟨⟨hp, he, hsyms, hl, hrow, hidx, hw⟩, k, rfl, hk⟩ | ⟨rfl, hp, he, hsyms⟩ | ⟨rfl, hp, hsyms⟩
    · exact .inl hend
    · have hrange : k ≤ 8191 := of_decide_eq_true (wellFormed_of_decode hd)
      exact .inr (.inl ⟨hp, he, hsyms, hl, hrow, hidx, hw, k, hrange, hk, head⟩)
    · exact .inr (.inr (.inl ⟨hp, he, hsyms, head⟩))
    · exact .inr (.inr (.inr ⟨hp, hsyms, .inr head⟩))
  · have hb : t.busy = s.busy := congrArg Phase.busy hq.phase
    simp [hb, hs] at ht

/-! ### The interrupt output (R218) -/

/-- An enabled condition of the block holds. -/
theorem State.irq_iff (s : State) : s.irq = true ↔
    (s.irqEn.getLsbD 0 = true ∧ s.phase = .done) ∨ (s.irqEn.getLsbD 1 = true ∧ s.phase = .waitDec) ∨
      (s.irqEn.getLsbD 2 = true ∧ s.errs ≠ 0#8) := by
  simp only [State.irq, State.enDone, State.enReq, State.enErr, Bool.or_eq_true, Bool.and_eq_true, decide_eq_true_eq, or_assoc]

/-- STATUS[15:8] reads 0 exactly if no error bit is set (10_state.md R40). -/
theorem State.status_errs_ne_zero (s : State) : bits s.status 8 8 ≠ 0 ↔ s.errs ≠ 0#8 := by
  rw [bits, State.status_errs]
  exact BitVec.toNat_ne_iff_ne (y := 0#8)

/-- Settles O59: no condition is enabled when the three enables are 0. -/
theorem interruptLevelFollowsTheState : Obligations.InterruptLevelFollowsTheState := by
  refine fun s => ⟨?_, s.status_getLsbD 16, fun h0 => ?_⟩
  · rw [State.status_errs_ne_zero]
    exact s.irq_iff
  · rw [← Bool.not_eq_true, State.irq_iff, h0]
    simp

end Sys2Proof.Machine
end

section
/-! PROOFS. The family of 70_reset_and_hazards.md: hardware reset (R240, R242) and the results of a completed scan (R244). -/

namespace Sys2Proof.Machine

/-! ### Hardware reset (R240, R242) -/

/-- Hardware reset leaves the reset values with an empty pixel memory, one epoch on. -/
theorem State.resetTable_hardwareReset (s : State) : ResetTable s.hardwareReset := resetTable_resetOf_withMemory ..

/-- No byte of pixel memory is written right after hardware reset, so each is the new epoch's free value (20_memory.md R77). -/
theorem State.readByte_hardwareReset (s : State) (a : Nat) :
    s.hardwareReset.readByte a = Config.unwrittenByte s.hardwareReset.epoch a := by
  rw [State.readByte, State.hardwareReset_mem, Memory.lookup_nil, Option.getD_none]

theorem step_reset {s : State} {rest : List Input} (hi : s.inputs = .reset :: rest) :
    step s = .next (State.hardwareReset { s with inputs := rest }) := by
  rw [step, hi]
  rfl

/-- Settles O22: the table of the reset values, and hardware reset as the move that restores them. -/
theorem hardwareResetLeavesTheResetTable : Obligations.HardwareResetLeavesTheResetTable :=
  ⟨resetTable_resetOf_withMemory .., fun _ _ hi =>
    ⟨_, step_reset hi, State.resetTable_hardwareReset _, rfl, rfl, rfl, rfl, State.readByte_hardwareReset _⟩⟩

/-! ### The results of a completed scan (R244) -/

/-- Only the two commands that accept bytes write pixel memory (20_memory.md R75). -/
theorem ExecNext.mem_kept_or_load {i : Instr} {s t : State} (h : ExecNext s i t) :
    t.mem = s.mem ∨ (∃ b, i = .loadByte b) ∨ ∃ r g b, i = .loadPixel r g b := by
  cases h with
  | loadByte => exact .inr (.inl ⟨_, rfl⟩)
  | loadPixel => exact .inr (.inr ⟨_, _, _, rfl⟩)
  | refused | nop | setDims | setDiameter | loadReset | start | startFails | abort | abortIdle | decOkDrops | decOkOverflows
  | decOkAppends | decFail | clrErr | softReset => exact .inl rfl

/-- From DONE every command but START and SOFT_RESET keeps the phase, the symbol table and the candidate count: an ABORT is idle there, and
the responses are refused. -/
theorem ExecNext.results_of_done {i : Instr} {s t : State} (h : ExecNext s i t) (hp : s.phase = .done) (hstart : i ≠ .start)
    (hsoft : i ≠ .softReset) : t.phase = s.phase ∧ t.syms = s.syms ∧ t.ccount = s.ccount := by
  cases h with
  | start | startFails => exact absurd rfl hstart
  | softReset => exact absurd rfl hsoft
  | abort hb => cases hb.symm.trans (congrArg Phase.busy hp)
  | decOkDrops hw | decOkOverflows hw | decOkAppends hw | decFail hw => cases hp.symm.trans hw
  | loadByte _ _ ht => rw [acceptByte_frame ht]; exact ⟨rfl, rfl, rfl⟩
  | loadPixel _ _ hu hv ht => rw [acceptByte_frame ht, acceptByte_frame hv, acceptByte_frame hu]; exact ⟨rfl, rfl, rfl⟩
  | refused | nop | setDims | setDiameter | loadReset | abortIdle | clrErr => exact ⟨rfl, rfl, rfl⟩

/-- Settles O52: by the kind of the move; a word at CMD is the one of the command it decodes to, whose operands are in range. -/
theorem resultsStayUntilTheNextStart : Obligations.ResultsStayUntilTheNextStart := by
  intro s t hp e hstart hsoft hreset
  rcases step_next_cases e with ⟨rest, -, hc⟩ | ⟨rest, hi, -⟩ | ⟨rest, c, i, hi, hd, hx⟩ | ⟨m, rest, -, -, -, -, hq⟩
  · have hidle : coreStep { s with inputs := rest } = .next { s with inputs := rest } := coreStep_idle (by simp [hp]) (by simp [hp])
    rw [eq_of_next (hidle.symm.trans hc)]
    exact ⟨hp, rfl, rfl, fun _ _ => rfl⟩
  · exact absurd (by rw [hi]; rfl) hreset
  · have head : s.inputs.head? = some (command i) := by rw [hi, write_eq_command_of_decode hd]; rfl
    have hw := wellFormed_of_decode hd
    obtain ⟨hphase, hsyms, hcount⟩ := (exec_next hx).results_of_done hp (by rintro rfl; exact hstart head)
      (by rintro rfl; exact hsoft head)
    refine ⟨hphase.trans hp, hsyms, hcount, fun hbyte hpixel => ?_⟩
    rcases (exec_next hx).mem_kept_or_load with hm | ⟨b, rfl⟩ | ⟨r, g, b, rfl⟩
    · exact hm
    · exact absurd head (hbyte b (of_decide_eq_true hw))
    · simp only [Instr.wellFormed, Bool.and_eq_true, decide_eq_true_eq] at hw
      obtain ⟨⟨hr, hg⟩, hb⟩ := hw
      exact absurd head (hpixel r hr g hg b hb)
  · exact ⟨hq.phase.trans hp, hq.syms, hq.ccount, fun _ _ => hq.mem⟩

end Sys2Proof.Machine
end

section
/-! PROOFS. The written-out words of 95_test_vectors.md section 7: a legal word is the encoder's word of its command (30_encoding.md R89),
an illegal word has its reason from the opcode map and the reserved-bit test (R84, R85, R87). -/

namespace Sys2Proof.Machine

/-- The word the assembler writes for a well-formed command decodes to that command. -/
theorem decode_of_encode {c : Word} {i : Instr} (hw : i.wellFormed = true) (hc : encode i = c) : decode c = .ok i :=
  hc ▸ encodeThenDecodeGivesTheCommand i hw

/-- A reserved opcode is the reason of the rejection, whatever the payload (30_encoding.md R84). -/
theorem decode_reservedOpcode {c : Word} (h : 12 ≤ bits c 28 4) : decode c = .error .reservedOpcode := by
  rw [decode, ofCode_reserved h]

/-- A word of an opcode of the table that fails the row's reserved-bit test is rejected with that opcode (30_encoding.md R85). -/
theorem decode_reservedPayload {c : Word} {op : Op} (hop : Op.ofCode (bits c 28 4) = some op) (hl : c &&& op.mask ≠ op.pattern) :
    decode c = .error (.reservedPayload op) := by
  rw [decode, hop]
  exact if_neg hl

/-- Settles O4: the thirteen legal words by the round trip of O1, the five with a reserved payload bit by their row's reserved-bit test,
the last by its opcode. -/
theorem writtenOutWordsDecode : Obligations.WrittenOutWordsDecode := by
  refine ⟨?nop, ?dims, ?dimsSmall, ?diameter, ?loadReset, ?loadByte, ?loadPixel, ?start, ?abort, ?decOk, ?decFail, ?clrErr, ?softReset,
    ?badDiameter, ?badByte, ?badPixel, ?badDecOk, ?badStart, ?badOpcode⟩
  case nop | dims | dimsSmall | diameter | loadReset | loadByte | loadPixel | start | abort | decOk | decFail | clrErr | softReset =>
    exact decode_of_encode rfl rfl
  case badDiameter | badByte | badPixel | badDecOk | badStart => exact decode_reservedPayload rfl (by decide)
  case badOpcode => exact decode_reservedOpcode (by decide)

end Sys2Proof.Machine
end
